-- ==== Sys2Proof/Word.lean ====
section
/-!
DEFINITION. The word types of CORE: bytes, the 32-bit words of the host port and of commands, and byte
sequences (00_scope.md R11, R12).
-/

namespace Sys2Proof

/-- A byte; also an element of GF(2^8) and a modulus byte (00_scope.md R14, R17). -/
abbrev Byte := BitVec 8

/-- A 32-bit word: a command, a register as the host sees it, one word of a buffer. -/
abbrev Word := BitVec 32

/-- A byte sequence `B`, element `B[0]` first (00_scope.md R12). -/
abbrev Bytes := List Byte

end Sys2Proof
end

