-- ==== Sys2Proof/Syntax.lean ====
section
/-!
DEFINITION. The commands of CORE as terms: one constructor of `Instr` for each row of spec/opcode_table.json
(30_encoding.md R102), and the enumerations their fields name.
-/

namespace Sys2Proof

/-- The three block ciphers a mode can be bound to (30_encoding.md R100). -/
inductive Cipher where
  | des | deal | rj
deriving DecidableEq, Repr

/-- The seven modes of operation (30_encoding.md R100). -/
inductive Mode where
  | ecb | cbc | pcbc | cfb | ofb | ctr | rd
deriving DecidableEq, Repr

/-- The four indexing rules of a permutation: origin left or right, first bit called 0 or 1
(30_encoding.md R97, 41_perm.md R150). -/
inductive PermRule where
  | l0 | l1 | r0 | r1
deriving DecidableEq, Repr

/-- The four padding schemes (30_encoding.md R101). -/
inductive Scheme where
  | pkcs7 | ansi | iso | zeros
deriving DecidableEq, Repr

/-- The direction of a block cipher (42_feistel_des.md R170). -/
inductive Dir where
  | encrypt | decrypt
deriving DecidableEq, Repr

/-- One command. Fields are those of its format (30_encoding.md R94 to R101). -/
inductive Instr where
  -- system (47_system.md)
  | nop
  | clrerr
  | sreset
  | otoi
  -- GF(2^8) unit (40_gf.md); `a`, `b` operands, `m` the modulus byte
  | gfadd (a b : Byte)
  | gfmul (a b m : Byte)
  | gfpow (a b m : Byte)
  | gfinv (a m : Byte)
  | gfirr (m : Byte)
  | pdiv (x : BitVec 16) (y : Byte)
  | prem (x : BitVec 16) (y : Byte)
  -- permutation network (41_perm.md)
  | perm (rule : PermRule) (lz : BitVec 3)
  -- 64-bit cipher (42_feistel_des.md)
  | deskey
  | desenc
  | desdec
  -- 128-bit cipher (43_deal.md)
  | dealkey
  | dealenc
  | dealdec
  -- Rijndael (44_rijndael.md)
  | rjkey (bsz md : Byte)
  | rjenc
  | rjdec
  -- modes (45_modes.md)
  | minitEcb (cipher : Cipher)
  | minitCbc (cipher : Cipher)
  | minitPcbc (cipher : Cipher)
  | minitCfb (cipher : Cipher)
  | minitOfb (cipher : Cipher)
  | minitCtr (cipher : Cipher)
  | minitRd (cipher : Cipher)
  | menc
  | mdec
  -- padding (46_padding.md); `bs` the block size
  | padaddPkcs7 (bs : Byte)
  | padaddAnsi (bs : Byte)
  | padaddIso (bs : Byte)
  | padaddZeros (bs : Byte)
  | padremPkcs7 (bs : Byte)
  | padremAnsi (bs : Byte)
  | padremIso (bs : Byte)
  | padremZeros (bs : Byte)
deriving DecidableEq, Repr

end Sys2Proof
end

