-- ==== Sys2Proof/WellFormed.lean ====
section
/-!
DEFINITION. Which terms of `Instr` stand for a legal command word. Illegal field values of formats M, P and A
cannot be written as terms (the fields are enumerations), but for a padding block size of 0
(30_encoding.md R101).
-/

namespace Sys2Proof

/-- A padding block size is 1 to 255; `bs = 0` is ILLEGAL_CMD (30_encoding.md R101). -/
def blockSizeOk (bs : Byte) : Bool := bs != 0

/-- The legal terms, one line for each constructor. -/
def Instr.wellFormed : Instr → Bool
  | .nop => true
  | .clrerr => true
  | .sreset => true
  | .otoi => true
  | .gfadd _ _ => true
  | .gfmul _ _ _ => true
  | .gfpow _ _ _ => true
  | .gfinv _ _ => true
  | .gfirr _ => true
  | .pdiv _ _ => true
  | .prem _ _ => true
  | .perm _ _ => true
  | .deskey => true
  | .desenc => true
  | .desdec => true
  | .dealkey => true
  | .dealenc => true
  | .dealdec => true
  | .rjkey _ _ => true
  | .rjenc => true
  | .rjdec => true
  | .minitEcb _ => true
  | .minitCbc _ => true
  | .minitPcbc _ => true
  | .minitCfb _ => true
  | .minitOfb _ => true
  | .minitCtr _ => true
  | .minitRd _ => true
  | .menc => true
  | .mdec => true
  | .padaddPkcs7 bs => blockSizeOk bs
  | .padaddAnsi bs => blockSizeOk bs
  | .padaddIso bs => blockSizeOk bs
  | .padaddZeros bs => blockSizeOk bs
  | .padremPkcs7 bs => blockSizeOk bs
  | .padremAnsi bs => blockSizeOk bs
  | .padremIso bs => blockSizeOk bs
  | .padremZeros bs => blockSizeOk bs

end Sys2Proof
end

