-- ==== Sys2Proof/Decode.lean ====
section
/-!
DEFINITION. Command words: the opcode map, the decoder (total, rejecting by name) and the encoder, from the
formats and tables of 30_encoding.md R90 to R104.
-/

namespace Sys2Proof

/-- The assigned opcodes (30_encoding.md R102), one for each mnemonic of the spec's map. -/
inductive Op where
  | nop | clrerr | sreset | otoi
  | gfadd | gfmul | gfpow | gfinv | gfirr | pdiv | prem
  | perm
  | deskey | desenc | desdec
  | dealkey | dealenc | dealdec
  | rjkey | rjenc | rjdec
  | minit | menc | mdec
  | padadd | padrem
deriving DecidableEq, Repr

/-- The value of `W[31:24]` that R102 gives each opcode. -/
def Op.toByte : Op → Byte
  | .nop => 0x00#8
  | .clrerr => 0x01#8
  | .sreset => 0x02#8
  | .otoi => 0x03#8
  | .gfadd => 0x10#8
  | .gfmul => 0x11#8
  | .gfpow => 0x12#8
  | .gfinv => 0x13#8
  | .gfirr => 0x14#8
  | .pdiv => 0x15#8
  | .prem => 0x16#8
  | .perm => 0x20#8
  | .deskey => 0x30#8
  | .desenc => 0x31#8
  | .desdec => 0x32#8
  | .dealkey => 0x38#8
  | .dealenc => 0x39#8
  | .dealdec => 0x3A#8
  | .rjkey => 0x40#8
  | .rjenc => 0x41#8
  | .rjdec => 0x42#8
  | .minit => 0x50#8
  | .menc => 0x51#8
  | .mdec => 0x52#8
  | .padadd => 0x60#8
  | .padrem => 0x61#8

/-- Every opcode of the map, in the map's order. -/
def Op.all : List Op :=
  [.nop, .clrerr, .sreset, .otoi, .gfadd, .gfmul, .gfpow, .gfinv, .gfirr, .pdiv, .prem, .perm,
   .deskey, .desenc, .desdec, .dealkey, .dealenc, .dealdec, .rjkey, .rjenc, .rjdec,
   .minit, .menc, .mdec, .padadd, .padrem]

/-- The opcode a byte stands for, if it is assigned (R102, R103). -/
def Op.ofByte (b : Byte) : Option Op := Op.all.find? fun op => op.toByte == b

/-- The field `W[hi:lo]` of `hi - lo + 1 = n` bits (00_scope.md R11). -/
def field (w : Word) (lo n : Nat) : BitVec n := w.extractLsb' lo n

/-- `W[31:24]`, the opcode field (R90). -/
def opField (w : Word) : Byte := field w 24 8

/-- The code of each mode in `W[3:0]` and in MCFG (R100). -/
def Mode.code : Mode → BitVec 4
  | .ecb => 0#4
  | .cbc => 1#4
  | .pcbc => 2#4
  | .cfb => 3#4
  | .ofb => 4#4
  | .ctr => 5#4
  | .rd => 6#4

/-- The mode a code stands for; 7 to 15 are illegal (R100). -/
def Mode.ofCode (c : BitVec 4) : Option Mode :=
  [Mode.ecb, .cbc, .pcbc, .cfb, .ofb, .ctr, .rd].find? fun md => md.code == c

/-- The code of each cipher in `W[7:4]` and in MCFG (R100). -/
def Cipher.code : Cipher → BitVec 4
  | .des => 0#4
  | .deal => 1#4
  | .rj => 2#4

/-- The cipher a code stands for; 3 to 15 are illegal (R99, R100). -/
def Cipher.ofCode (c : BitVec 4) : Option Cipher :=
  [Cipher.des, .deal, .rj].find? fun ci => ci.code == c

/-- The code of each padding scheme in `W[11:8]` (R101). -/
def Scheme.code : Scheme → BitVec 4
  | .pkcs7 => 0#4
  | .ansi => 1#4
  | .iso => 2#4
  | .zeros => 3#4

/-- The scheme a code stands for; 4 to 15 are illegal (R101). -/
def Scheme.ofCode (c : BitVec 4) : Option Scheme :=
  [Scheme.pkcs7, .ansi, .iso, .zeros].find? fun sc => sc.code == c

/-- The code of each permutation rule in `W[23:22]`: bit 1 the origin, bit 0 the base (R97). -/
def PermRule.code : PermRule → BitVec 2
  | .l0 => 0#2
  | .l1 => 1#2
  | .r0 => 2#2
  | .r1 => 3#2

/-- The permutation rule a code stands for; every code is assigned (R97). -/
def PermRule.ofCode (c : BitVec 2) : PermRule :=
  if c = 0#2 then .l0 else if c = 1#2 then .l1 else if c = 2#2 then .r0 else .r1

/-- The command that constructs mode `md` over cipher `c`: the MINIT row of the opcode table. -/
def Instr.ofMinit (c : Cipher) : Mode → Instr
  | .ecb => .minitEcb c
  | .cbc => .minitCbc c
  | .pcbc => .minitPcbc c
  | .cfb => .minitCfb c
  | .ofb => .minitOfb c
  | .ctr => .minitCtr c
  | .rd => .minitRd c

/-- The command that adds padding of a scheme: the PADADD row of the opcode table. -/
def Instr.ofPadadd (bs : Byte) : Scheme → Instr
  | .pkcs7 => .padaddPkcs7 bs
  | .ansi => .padaddAnsi bs
  | .iso => .padaddIso bs
  | .zeros => .padaddZeros bs

/-- The command that removes padding of a scheme: the PADREM row of the opcode table. -/
def Instr.ofPadrem (bs : Byte) : Scheme → Instr
  | .pkcs7 => .padremPkcs7 bs
  | .ansi => .padremAnsi bs
  | .iso => .padremIso bs
  | .zeros => .padremZeros bs

/-- Why a word is no command (R93, R103). All three raise ILLEGAL_CMD. -/
inductive DecodeError where
  /-- `W[31:24]` is not in the map of R102. -/
  | unknownOpcode
  /-- A bit the format marks "zero" is 1. -/
  | mustBeZero
  /-- A field holds a value its format marks illegal. -/
  | illegalField
deriving DecidableEq, Repr

/-- `i`, if the `n` bits of `w` from bit `lo` up are zero. -/
def requireZero (w : Word) (lo n : Nat) (i : Instr) : Except DecodeError Instr :=
  if field w lo n = 0 then .ok i else .error .mustBeZero

/-- The fields of a word with opcode MINIT (format M, R99). -/
def decodeMinit (w : Word) : Except DecodeError Instr :=
  match Cipher.ofCode (field w 4 4), Mode.ofCode (field w 0 4) with
  | some c, some md => requireZero w 8 16 (.ofMinit c md)
  | _, _ => .error .illegalField

/-- The fields of a word with a padding opcode (format A, R101); `mk` builds the command. -/
def decodePad (w : Word) (mk : Byte → Scheme → Instr) : Except DecodeError Instr :=
  match Scheme.ofCode (field w 8 4) with
  | some sc =>
    if blockSizeOk (field w 0 8) then requireZero w 12 12 (mk (field w 0 8) sc)
    else .error .illegalField
  | none => .error .illegalField

/-- The operands of a word whose opcode is assigned, by the format of the opcode (R94 to R101). -/
def decodeFields (w : Word) : Op → Except DecodeError Instr
  | .nop => requireZero w 0 24 .nop
  | .clrerr => requireZero w 0 24 .clrerr
  | .sreset => requireZero w 0 24 .sreset
  | .otoi => requireZero w 0 24 .otoi
  | .gfadd => requireZero w 0 8 (.gfadd (field w 16 8) (field w 8 8))
  | .gfmul => .ok (.gfmul (field w 16 8) (field w 8 8) (field w 0 8))
  | .gfpow => .ok (.gfpow (field w 16 8) (field w 8 8) (field w 0 8))
  | .gfinv => requireZero w 8 8 (.gfinv (field w 16 8) (field w 0 8))
  | .gfirr => requireZero w 8 16 (.gfirr (field w 0 8))
  | .pdiv => .ok (.pdiv (field w 8 16) (field w 0 8))
  | .prem => .ok (.prem (field w 8 16) (field w 0 8))
  | .perm => requireZero w 0 19 (.perm (.ofCode (field w 22 2)) (field w 19 3))
  | .deskey => requireZero w 0 24 .deskey
  | .desenc => requireZero w 0 24 .desenc
  | .desdec => requireZero w 0 24 .desdec
  | .dealkey => requireZero w 0 24 .dealkey
  | .dealenc => requireZero w 0 24 .dealenc
  | .dealdec => requireZero w 0 24 .dealdec
  | .rjkey => requireZero w 16 8 (.rjkey (field w 8 8) (field w 0 8))
  | .rjenc => requireZero w 0 24 .rjenc
  | .rjdec => requireZero w 0 24 .rjdec
  | .minit => decodeMinit w
  | .menc => requireZero w 0 24 .menc
  | .mdec => requireZero w 0 24 .mdec
  | .padadd => decodePad w .ofPadadd
  | .padrem => decodePad w .ofPadrem

/-- The command a word stands for (R93). -/
def decode (w : Word) : Except DecodeError Instr :=
  match Op.ofByte (opField w) with
  | none => .error .unknownOpcode
  | some op => decodeFields w op

/-! ### The encoder -/

/-- Format Z (R94). -/
def formatZ (op : Op) : Word := op.toByte ++ 0#24

/-- Format G (R95). -/
def formatG (op : Op) (a b m : Byte) : Word := op.toByte ++ a ++ b ++ m

/-- Format D (R96). -/
def formatD (op : Op) (x : BitVec 16) (y : Byte) : Word := op.toByte ++ x ++ y

/-- Format P (R97). -/
def formatP (op : Op) (rule : PermRule) (lz : BitVec 3) : Word := op.toByte ++ rule.code ++ lz ++ 0#19

/-- Format K (R98). -/
def formatK (op : Op) (bsz md : Byte) : Word := op.toByte ++ 0#8 ++ bsz ++ md

/-- Format M (R99). -/
def formatM (op : Op) (c : Cipher) (md : Mode) : Word := op.toByte ++ 0#16 ++ c.code ++ md.code

/-- Format A (R101). -/
def formatA (op : Op) (sc : Scheme) (bs : Byte) : Word := op.toByte ++ 0#12 ++ sc.code ++ bs

/-- The word of a command (R94 to R102). -/
def encode : Instr → Word
  | .nop => formatZ .nop
  | .clrerr => formatZ .clrerr
  | .sreset => formatZ .sreset
  | .otoi => formatZ .otoi
  | .gfadd a b => formatG .gfadd a b 0
  | .gfmul a b m => formatG .gfmul a b m
  | .gfpow a b m => formatG .gfpow a b m
  | .gfinv a m => formatG .gfinv a 0 m
  | .gfirr m => formatG .gfirr 0 0 m
  | .pdiv x y => formatD .pdiv x y
  | .prem x y => formatD .prem x y
  | .perm rule lz => formatP .perm rule lz
  | .deskey => formatZ .deskey
  | .desenc => formatZ .desenc
  | .desdec => formatZ .desdec
  | .dealkey => formatZ .dealkey
  | .dealenc => formatZ .dealenc
  | .dealdec => formatZ .dealdec
  | .rjkey bsz md => formatK .rjkey bsz md
  | .rjenc => formatZ .rjenc
  | .rjdec => formatZ .rjdec
  | .minitEcb c => formatM .minit c .ecb
  | .minitCbc c => formatM .minit c .cbc
  | .minitPcbc c => formatM .minit c .pcbc
  | .minitCfb c => formatM .minit c .cfb
  | .minitOfb c => formatM .minit c .ofb
  | .minitCtr c => formatM .minit c .ctr
  | .minitRd c => formatM .minit c .rd
  | .menc => formatZ .menc
  | .mdec => formatZ .mdec
  | .padaddPkcs7 bs => formatA .padadd .pkcs7 bs
  | .padaddAnsi bs => formatA .padadd .ansi bs
  | .padaddIso bs => formatA .padadd .iso bs
  | .padaddZeros bs => formatA .padadd .zeros bs
  | .padremPkcs7 bs => formatA .padrem .pkcs7 bs
  | .padremAnsi bs => formatA .padrem .ansi bs
  | .padremIso bs => formatA .padrem .iso bs
  | .padremZeros bs => formatA .padrem .zeros bs

/-- The opcode of a command (R102). -/
def Instr.op : Instr → Op
  | .nop => .nop
  | .clrerr => .clrerr
  | .sreset => .sreset
  | .otoi => .otoi
  | .gfadd _ _ => .gfadd
  | .gfmul _ _ _ => .gfmul
  | .gfpow _ _ _ => .gfpow
  | .gfinv _ _ => .gfinv
  | .gfirr _ => .gfirr
  | .pdiv _ _ => .pdiv
  | .prem _ _ => .prem
  | .perm _ _ => .perm
  | .deskey => .deskey
  | .desenc => .desenc
  | .desdec => .desdec
  | .dealkey => .dealkey
  | .dealenc => .dealenc
  | .dealdec => .dealdec
  | .rjkey _ _ => .rjkey
  | .rjenc => .rjenc
  | .rjdec => .rjdec
  | .minitEcb _ => .minit
  | .minitCbc _ => .minit
  | .minitPcbc _ => .minit
  | .minitCfb _ => .minit
  | .minitOfb _ => .minit
  | .minitCtr _ => .minit
  | .minitRd _ => .minit
  | .menc => .menc
  | .mdec => .mdec
  | .padaddPkcs7 _ => .padadd
  | .padaddAnsi _ => .padadd
  | .padaddIso _ => .padadd
  | .padaddZeros _ => .padadd
  | .padremPkcs7 _ => .padrem
  | .padremAnsi _ => .padrem
  | .padremIso _ => .padrem
  | .padremZeros _ => .padrem

/-- The command the decoder reads from the bits of a row of spec/opcode_table.json: a command is one 32-bit
word (R90), so the number of bits of a row does not matter beyond cutting `w` to it, and a longer row is
none. -/
def decodeTableWord (nbits w : Nat) : Option Instr :=
  if 32 < nbits then none
  else
    match decode (BitVec.ofNat 32 (w % 2 ^ nbits)) with
    | .ok i => some i
    | .error _ => none

end Sys2Proof
end

