-- ==== Sys2Proof/Machine/Bytes.lean ====
section
/-!
DEFINITION. Byte sequences as integers and as bit vectors (00_scope.md R12, R13, 20_memory.md R65), and the
permutation of an integer's bits by a table (42_feistel_des.md R175).
-/

namespace Sys2Proof.Machine

/-- `be(B)`: the first byte most significant (R12). -/
def beNat (B : Bytes) : Nat := B.foldl (fun acc b => 256 * acc + b.toNat) 0

/-- `tobe(n, v)`: the `n` bytes of `v mod 256^n`, the most significant first (R12). -/
def toBe : Nat → Nat → Bytes
  | 0, _ => []
  | n + 1, v => toBe n (v / 256) ++ [BitVec.ofNat 8 v]

/-- `A xor B` on byte sequences of equal length (R12). -/
def xorBytes (A B : Bytes) : Bytes := List.zipWith (· ^^^ ·) A B

/-- The 8 bits of a byte, the most significant first (R13). -/
def bitsOfByte (b : Byte) : List Bool := (List.range 8).map fun k => b.getMsbD k

/-- `bits(B)`: `b[8i + k]` is bit `7 - k` of `B[i]` (R13). -/
def bitsOf (B : Bytes) : List Bool := B.flatMap bitsOfByte

/-- The integer whose bits are `b`, the first most significant. -/
def natOfBits (b : List Bool) : Nat := b.foldl (fun acc x => 2 * acc + x.toNat) 0

/-- `pack(b)`: the bits right-aligned in `ceil(m/8)` bytes, most significant first (R13). -/
def packBits (b : List Bool) : Bytes := toBe ((b.length + 7) / 8) (natOfBits b)

/-- `perm(v, w, T)` (42_feistel_des.md R175): bit `<i>` of the result is bit `<T[i]-1>` of the `w`-bit `v`,
bit `<0>` being the most significant. The result has `n` bits, the length of `T`. -/
def permInt (w n : Nat) (T : List Nat) (v : BitVec w) : BitVec n :=
  BitVec.ofNat n (T.foldl (fun acc t => 2 * acc + (v.toNat >>> (w - t)) % 2) 0)

/-- The integer of 8 bytes, first byte most significant. -/
def be64 (B : Bytes) : BitVec 64 := BitVec.ofNat 64 (beNat B)

/-- The 8 bytes of a 64-bit integer. -/
def bytes64 (v : BitVec 64) : Bytes := toBe 8 v.toNat

/-- The blocks `B[i*bs .. (i+1)*bs)` for `i` in `0..n-1` (45_modes.md R288). -/
def blocksOf (bs n : Nat) (B : Bytes) : List Bytes :=
  (List.range n).map fun i => (B.drop (i * bs)).take bs

end Sys2Proof.Machine
end

