-- ==== Sys2Proof/Config.lean ====
section
/-!
DEFINITION. What one implementation of CORE fixes and the spec leaves open, and the free values.
Fixed sizes of version 1 of the interface are constants (00_scope.md R9).
-/

namespace Sys2Proof

/-- The open parameter of 00_scope.md R9 that a result can depend on. It is fixed for one machine: no step
changes it. DESIGN CHOICE (log 2): it rides in `State`, so that a statement about every state is a statement
about every size. -/
structure Params where
  /-- `BUF_BYTES`, the size in bytes of each of DIN and DOUT. -/
  bufBytes : Nat
deriving DecidableEq, Repr

/-- The default of the spec: 4096 bytes (00_scope.md R9). -/
def Params.standard : Params := { bufBytes := 4096 }

/-- The range the spec gives `BUF_BYTES`: a multiple of 32, at least 64, at most 16384 (00_scope.md R9). -/
abbrev Params.Valid (p : Params) : Prop :=
  p.bufBytes % 32 = 0 ∧ 64 ≤ p.bufBytes ∧ p.bufBytes ≤ 16384

/-- `KEY_BYTES` (00_scope.md R9). -/
def Config.keyBytes : Nat := 32

/-- `IV_BYTES` (00_scope.md R9). -/
def Config.ivBytes : Nat := 64

/-- `TBL_ENTRIES` (00_scope.md R9). -/
def Config.tblEntries : Nat := 256

/-- The byte the agent RNG supplies at its `n`-th draw (46_padding.md R335): any value, under no law. A free
value: it has no body, so nothing can be proved of it. DESIGN CHOICE (log 5). -/
opaque Config.rngByte : Nat → Byte

end Sys2Proof
end

