-- ==== Sys2Proof/Machine/State.lean ====
section
/-!
DEFINITION. The state of CORE (10_state.md R20 to R48) as plain data, the reasons a step could stop, and the
state after reset.
-/

namespace Sys2Proof.Machine

/-- Why the machine stops with a fault. CORE has no behaviour that stops it (93_implementation_defined.md U17,
30_encoding.md R92): an error of a command sets the error latch and is a next state, and a bad access gets a
bus-error response. So no constructor exists. -/
inductive Fault where
deriving DecidableEq, Repr

/-- Why an instruction has no meaning in the model. -/
inductive Refusal where
  /-- Raised by `exec` for a constructor whose arm is not modelled yet; no arm is left in that state. Safe: the
  model stops where the hardware goes on. -/
  | notModelled (mnemonic : String)
deriving DecidableEq, Repr

/-- The causes of an error (60_exceptions.md R361). Their codes are `ErrCode.byte`. -/
inductive ErrCode where
  | cfgKeylen | cfgBlocklen | cfgModulus | cfgIvMissing | cfgIvLen
  | arithZeroMod | arithDivZero | permRange
  | lenUnaligned | lenBlock | padBadcount | lenLimit
  /-- Reserved for a failing block lane; no command of this version raises it (45_modes.md R316). -/
  | taskFail
  | illegalCmd | notReady
deriving DecidableEq, Repr

/-- The buffers of the window and DOUT, DIN among them: bytes by window address, in the canonical form
`Memory.wf`. An address not listed holds the reset byte 0 (10_state.md R48). -/
abbrev Memory := List Host.Cell

/-- DESCTX (10_state.md R40): the sixteen 48-bit round keys, `K[0]` first. -/
structure DesCtx where
  keys : List (BitVec 48)
deriving DecidableEq, Repr

/-- DEALCTX (10_state.md R41): the round count `N` and the `N` round keys, each its 8 bytes read first byte
most significant. -/
structure DealCtx where
  n : Nat
  rk : List (BitVec 64)
deriving DecidableEq, Repr

/-- A column of 4 bytes, of the expanded key or of the state matrix (44_rijndael.md R236, R243). -/
structure Col where
  b0 : Byte
  b1 : Byte
  b2 : Byte
  b3 : Byte
deriving DecidableEq, Repr

/-- RJCTX (10_state.md R42): `NB`, `NK`, `NR`, `MOD`, `OFF[1..3]` and the expanded key `W`. -/
structure RjCtx where
  nb : Nat
  nk : Nat
  nr : Nat
  md : Byte
  off1 : Nat
  off2 : Nat
  off3 : Nat
  w : List Col
deriving DecidableEq, Repr

/-- MODECTX (10_state.md R43): `MODE`, `CIPHER`, `BS` and the captured IV; `CIVLEN` is the length of `civ`. -/
structure ModeCtx where
  mode : Mode
  cipher : Cipher
  bs : Nat
  civ : Bytes
deriving DecidableEq, Repr

/-- What the host does at the port (20_memory.md R62, R63): a read or a write of `bytes` bytes at a window
offset (only 4 is a legal width, R67), or the reset input (70_reset_and_hazards.md R400). -/
inductive HostTxn where
  | read (addr : BitVec 16) (bytes : Nat)
  | write (addr : BitVec 16) (bytes : Nat) (v : Word)
  | reset
deriving DecidableEq, Repr

/-- What the port answers to a transaction (20_memory.md R62, R63, R68). -/
inductive BusResp where
  /-- A read completed with this word. -/
  | data (v : Word)
  /-- A write completed. -/
  | written
  /-- The transaction was refused; no state of CORE changed. -/
  | busError
deriving DecidableEq, Repr

/-- The state of CORE (10_state.md R20), and after it the model's own fields. -/
structure State where
  /-- STATUS.ERR: the error latch holds an error (R25). -/
  err : Bool
  /-- STATUS.ERRCODE (R25). -/
  errCode : Byte
  /-- ERRINFO (R26). -/
  errInfo : Word
  /-- ERRCMD (R27). -/
  errCmd : Word
  /-- STATUS.DESV (R25). -/
  desv : Bool
  /-- STATUS.DEALV (R25). -/
  dealv : Bool
  /-- STATUS.RJV (R25). -/
  rjv : Bool
  /-- STATUS.MODEV (R25). -/
  modev : Bool
  /-- RES (R28). -/
  res : Word
  /-- KLEN, the bits it stores (R29). -/
  klen : BitVec 6
  /-- IVLEN, the bits it stores (R30). -/
  ivlen : BitVec 7
  /-- DLEN, the bits it stores (R31). -/
  dlen : BitVec 16
  /-- OLEN (R32). -/
  olen : BitVec 16
  /-- TLEN, the bits it stores (R33). -/
  tlen : BitVec 9
  /-- The seven buffers KEY, IV, TBL, SBOX, ISBOX, DIN, DOUT (R36 to R39, R45, R46). -/
  mem : Memory
  /-- DESCTX (R40). -/
  desctx : DesCtx
  /-- DEALCTX (R41). -/
  dealctx : DealCtx
  /-- RJCTX (R42). -/
  rjctx : RjCtx
  /-- MODECTX (R43). -/
  modectx : ModeCtx
  /-- The model's own: the open parameter BUF_BYTES of this machine (00_scope.md R9); no step changes it. -/
  params : Params
  /-- The model's own: how many bytes RNG has supplied (46_padding.md R335). -/
  draws : Nat
  /-- The model's own: host transactions issued and not yet performed, oldest first. -/
  host : List HostTxn
  /-- The model's own: the answer to the last transaction, if there was one. -/
  resp : Option BusResp
deriving DecidableEq, Repr

/-- The outcome of a command or a step. -/
abbrev Result := Host.Outcome State Fault Refusal

/-- The state after hardware reset (10_state.md R48, 70_reset_and_hazards.md R400): the error latch clear,
no context valid and all contexts zeroed, every register 0, every buffer byte 0. The model's own fields:
the spec's default BUF_BYTES (log 2), no byte drawn (log 5), no transaction pending (log 1) and none
answered (log 6). -/
def State.reset : State where
  err := false
  errCode := 0
  errInfo := 0
  errCmd := 0
  desv := false
  dealv := false
  rjv := false
  modev := false
  res := 0
  klen := 0
  ivlen := 0
  dlen := 0
  olen := 0
  tlen := 0
  mem := []
  desctx := { keys := List.replicate 16 0 }
  dealctx := { n := 0, rk := [] }
  rjctx := { nb := 0, nk := 0, nr := 0, md := 0, off1 := 0, off2 := 0, off3 := 0, w := [] }
  modectx := { mode := .ecb, cipher := .des, bs := 0, civ := [] }
  params := Params.standard
  draws := 0
  host := []
  resp := none

end Sys2Proof.Machine
end

