-- ==== Sys2Proof/Machine/Ops.lean ====
section
/-!
DEFINITION. The named operations over memory and registers: reading and writing the buffers, raising an error
(the one way a command fails), clearing the error latch, the gate, and the writes each command's rule names.
-/

namespace Sys2Proof.Machine

/-! ### Memory -/

/-- What a buffer byte that nothing has written holds: the reset value (10_state.md R48). -/
def unlistedByte : Byte := 0#8

/-- The byte at a window address. -/
def Memory.read : Memory → Nat → Byte
  | [], _ => unlistedByte
  | c :: m, a => if c.1 = a then c.2 else Memory.read m a

/-- The canonical cells of a byte sequence laid out from address `a`: no cell for a byte equal to what an
unlisted address reads as. -/
def Memory.cells : Nat → Bytes → Memory
  | _, [] => []
  | a, b :: B => if b = unlistedByte then Memory.cells (a + 1) B else (a, b) :: Memory.cells (a + 1) B

/-- `B` written at `a, a+1, ...`: the one way memory changes. -/
def Memory.write (m : Memory) (a : Nat) (B : Bytes) : Memory :=
  m.filter (fun c => c.1 < a) ++ Memory.cells a B ++ m.filter (fun c => a + B.length ≤ c.1)

/-- The `n` bytes from address `a` up. -/
def Memory.readRange (m : Memory) (a n : Nat) : Bytes := (List.range n).map fun i => Memory.read m (a + i)

/-- The canonical form: addresses strictly rising, no cell equal to what an unlisted address reads as. -/
abbrev Memory.wf (m : Memory) : Prop :=
  m.Pairwise (fun c d => c.1 < d.1) ∧ ∀ c ∈ m, c.2 ≠ unlistedByte

/-! ### The buffers in the window (20_memory.md R61) -/

/-- Offset of KEY. -/
def keyBase : Nat := 0x0100
/-- Offset of IV. -/
def ivBase : Nat := 0x0140
/-- Offset of TBL. -/
def tblBase : Nat := 0x0200
/-- Offset of SBOX. -/
def sboxBase : Nat := 0x0400
/-- Offset of ISBOX. -/
def isboxBase : Nat := 0x0500
/-- Offset of DIN. -/
def dinBase : Nat := 0x4000
/-- Offset of DOUT. -/
def doutBase : Nat := 0x8000

/-! ### Errors (60_exceptions.md) -/

/-- The cause codes (R361). -/
def ErrCode.byte : ErrCode → Byte
  | .cfgKeylen => 0x11#8
  | .cfgBlocklen => 0x12#8
  | .cfgModulus => 0x13#8
  | .cfgIvMissing => 0x14#8
  | .cfgIvLen => 0x15#8
  | .arithZeroMod => 0x21#8
  | .arithDivZero => 0x22#8
  | .permRange => 0x23#8
  | .lenUnaligned => 0x24#8
  | .lenBlock => 0x25#8
  | .padBadcount => 0x26#8
  | .lenLimit => 0x27#8
  | .taskFail => 0x28#8
  | .illegalCmd => 0x31#8
  | .notReady => 0x32#8

/-- `raise Err(CODE, info)` during the command word `w` (R366): the four latch registers are written and
nothing else. -/
def State.latchError (s : State) (w : Word) (code : ErrCode) (info : Word) : State :=
  { s with err := true, errCode := code.byte, errInfo := info, errCmd := w }

/-- A command that raises an error ends with the latch set (R365, R366). -/
def raiseErr (s : State) (w : Word) (code : ErrCode) (info : Word) : Result :=
  .next (s.latchError w code info)

/-- The return from an error: CLRERR clears the latch and nothing else (47_system.md R351, R369). -/
def State.clearLatch (s : State) : State :=
  { s with err := false, errCode := 0, errInfo := 0, errCmd := 0 }

/-- The gate (R368): while the latch holds an error a command other than CLRERR and SRESET is ignored. -/
def gated (s : State) (k : Result) : Result := if s.err then .next s else k

/-! ### Writes of the commands (47_system.md R354) -/

/-- `RES <- v`, zero-extended to 32 bits (40_gf.md R120). -/
def State.setRes (s : State) (v : Nat) : State := { s with res := BitVec.ofNat 32 v }

/-- `DOUT[0..n) <- O ; OLEN <- n` (10_state.md R46); `DOUT[n..)` is unchanged. -/
def State.emit (s : State) (n : Nat) (O : Bytes) : State :=
  { s with mem := s.mem.write doutBase O, olen := BitVec.ofNat 16 n }

/-- Bytes drawn from RNG are used up (46_padding.md R335). -/
def State.drew (s : State) (k : Nat) : State := { s with draws := s.draws + k }

/-- `DIN[0..OLEN) <- DOUT[0..OLEN) ; DLEN <- OLEN` (47_system.md R353). -/
def State.copyOutToIn (s : State) : State :=
  { s with mem := s.mem.write dinBase (s.mem.readRange doutBase s.olen.toNat), dlen := s.olen }

/-- MODEV after a successful construction of cipher `c` (10_state.md R44): cleared if the mode is bound
to `c`. -/
def State.modevAfterKey (s : State) (c : Cipher) : Bool :=
  s.modev && !(s.modectx.cipher == c)

/-- A successful DESKEY (42_feistel_des.md R190). -/
def State.installDes (s : State) (ctx : DesCtx) : State :=
  { s with desctx := ctx, desv := true, modev := s.modevAfterKey .des }

/-- A successful DEALKEY (43_deal.md R218). -/
def State.installDeal (s : State) (ctx : DealCtx) : State :=
  { s with dealctx := ctx, dealv := true, modev := s.modevAfterKey .deal }

/-- A successful RJKEY (44_rijndael.md R250): the context and the tables SBOX and ISBOX. -/
def State.installRj (s : State) (ctx : RjCtx) (sbox isbox : Bytes) : State :=
  { s with rjctx := ctx, mem := (s.mem.write sboxBase sbox).write isboxBase isbox, rjv := true,
           modev := s.modevAfterKey .rj }

/-- A successful MINIT (45_modes.md R281). -/
def State.installMode (s : State) (ctx : ModeCtx) : State := { s with modectx := ctx, modev := true }

/-- Every piece of CORE's state at its reset value (10_state.md R48, 70_reset_and_hazards.md R400, R401). The
model's own fields are not CORE's state and stay: BUF_BYTES of this machine, the draws RNG has answered
(R402: RNG is not reset), and the port. -/
def State.resetCore (s : State) : State :=
  { State.reset with params := s.params, draws := s.draws, host := s.host, resp := s.resp }

end Sys2Proof.Machine
end

