-- ==== Sys2Proof/Machine/Operands.lean ====
section
/-!
DEFINITION. The operand forms of the commands besides their own fields: the staged key, IV, table and data,
each as long as its length register says (10_state.md R29 to R33, R36 to R38, R45; 20_memory.md R66, R72), and
the S-box tables.
-/

namespace Sys2Proof.Machine

/-- `KEY[0..KLEN)` (R36). -/
def State.keyBytes (s : State) : Bytes := s.mem.readRange keyBase s.klen.toNat

/-- `IV[0..IVLEN)` (R37). -/
def State.ivBytes (s : State) : Bytes := s.mem.readRange ivBase s.ivlen.toNat

/-- `DIN[0..DLEN)` (R45). -/
def State.din (s : State) : Bytes := s.mem.readRange dinBase s.dlen.toNat

/-- `DOUT[0..OLEN)` (R46). -/
def State.dout (s : State) : Bytes := s.mem.readRange doutBase s.olen.toNat

/-- `TBL[i]`: bytes `2i`, `2i+1` of the region, high byte first, as a signed 16-bit integer (R66). -/
def State.tblEntry (s : State) (i : Nat) : Int :=
  (s.mem.read (tblBase + 2 * i) ++ s.mem.read (tblBase + 2 * i + 1) : BitVec 16).toInt

/-- `TBL[0..TLEN)` (R38). -/
def State.tbl (s : State) : List Int := (List.range s.tlen.toNat).map s.tblEntry

/-- `SBOX[v]` (R39). -/
def State.sbox (s : State) (v : Byte) : Byte := s.mem.read (sboxBase + v.toNat)

/-- `ISBOX[v]` (R39). -/
def State.isbox (s : State) (v : Byte) : Byte := s.mem.read (isboxBase + v.toNat)

/-- A length register or field zero-extended to 32 bits, as a host read and ERRINFO show it. -/
def lenWord {n : Nat} (len : BitVec n) : Word := BitVec.ofNat 32 len.toNat

end Sys2Proof.Machine
end

