-- ==== Sys2Proof/Machine/RawBlock.lean ====
section
/-!
DEFINITION. The operation the six raw cipher commands share: one block from DIN to DOUT.
-/

namespace Sys2Proof.Machine

/-- A raw cipher command (R191, 43_deal.md R219, 44_rijndael.md R251): NOT_READY without a context, LEN_BLOCK
unless DLEN is the block size, else one block from DIN to DOUT. -/
def rawBlock (s : State) (w : Word) (valid : Bool) (bs : Nat) (f : Bytes → Bytes) : Result :=
  gated s <|
    if !valid then raiseErr s w .notReady 0
    else if s.dlen.toNat ≠ bs then raiseErr s w .lenBlock (lenWord s.dlen)
    else .next (s.emit bs (f s.din))

end Sys2Proof.Machine
end

