-- ==== Sys2Proof/Machine/Des.lean ====
section
/-!
DEFINITION. The Feistel engine and the 64-bit cipher (42_feistel_des.md). Halves and blocks are the integers
their bytes stand for, first byte most significant (20_memory.md R65; log 15).
-/

namespace Sys2Proof.Machine

/-! ### The Feistel construction -/

/-- The round-key index of loop step `i` of `N` (R171): mirrored when decrypting. -/
def roundIndex (dir : Dir) (N i : Nat) : Nat :=
  match dir with
  | .encrypt => i
  | .decrypt => N - 1 - i

/-- One loop step: `R' = L xor F(R, k)`, then `L, R = R, R'` (R171). -/
def feistelRound {h : Nat} {κ : Type} (F : BitVec h → κ → BitVec h) (k : κ) (B : BitVec h × BitVec h) :
    BitVec h × BitVec h :=
  (B.2, B.1 ^^^ F B.2 k)

/-- The halves after the first `n` loop steps, step `i` with key `k i`. -/
def feistelLoop {h : Nat} {κ : Type} (F : BitVec h → κ → BitVec h) (k : Nat → κ) :
    Nat → BitVec h × BitVec h → BitVec h × BitVec h
  | 0, B => B
  | n + 1, B => feistelRound F (k n) (feistelLoop F k n B)

/-- `feistel(B, N, F, K, dir)` on the halves of a block (R171): `N - 1` loop steps, then the final step, which
does not swap. -/
def feistel {h : Nat} {κ : Type} (F : BitVec h → κ → BitVec h) (N : Nat) (K : Nat → κ) (dir : Dir)
    (B : BitVec h × BitVec h) : BitVec h × BitVec h :=
  let C := feistelLoop F (fun i => K (roundIndex dir N i)) (N - 1) B
  (F C.2 (K (roundIndex dir N (N - 1))) ^^^ C.1, C.2)

/-! ### The 64-bit cipher -/

/-- The halves `C` and `D` of the key schedule after the rotations of the rounds in `sh`, and the round key of
each (R185). -/
def desKeyRounds : List Nat → BitVec 28 → BitVec 28 → List (BitVec 48)
  | [], _, _ => []
  | r :: sh, C, D =>
    permInt 56 48 desPC2 (C.rotateLeft r ++ D.rotateLeft r)
      :: desKeyRounds sh (C.rotateLeft r) (D.rotateLeft r)

/-- `des_ks(key)` (R185): the sixteen round keys of an 8-byte key. -/
def desKs (key : BitVec 64) : List (BitVec 48) :=
  desKeyRounds desSH (permInt 64 28 desPC1C key) (permInt 64 28 desPC1D key)

/-- The nibble of group `j` of the expanded half `x` (R186): the row from the outer bits, the column from the
inner ones, table `7 - j`. -/
def desGroup (x : BitVec 48) (j : Nat) : Nat :=
  let g := (x.toNat >>> (6 * j)) % 64
  desSbox (7 - j) (g % 2 + 2 * (g / 32)) (g / 2 % 16)

/-- `des_f(R, k)` (R186). -/
def desF (R : BitVec 32) (k : BitVec 48) : BitVec 32 :=
  let x := permInt 32 48 desE R ^^^ k
  let y := (List.range 8).foldl (fun acc j => acc ||| (desGroup x j <<< (4 * j))) 0
  permInt 32 32 desP (BitVec.ofNat 32 y)

/-- The two 32-bit halves of a 64-bit block, the left one more significant. -/
def halves64 (v : BitVec 64) : BitVec 32 × BitVec 32 := (v.extractLsb' 32 32, v.extractLsb' 0 32)

/-- `des_block(K, B, dir)` (R187). -/
def desBlock (K : List (BitVec 48)) (dir : Dir) (B : BitVec 64) : BitVec 64 :=
  let pre := feistel desF 16 (fun i => K.getD i 0) dir (halves64 (permInt 64 64 desIP B))
  permInt 64 64 desFP (pre.1 ++ pre.2)

/-- `des_block` on an 8-byte block. -/
def desBytes (K : List (BitVec 48)) (dir : Dir) (B : Bytes) : Bytes := bytes64 (desBlock K dir (be64 B))

/-! ### Commands -/

/-- DESKEY (R190). -/
def execDeskey (s : State) : Result :=
  gated s <|
    if s.klen.toNat ≠ 8 then raiseErr s (encode .deskey) .cfgKeylen (lenWord s.klen)
    else .next (s.installDes { keys := desKs (be64 s.keyBytes) })

/-- DESENC (R191). -/
def execDesenc (s : State) : Result :=
  rawBlock s (encode .desenc) s.desv 8 (desBytes s.desctx.keys .encrypt)

/-- DESDEC (R192). -/
def execDesdec (s : State) : Result :=
  rawBlock s (encode .desdec) s.desv 8 (desBytes s.desctx.keys .decrypt)

end Sys2Proof.Machine
end

