-- ==== Sys2Proof/Machine/Deal.lean ====
section
/-!
DEFINITION. The 128-bit cipher (43_deal.md): a Feistel cascade whose round function and key schedule are the
64-bit cipher.
-/

namespace Sys2Proof.Machine

/-- `DEAL_KDF_KEY`, the fixed key of the key derivation, first byte most significant (R211): a constant and no
state (10_state.md R47). PRESUMED (log 3): the spec's default, which it takes from general knowledge. -/
def dealKdfKey : BitVec 64 := 0x0123456789ABCDEF#64

/-- `CON[0..3]` (R213). -/
def dealCon : List (BitVec 64) :=
  [0x4000000000000000#64, 0x2000000000000000#64, 0x0800000000000000#64, 0x0080000000000000#64]

/-- `SEG[j]` of a key (R212): its bytes `8j .. 8j+8`. -/
def dealSeg (key : Bytes) (j : Nat) : BitVec 64 := be64 ((key.drop (8 * j)).take 8)

/-- The loop of `deal_ks` (R214) for `n` more round keys, at round `i` with the previous round key `prev`. A
constant enters in every round `i ≥ s` of the 2- and 3-segment variants, `CON[0]` first. -/
def dealKeyRounds (kdf : List (BitVec 48)) (key : Bytes) (s : Nat) : Nat → Nat → BitVec 64 → List (BitVec 64)
  | 0, _, _ => []
  | n + 1, i, prev =>
    let x := dealSeg key (i % s) ^^^ prev
    let x' := if s ≤ i ∧ s ≠ 4 then x ^^^ dealCon.getD (i - s) 0 else x
    let rk := desBlock kdf .encrypt x'
    rk :: dealKeyRounds kdf key s n (i + 1) rk

/-- The number of rounds for a key of `len` bytes (R210). -/
def dealRounds (len : Nat) : Nat := if len = 32 then 8 else 6

/-- `deal_ks(key)` (R214), with the round keys `kdf` of the fixed key (R211). -/
def dealKs (kdf : List (BitVec 48)) (key : Bytes) : List (BitVec 64) :=
  dealKeyRounds kdf key (key.length / 8) (dealRounds key.length) 0 0

/-- The round function (R215): the round key does not enter as the generic engine's key material but as the key
of the inner 64-bit cipher, always in its encrypting direction (R217). -/
def dealF (half : BitVec 64) (rk : BitVec 64) : BitVec 64 := desBlock (desKs rk) .encrypt half

/-- `deal_block(RK, B, dir)` (R216) on the halves of a block. -/
def dealBlock (ctx : DealCtx) (dir : Dir) (B : BitVec 64 × BitVec 64) : BitVec 64 × BitVec 64 :=
  feistel dealF ctx.n (fun i => ctx.rk.getD i 0) dir B

/-- `deal_block` on a 16-byte block. -/
def dealBytes (ctx : DealCtx) (dir : Dir) (B : Bytes) : Bytes :=
  let C := dealBlock ctx dir (be64 (B.take 8), be64 (B.drop 8))
  bytes64 C.1 ++ bytes64 C.2

/-- A key length the 128-bit cipher and Rijndael permit (R210, 44_rijndael.md R230). -/
def keyLen3 (len : Nat) : Bool := len == 16 || len == 24 || len == 32

/-- DEALKEY (R218). -/
def execDealkey (s : State) : Result :=
  gated s <|
    if !keyLen3 s.klen.toNat then raiseErr s (encode .dealkey) .cfgKeylen (lenWord s.klen)
    else .next (s.installDeal
      { n := dealRounds s.klen.toNat, rk := dealKs (desKs dealKdfKey) s.keyBytes })

/-- DEALENC (R219). -/
def execDealenc (s : State) : Result :=
  rawBlock s (encode .dealenc) s.dealv 16 (dealBytes s.dealctx .encrypt)

/-- DEALDEC (R220). -/
def execDealdec (s : State) : Result :=
  rawBlock s (encode .dealdec) s.dealv 16 (dealBytes s.dealctx .decrypt)

end Sys2Proof.Machine
end

