-- ==== Sys2Proof/Machine/Gf.lean ====
section
/-!
DEFINITION. The GF(2^8) arithmetic unit (40_gf.md): polynomials over GF(2) as integers (00_scope.md R14), the
functions `gf_mul`, `gf_pow`, `gf_inv`, `gf_irr`, and the seven GF commands.
-/

namespace Sys2Proof.Machine

/-! ### Polynomials over GF(2) (00_scope.md R14) -/

/-- The first `n` terms of a carry-less product: `p * x^k` for each set bit `k < n` of `q`. -/
def pmulSteps : Nat → Nat → Nat → Nat
  | 0, _, _ => 0
  | n + 1, p, q => (q % 2 * p) ^^^ pmulSteps n (2 * p) (q / 2)

/-- `pmul(p, q)`, the carry-less product. -/
def pmul (p q : Nat) : Nat := pmulSteps (q.log2 + 1) p q

/-- `deg(p)`: the position of the highest set bit, -1 for 0. -/
def pdeg (p : Nat) : Int := if p = 0 then -1 else (p.log2 : Int)

/-- Long division of `r` by `q` of degree `dq`, for the quotient's terms below `x^k`: quotient and remainder. -/
def pdivSteps (q dq : Nat) : Nat → Nat → Nat × Nat
  | 0, r => (0, r)
  | k + 1, r =>
    let c := (r >>> (k + dq)) % 2
    let t := pdivSteps q dq k (r ^^^ (c * (q <<< k)))
    (c <<< k ^^^ t.1, t.2)

/-- `pdiv(p, q)` for `q ≠ 0`: the quotient. -/
def pdiv (p q : Nat) : Nat := (pdivSteps q q.log2 (p.log2 + 1 - q.log2) p).1

/-- `prem(p, q)` for `q ≠ 0`: the remainder. -/
def prem (p q : Nat) : Nat := (pdivSteps q q.log2 (p.log2 + 1 - q.log2) p).2

/-! ### Functions of the unit (40_gf.md section 3) -/

/-- The polynomial `0x100 | m` a modulus byte stands for (00_scope.md R17). -/
def modPoly (m : Byte) : Nat := 0x100 ||| m.toNat

/-- `gf_mul(x, y, m)` (R128). -/
def gfMul (x y m : Byte) : Byte := BitVec.ofNat 8 (prem (pmul x.toNat y.toNat) (modPoly m))

/-- The loop of `gf_pow` (R129), at most `n` times round. -/
def gfPowSteps (m : Byte) : Nat → Byte → Byte → Nat → Byte
  | 0, r, _, _ => r
  | n + 1, r, b, e =>
    if e = 0 then r
    else gfPowSteps m n (if e % 2 = 1 then gfMul r b m else r) (gfMul b b m) (e / 2)

/-- `gf_pow(x, e, m)` by square and multiply (R129). -/
def gfPow (x : Byte) (e : Nat) (m : Byte) : Byte := gfPowSteps m (e.log2 + 1) 1 x e

/-- `gf_inv(x, m)` (R130). -/
def gfInv (x m : Byte) : Byte := if x = 0 then 0 else gfPow x 254 m

/-- `gf_irr(m)` (R131): no polynomial of degree 1 to 4 divides `0x100 | m`. -/
def gfIrr (m : Byte) : Bool := (List.range' 2 30).all fun d => prem (modPoly m) d != 0

/-! ### Commands (40_gf.md section 2) -/

/-- GFADD (R121). -/
def execGfadd (a b : Byte) (s : State) : Result :=
  gated s <| .next (s.setRes (a ^^^ b).toNat)

/-- A GF command with a modulus: ARITH_ZERO_MOD when `m = 0`, else the result in RES (R122 to R125). -/
def gfCommand (s : State) (w : Word) (m : Byte) (result : Nat) : Result :=
  gated s <| if m = 0 then raiseErr s w .arithZeroMod 0 else .next (s.setRes result)

/-- GFMUL (R122). -/
def execGfmul (a b m : Byte) (s : State) : Result :=
  gfCommand s (encode (.gfmul a b m)) m (gfMul a b m).toNat

/-- GFPOW (R123). -/
def execGfpow (a b m : Byte) (s : State) : Result :=
  gfCommand s (encode (.gfpow a b m)) m (gfPow a b.toNat m).toNat

/-- GFINV (R124). -/
def execGfinv (a m : Byte) (s : State) : Result :=
  gfCommand s (encode (.gfinv a m)) m (gfInv a m).toNat

/-- GFIRR (R125). -/
def execGfirr (m : Byte) (s : State) : Result :=
  gfCommand s (encode (.gfirr m)) m (if gfIrr m then 1 else 0)

/-- A plain polynomial division: ARITH_DIV_ZERO when `y = 0`, else the result in RES (R126, R127). -/
def divCommand (s : State) (w : Word) (y : Byte) (result : Nat) : Result :=
  gated s <| if y = 0 then raiseErr s w .arithDivZero 0 else .next (s.setRes result)

/-- PDIV (R126). -/
def execPdiv (x : BitVec 16) (y : Byte) (s : State) : Result :=
  divCommand s (encode (.pdiv x y)) y (pdiv x.toNat y.toNat)

/-- PREM (R127). -/
def execPrem (x : BitVec 16) (y : Byte) (s : State) : Result :=
  divCommand s (encode (.prem x y)) y (prem x.toNat y.toNat)

end Sys2Proof.Machine
end

