-- ==== Sys2Proof/Machine/Flags.lean ====
section
/-!
DEFINITION. The flags and read-back registers as the host sees them: STATUS (10_state.md R25), RJCFG (R34) and
MCFG (R35), each computed from the state it shows (log 7), and the valid flag of a cipher (45_modes.md R281).
No command has arithmetic flags (R25).
-/

namespace Sys2Proof.Machine

/-- A flag as a bit. -/
def bit (b : Bool) : BitVec 1 := if b then 1#1 else 0#1

/-- STATUS (R25): ERRCODE in [15:8], MODEV, RJV, DEALV, DESV, ERR in [4:0], the rest 0. -/
def State.status (s : State) : Word :=
  0#16 ++ s.errCode ++ 0#3 ++ bit s.modev ++ bit s.rjv ++ bit s.dealv ++ bit s.desv ++ bit s.err

/-- RJCFG (R34): NR in [23:16], NK in [15:12], NB in [11:8], MOD in [7:0]; 0 while RJV = 0. -/
def State.rjcfg (s : State) : Word :=
  if s.rjv then
    0#8 ++ BitVec.ofNat 8 s.rjctx.nr ++ BitVec.ofNat 4 s.rjctx.nk ++ BitVec.ofNat 4 s.rjctx.nb ++ s.rjctx.md
  else 0

/-- MCFG (R35): CIVLEN in [22:16], BS in [15:8], CIPHER in [7:4], MODE in [3:0]; 0 while MODEV = 0. -/
def State.mcfg (s : State) : Word :=
  if s.modev then
    0#9 ++ BitVec.ofNat 7 s.modectx.civ.length ++ BitVec.ofNat 8 s.modectx.bs ++ s.modectx.cipher.code
      ++ s.modectx.mode.code
  else 0

/-- The valid flag of a cipher context (R25). -/
def State.cipherValid (s : State) : Cipher → Bool
  | .des => s.desv
  | .deal => s.dealv
  | .rj => s.rjv

/-- The block size of a cipher in bytes (30_encoding.md R100). -/
def State.blockSize (s : State) : Cipher → Nat
  | .des => 8
  | .deal => 16
  | .rj => 4 * s.rjctx.nb

end Sys2Proof.Machine
end

