-- ==== Sys2Proof/Machine/Rijndael.lean ====
section
/-!
DEFINITION. The Rijndael datapath and its key-schedule engine (44_rijndael.md). The state matrix is the list of
its columns, so that `s[r][c]` is byte `r` of column `c` (R236).
-/

namespace Sys2Proof.Machine

/-! ### S-box generator (R232 to R235) -/

/-- The affine part of R233: `t xor rot_1(t) xor ... xor rot_4(t) xor 0x63`. -/
def sboxAffine (t : Byte) : Byte :=
  t ^^^ t.rotateLeft 1 ^^^ t.rotateLeft 2 ^^^ t.rotateLeft 3 ^^^ t.rotateLeft 4 ^^^ 0x63#8

/-- `SBOX[v]` for a modulus (R233). -/
def sboxEntry (md v : Byte) : Byte := sboxAffine (gfInv v md)

/-- The affine part of R234: `rot_1(s) xor rot_3(s) xor rot_6(s) xor 0x05`. -/
def isboxAffine (s : Byte) : Byte := s.rotateLeft 1 ^^^ s.rotateLeft 3 ^^^ s.rotateLeft 6 ^^^ 0x05#8

/-- `ISBOX[s]` for a modulus (R234). -/
def isboxEntry (md s : Byte) : Byte := gfInv (isboxAffine s) md

/-- The table `SBOX[0..255]` for a modulus. -/
def sboxTable (md : Byte) : Bytes := (List.range 256).map fun v => sboxEntry md (BitVec.ofNat 8 v)

/-- The table `ISBOX[0..255]` for a modulus. -/
def isboxTable (md : Byte) : Bytes := (List.range 256).map fun v => isboxEntry md (BitVec.ofNat 8 v)

/-! ### Columns and the state matrix (R236) -/

/-- The same function on each byte of a column. -/
def Col.mapBytes (f : Byte → Byte) (c : Col) : Col := { b0 := f c.b0, b1 := f c.b1, b2 := f c.b2, b3 := f c.b3 }

/-- Bytewise exclusive-or of two columns. -/
def Col.xor (c d : Col) : Col :=
  { b0 := c.b0 ^^^ d.b0, b1 := c.b1 ^^^ d.b1, b2 := c.b2 ^^^ d.b2, b3 := c.b3 ^^^ d.b3 }

/-- The zero column. -/
def Col.zero : Col := { b0 := 0, b1 := 0, b2 := 0, b3 := 0 }

/-- The bytes of a column, row 0 first. -/
def Col.bytes (c : Col) : Bytes := [c.b0, c.b1, c.b2, c.b3]

/-- The first `n` columns of a byte sequence: `s[r][c] = B[4c + r]` (R236). -/
def colsOf : Nat → Bytes → List Col
  | 0, _ => []
  | n + 1, B =>
    { b0 := B.getD 0 0, b1 := B.getD 1 0, b2 := B.getD 2 0, b3 := B.getD 3 0 } :: colsOf n (B.drop 4)

/-- The block of a state matrix: `B[4c + r] = s[r][c]` (R236). -/
def bytesOf (s : List Col) : Bytes := s.flatMap Col.bytes

/-! ### Round transforms (R237 to R241) -/

/-- Column `(c + o) mod NB` of the matrix, the source of a row shifted by `o`. -/
def shiftedCol (s : List Col) (c o : Nat) : Col := s.getD ((c + o) % s.length) Col.zero

/-- ShiftRows (R238): row `r` rotated to the left by `OFF[r]`; row 0 untouched. -/
def shiftRows (o1 o2 o3 : Nat) (s : List Col) : List Col :=
  (List.range s.length).map fun c =>
    { b0 := (shiftedCol s c 0).b0, b1 := (shiftedCol s c o1).b1,
      b2 := (shiftedCol s c o2).b2, b3 := (shiftedCol s c o3).b3 }

/-- How far left a rotation to the right by `o` is, in rows of `nb` columns. -/
def backShift (nb o : Nat) : Nat := nb - o % nb

/-- InvShiftRows (R238): `s[r][(c - OFF[r]) mod NB]`. -/
def invShiftRows (o1 o2 o3 : Nat) (s : List Col) : List Col :=
  shiftRows (backShift s.length o1) (backShift s.length o2) (backShift s.length o3) s

/-- SubBytes with a table, and InvSubBytes with the inverse table (R239). -/
def subBytes (tbl : Byte → Byte) (s : List Col) : List Col := s.map (Col.mapBytes tbl)

/-- One output byte of MixColumns: the sum of four products (R240). -/
def mixByte (md k0 k1 k2 k3 : Byte) (a : Col) : Byte :=
  gfMul k0 a.b0 md ^^^ gfMul k1 a.b1 md ^^^ gfMul k2 a.b2 md ^^^ gfMul k3 a.b3 md

/-- The circulant product of R240 with coefficients `cf[0..3]`: byte `r` is the sum over `k` of
`cf[(r - k) mod 4] * a_k`. -/
def mixCol (md c0 c1 c2 c3 : Byte) (a : Col) : Col :=
  { b0 := mixByte md c0 c3 c2 c1 a, b1 := mixByte md c1 c0 c3 c2 a,
    b2 := mixByte md c2 c1 c0 c3 a, b3 := mixByte md c3 c2 c1 c0 a }

/-- MixColumns (R240), coefficients `02, 01, 01, 03`. -/
def mixColumns (md : Byte) (s : List Col) : List Col := s.map (mixCol md 0x02 0x01 0x01 0x03)

/-- InvMixColumns (R240), coefficients `0E, 09, 0D, 0B`. -/
def invMixColumns (md : Byte) (s : List Col) : List Col := s.map (mixCol md 0x0E 0x09 0x0D 0x0B)

/-- The `NB` columns of the expanded key for round `rnd` (R241). -/
def roundKey (ctx : RjCtx) (rnd : Nat) : List Col := (ctx.w.drop (rnd * ctx.nb)).take ctx.nb

/-- AddRoundKey (R241). -/
def addRoundKey (ctx : RjCtx) (rnd : Nat) (s : List Col) : List Col :=
  List.zipWith Col.xor s (roundKey ctx rnd)

/-! ### Key schedule (R242, R243) -/

/-- The round constants `rc[i]` (R242); the reduction constant `0x11B` does not depend on the modulus. -/
def rcon : Nat → Byte
  | 0 => 0x01#8
  | i + 1 =>
    let r := (rcon i).toNat
    if r < 0x80 then BitVec.ofNat 8 (2 * r) else BitVec.ofNat 8 ((2 * r) ^^^ 0x11B)

/-- What is XORed onto `W[i-NK]` (R243), from `t = W[i-1]`: rotated, substituted and with the round constant at a
multiple of `NK`; substituted only at position 4 when `NK > 6`. -/
def expandTemp (sb : Byte → Byte) (nk i : Nat) (t : Col) : Col :=
  if i % nk = 0 then
    { b0 := sb t.b1 ^^^ rcon (i / nk - 1), b1 := sb t.b2, b2 := sb t.b3, b3 := sb t.b0 }
  else if 6 < nk ∧ i % nk = 4 then Col.mapBytes sb t
  else t

/-- The loop of `rj_expand` (R243) for `n` more columns, `i` the index of the next; `acc` holds the columns made
so far, the latest first. -/
def expandSteps (sb : Byte → Byte) (nk : Nat) : Nat → Nat → List Col → List Col
  | 0, _, acc => acc
  | n + 1, i, acc =>
    let t := expandTemp sb nk i (acc.getD 0 Col.zero)
    expandSteps sb nk n (i + 1) (Col.xor (acc.getD (nk - 1) Col.zero) t :: acc)

/-- `rj_expand(key, NK, NB, NR)` (R243): `NB*(NR+1)` columns. -/
def rjExpand (sb : Byte → Byte) (key : Bytes) (nk nb nr : Nat) : List Col :=
  (expandSteps sb nk (nb * (nr + 1) - nk) nk (colsOf nk key).reverse).reverse

/-! ### Block functions (R244, R245) -/

/-- A full round of encryption (R244). -/
def rjRound (ctx : RjCtx) (sb : Byte → Byte) (s : List Col) (rnd : Nat) : List Col :=
  addRoundKey ctx rnd (mixColumns ctx.md (shiftRows ctx.off1 ctx.off2 ctx.off3 (subBytes sb s)))

/-- A full round of decryption, in the order of R245. -/
def rjInvRound (ctx : RjCtx) (isb : Byte → Byte) (s : List Col) (rnd : Nat) : List Col :=
  invMixColumns ctx.md (addRoundKey ctx rnd (subBytes isb (invShiftRows ctx.off1 ctx.off2 ctx.off3 s)))

/-- `rj_encrypt` on the state matrix (R244). -/
def rjEncryptCols (ctx : RjCtx) (sb : Byte → Byte) (s : List Col) : List Col :=
  let s' := (List.range' 1 (ctx.nr - 1)).foldl (rjRound ctx sb) (addRoundKey ctx 0 s)
  addRoundKey ctx ctx.nr (shiftRows ctx.off1 ctx.off2 ctx.off3 (subBytes sb s'))

/-- `rj_decrypt` on the state matrix (R245). -/
def rjDecryptCols (ctx : RjCtx) (isb : Byte → Byte) (s : List Col) : List Col :=
  let s' := (List.range' 1 (ctx.nr - 1)).reverse.foldl (rjInvRound ctx isb) (addRoundKey ctx ctx.nr s)
  addRoundKey ctx 0 (subBytes isb (invShiftRows ctx.off1 ctx.off2 ctx.off3 s'))

/-- `rj_encrypt(ctx, B)` (R244). -/
def rjEncrypt (ctx : RjCtx) (sb : Byte → Byte) (B : Bytes) : Bytes :=
  bytesOf (rjEncryptCols ctx sb (colsOf ctx.nb B))

/-- `rj_decrypt(ctx, B)` (R245). -/
def rjDecrypt (ctx : RjCtx) (isb : Byte → Byte) (B : Bytes) : Bytes :=
  bytesOf (rjDecryptCols ctx isb (colsOf ctx.nb B))

/-! ### Commands -/

/-- A permitted block size or key length in bytes (R230). -/
def rjSizeOk (n : Nat) : Bool := n == 16 || n == 24 || n == 32

/-- The context RJKEY builds (R250) from the key, the block size and the modulus: `NR` by R231, the offsets by R237
from `NK`, the expanded key by R243 with the S-box of the modulus. -/
def rjContext (key : Bytes) (bsz : Nat) (md : Byte) : RjCtx :=
  let nb := bsz / 4
  let nk := key.length / 4
  let nr := max nk nb + 6
  { nb := nb, nk := nk, nr := nr, md := md,
    off1 := 1, off2 := if nk = 8 then 3 else 2, off3 := if nk = 8 then 4 else 3,
    w := rjExpand (sboxEntry md) key nk nb nr }

/-- RJKEY (R250). -/
def execRjkey (bsz md : Byte) (s : State) : Result :=
  let w := encode (.rjkey bsz md)
  gated s <|
    if !rjSizeOk bsz.toNat then raiseErr s w .cfgBlocklen (lenWord bsz)
    else if !rjSizeOk s.klen.toNat then raiseErr s w .cfgKeylen (lenWord s.klen)
    else if md = 0 then raiseErr s w .arithZeroMod 0
    else if !gfIrr md then raiseErr s w .cfgModulus (lenWord md)
    else .next (s.installRj (rjContext s.keyBytes bsz.toNat md) (sboxTable md) (isboxTable md))

/-- RJENC (R251). -/
def execRjenc (s : State) : Result :=
  rawBlock s (encode .rjenc) s.rjv (4 * s.rjctx.nb) (rjEncrypt s.rjctx s.sbox)

/-- RJDEC (R252). -/
def execRjdec (s : State) : Result :=
  rawBlock s (encode .rjdec) s.rjv (4 * s.rjctx.nb) (rjDecrypt s.rjctx s.isbox)

end Sys2Proof.Machine
end

