-- ==== Sys2Proof/Machine/Modes.lean ====
section
/-!
DEFINITION. The mode-of-operation state machine (45_modes.md): the seven modes over a block cipher, and the
commands MINIT, MENC and MDEC.
-/

namespace Sys2Proof.Machine

/-- The two functions a mode has of its cipher: `E` and `D` on a block (R280). A value of a computation, not
state. -/
structure BlockCipher where
  E : Bytes → Bytes
  D : Bytes → Bytes

/-- The bound cipher of a state (R280). -/
def State.blockCipher (s : State) : Cipher → BlockCipher
  | .des => { E := desBytes s.desctx.keys .encrypt, D := desBytes s.desctx.keys .decrypt }
  | .deal => { E := dealBytes s.dealctx .encrypt, D := dealBytes s.dealctx .decrypt }
  | .rj => { E := rjEncrypt s.rjctx s.sbox, D := rjDecrypt s.rjctx s.isbox }

/-! ### The modes with feedback (R292 to R295): lists of blocks, the chaining value first -/

/-- CBC encryption, `prev = C_(i-1)` (R292). -/
def cbcEnc (c : BlockCipher) : Bytes → List Bytes → List Bytes
  | _, [] => []
  | prev, P :: Ps => c.E (xorBytes P prev) :: cbcEnc c (c.E (xorBytes P prev)) Ps

/-- CBC decryption, `prev = C_(i-1)` (R292). -/
def cbcDec (c : BlockCipher) : Bytes → List Bytes → List Bytes
  | _, [] => []
  | prev, C :: Cs => xorBytes (c.D C) prev :: cbcDec c C Cs

/-- PCBC encryption, `x = X_(i-1)` (R293). -/
def pcbcEnc (c : BlockCipher) : Bytes → List Bytes → List Bytes
  | _, [] => []
  | x, P :: Ps => c.E (xorBytes P x) :: pcbcEnc c (xorBytes P (c.E (xorBytes P x))) Ps

/-- PCBC decryption, `x = X_(i-1)` (R293). -/
def pcbcDec (c : BlockCipher) : Bytes → List Bytes → List Bytes
  | _, [] => []
  | x, C :: Cs => xorBytes (c.D C) x :: pcbcDec c (xorBytes (xorBytes (c.D C) x) C) Cs

/-- CFB encryption, `prev = C_(i-1)` (R294). -/
def cfbEnc (c : BlockCipher) : Bytes → List Bytes → List Bytes
  | _, [] => []
  | prev, P :: Ps => xorBytes (c.E prev) P :: cfbEnc c (xorBytes (c.E prev) P) Ps

/-- CFB decryption, `prev = C_(i-1)`; it uses `E` only (R294). -/
def cfbDec (c : BlockCipher) : Bytes → List Bytes → List Bytes
  | _, [] => []
  | prev, C :: Cs => xorBytes (c.E prev) C :: cfbDec c C Cs

/-- OFB in both directions, `o = O_(i-1)` (R295). -/
def ofbCrypt (c : BlockCipher) : Bytes → List Bytes → List Bytes
  | _, [] => []
  | o, X :: Xs => xorBytes X (c.E o) :: ofbCrypt c (c.E o) Xs

/-! ### The modes without feedback (R291, R296, R297) -/

/-- The counter block `T_i` of CTR (R296). -/
def ctrBlock (bs : Nat) (iv : Bytes) (i : Nat) : Bytes := iv ++ toBe (bs - iv.length) i

/-- The additive term `A_i` of RD (R297). -/
def rdTerm (bs : Nat) (iv : Bytes) (i : Nat) : Bytes :=
  toBe bs (beNat (iv.take (iv.length / 2)) + i * beNat (iv.drop (iv.length / 2)))

/-- A function of each block and its index, in index order (R314). -/
def mapBlocks (f : Nat → Bytes → Bytes) (X : List Bytes) : List Bytes := X.mapIdx f

/-- The blocks MENC makes of the blocks `P` (R291 to R297). -/
def modeEncrypt (md : Mode) (c : BlockCipher) (bs : Nat) (iv : Bytes) (P : List Bytes) : List Bytes :=
  match md with
  | .ecb => mapBlocks (fun _ b => c.E b) P
  | .cbc => cbcEnc c iv P
  | .pcbc => pcbcEnc c iv P
  | .cfb => cfbEnc c iv P
  | .ofb => ofbCrypt c iv P
  | .ctr => mapBlocks (fun i b => xorBytes b (c.E (ctrBlock bs iv i))) P
  | .rd => mapBlocks (fun i b => c.E (xorBytes b (rdTerm bs iv i))) P

/-- The blocks MDEC makes of the blocks `C` (R291 to R297). -/
def modeDecrypt (md : Mode) (c : BlockCipher) (bs : Nat) (iv : Bytes) (C : List Bytes) : List Bytes :=
  match md with
  | .ecb => mapBlocks (fun _ b => c.D b) C
  | .cbc => cbcDec c iv C
  | .pcbc => pcbcDec c iv C
  | .cfb => cfbDec c iv C
  | .ofb => ofbCrypt c iv C
  | .ctr => mapBlocks (fun i b => xorBytes b (c.E (ctrBlock bs iv i))) C
  | .rd => mapBlocks (fun i b => xorBytes (c.D b) (rdTerm bs iv i)) C

/-! ### Commands -/

/-- An IV length a mode other than ECB rejects with CFG_IV_LEN (R281, R282). -/
def ivLenBad (md : Mode) (ivlen bs : Nat) : Bool :=
  decide (Config.ivBytes < ivlen) ||
    match md with
    | .ecb => false
    | .cbc => ivlen != bs
    | .pcbc => ivlen != bs
    | .cfb => ivlen != bs
    | .ofb => ivlen != bs
    | .ctr => decide (bs ≤ ivlen)
    | .rd => ivlen % 2 == 1

/-- MINIT (R281) for the command word `w`. -/
def minit (md : Mode) (c : Cipher) (w : Word) (s : State) : Result :=
  gated s <|
    if !s.cipherValid c then raiseErr s w .notReady 0
    else if md = .ecb then .next (s.installMode { mode := md, cipher := c, bs := s.blockSize c, civ := [] })
    else if s.ivlen.toNat = 0 then raiseErr s w .cfgIvMissing 0
    else if ivLenBad md s.ivlen.toNat (s.blockSize c) then raiseErr s w .cfgIvLen (lenWord s.ivlen)
    else .next (s.installMode { mode := md, cipher := c, bs := s.blockSize c, civ := s.ivBytes })

/-- MINIT ECB (R281, R291). -/
def execMinitEcb (c : Cipher) (s : State) : Result := minit .ecb c (encode (.minitEcb c)) s

/-- MINIT CBC (R281, R292). -/
def execMinitCbc (c : Cipher) (s : State) : Result := minit .cbc c (encode (.minitCbc c)) s

/-- MINIT PCBC (R281, R293). -/
def execMinitPcbc (c : Cipher) (s : State) : Result := minit .pcbc c (encode (.minitPcbc c)) s

/-- MINIT CFB (R281, R294). -/
def execMinitCfb (c : Cipher) (s : State) : Result := minit .cfb c (encode (.minitCfb c)) s

/-- MINIT OFB (R281, R295). -/
def execMinitOfb (c : Cipher) (s : State) : Result := minit .ofb c (encode (.minitOfb c)) s

/-- MINIT CTR (R281, R296). -/
def execMinitCtr (c : Cipher) (s : State) : Result := minit .ctr c (encode (.minitCtr c)) s

/-- MINIT RD (R281, R297). -/
def execMinitRd (c : Cipher) (s : State) : Result := minit .rd c (encode (.minitRd c)) s

/-- The message operation MENC and MDEC share (R288, R289): the checks, then the blocks of DIN through `f` to
DOUT at their exact block offset (R314). -/
def modeData (w : Word) (f : List Bytes → List Bytes) (s : State) : Result :=
  gated s <|
    if !s.modev then raiseErr s w .notReady 0
    else if s.params.bufBytes < s.dlen.toNat then raiseErr s w .lenLimit (lenWord s.dlen)
    else if s.dlen.toNat % s.modectx.bs ≠ 0 then raiseErr s w .lenUnaligned (lenWord s.dlen)
    else .next (s.emit s.dlen.toNat
      (f (blocksOf s.modectx.bs (s.dlen.toNat / s.modectx.bs) s.din)).flatten)

/-- MENC (R288). -/
def execMenc (s : State) : Result :=
  modeData (encode .menc)
    (modeEncrypt s.modectx.mode (s.blockCipher s.modectx.cipher) s.modectx.bs s.modectx.civ) s

/-- MDEC (R289). -/
def execMdec (s : State) : Result :=
  modeData (encode .mdec)
    (modeDecrypt s.modectx.mode (s.blockCipher s.modectx.cipher) s.modectx.bs s.modectx.civ) s

end Sys2Proof.Machine
end

