-- ==== Sys2Proof/Machine/Padding.lean ====
section
/-!
DEFINITION. The padding unit (46_padding.md): PADADD and PADREM in the four schemes.
-/

namespace Sys2Proof.Machine

/-- `n = bs - (len mod bs)` (R330). -/
def padCount (len bs : Nat) : Nat := bs - len % bs

/-- The filler bytes of ISO 10126: `k` draws from RNG, the first at draw number `start` (R334, R335). -/
def rngBytes (start k : Nat) : Bytes := (List.range k).map fun j => Config.rngByte (start + j)

/-- `add_scheme(X, bs)` (R332, R333, R334, R340); `start` is the number of RNG's next draw. -/
def padAdd (sc : Scheme) (X : Bytes) (bs start : Nat) : Bytes :=
  let n := padCount X.length bs
  match sc with
  | .pkcs7 => X ++ List.replicate n (BitVec.ofNat 8 n)
  | .ansi => X ++ List.replicate (n - 1) 0 ++ [BitVec.ofNat 8 n]
  | .iso => X ++ rngBytes start (n - 1) ++ [BitVec.ofNat 8 n]
  | .zeros => if X.length % bs = 0 then X else X ++ List.replicate n 0

/-- How many bytes PADADD draws from RNG: `n - 1` for ISO, none for the other schemes (R334, R335). -/
def padDraws (sc : Scheme) (len bs : Nat) : Nat :=
  match sc with
  | .pkcs7 => 0
  | .ansi => 0
  | .iso => padCount len bs - 1
  | .zeros => 0

/-- `remove_default(Y)` (R337): the bytes left, or the ERRINFO of PAD_BADCOUNT. -/
def removeDefault (Y : Bytes) : Except Nat Bytes :=
  match Y.getLast? with
  | none => .error 0
  | some k => if Y.length < k.toNat then .error k.toNat else .ok (Y.take (Y.length - k.toNat))

/-- `remove_zeros(Y)` (R341): all trailing zero bytes stripped. -/
def removeZeros (Y : Bytes) : Bytes := (Y.reverse.dropWhile (· == 0)).reverse

/-- PADADD (R331) for the command word `w`. A term with `bs = 0` is the illegal word `w` (30_encoding.md R101;
log 9). -/
def padaddCommand (sc : Scheme) (bs : Byte) (w : Word) (s : State) : Result :=
  let Y := padAdd sc s.din bs.toNat s.draws
  gated s <|
    if bs = 0 then raiseErr s w .illegalCmd 0
    else if s.params.bufBytes < s.dlen.toNat then raiseErr s w .lenLimit (lenWord s.dlen)
    else if s.params.bufBytes < Y.length then raiseErr s w .lenLimit (BitVec.ofNat 32 Y.length)
    else .next ((s.emit Y.length Y).drew (padDraws sc s.dlen.toNat bs.toNat))

/-- PADADD PKCS7 (R331, R332). -/
def execPadaddPkcs7 (bs : Byte) (s : State) : Result := padaddCommand .pkcs7 bs (encode (.padaddPkcs7 bs)) s

/-- PADADD ANSI (R331, R333). -/
def execPadaddAnsi (bs : Byte) (s : State) : Result := padaddCommand .ansi bs (encode (.padaddAnsi bs)) s

/-- PADADD ISO (R331, R334). -/
def execPadaddIso (bs : Byte) (s : State) : Result := padaddCommand .iso bs (encode (.padaddIso bs)) s

/-- PADADD ZEROS (R331, R340). -/
def execPadaddZeros (bs : Byte) (s : State) : Result := padaddCommand .zeros bs (encode (.padaddZeros bs)) s

/-- PADREM (R336) for the command word `w`; `bs` is decoded and otherwise unused. A term with `bs = 0` is the
illegal word `w` (30_encoding.md R101; log 9). -/
def padremCommand (remove : Bytes → Except Nat Bytes) (bs : Byte) (w : Word) (s : State) : Result :=
  gated s <|
    if bs = 0 then raiseErr s w .illegalCmd 0
    else if s.params.bufBytes < s.dlen.toNat then raiseErr s w .lenLimit (lenWord s.dlen)
    else
      match remove s.din with
      | .error k => raiseErr s w .padBadcount (BitVec.ofNat 32 k)
      | .ok X => .next (s.emit X.length X)

/-- PADREM PKCS7 (R336, R337). -/
def execPadremPkcs7 (bs : Byte) (s : State) : Result :=
  padremCommand removeDefault bs (encode (.padremPkcs7 bs)) s

/-- PADREM ANSI (R336, R337). -/
def execPadremAnsi (bs : Byte) (s : State) : Result :=
  padremCommand removeDefault bs (encode (.padremAnsi bs)) s

/-- PADREM ISO (R336, R337). -/
def execPadremIso (bs : Byte) (s : State) : Result :=
  padremCommand removeDefault bs (encode (.padremIso bs)) s

/-- PADREM ZEROS (R336, R341). -/
def execPadremZeros (bs : Byte) (s : State) : Result :=
  padremCommand (fun Y => .ok (removeZeros Y)) bs (encode (.padremZeros bs)) s

end Sys2Proof.Machine
end

