-- ==== Sys2Proof/Machine/Perm.lean ====
section
/-!
DEFINITION. The bit-permutation network (41_perm.md): the function `rearrange` and the command PERM.
-/

namespace Sys2Proof.Machine

/-- The origin of a rule is the left end (30_encoding.md R97). -/
def ruleIsLeft : PermRule → Bool
  | .l0 => true
  | .l1 => true
  | .r0 => false
  | .r1 => false

/-- The rule calls the first bit 1 (30_encoding.md R97). -/
def ruleFirstIsOne : PermRule → Bool
  | .l0 => false
  | .l1 => true
  | .r0 => false
  | .r1 => true

/-- The adjusted index of a table entry, an exact integer (R152, R155). -/
def adjustedIndex (rule : PermRule) (t : Int) : Int :=
  if ruleFirstIsOne rule then t - 1 else t

/-- The usable bit length `U` of an input of `len` bytes (R153). -/
def usableBits (rule : PermRule) (lz len : Nat) : Nat :=
  if ruleIsLeft rule then (if len = 0 then 0 else 8 * len - lz) else 8 * len

/-- The source bit of an adjusted index `a` in range (R154). -/
def sourceBit (rule : PermRule) (lz : Nat) (I : Bytes) (a : Nat) : Bool :=
  if ruleIsLeft rule then (bitsOf I).getD (lz + a) false
  else (bitsOf I).getD (8 * I.length - 1 - a) false

/-- An entry is in range: its adjusted index is neither negative nor beyond the usable bits (R155). -/
def entryInRange (rule : PermRule) (lz len : Nat) (t : Int) : Bool :=
  0 ≤ adjustedIndex rule t && adjustedIndex rule t < (usableBits rule lz len : Int)

/-- `rearrange(I, lz, T, rule)` (R150): the packed output bits (R156), or the smallest table position whose
entry is out of range (R155). -/
def rearrange (I : Bytes) (lz : Nat) (T : List Int) (rule : PermRule) : Except Nat Bytes :=
  match T.findIdx? (fun t => !entryInRange rule lz I.length t) with
  | some i => .error i
  | none => .ok (packBits (T.map fun t => sourceBit rule lz I (adjustedIndex rule t).toNat))

/-- PERM (R151). -/
def execPerm (rule : PermRule) (lz : BitVec 3) (s : State) : Result :=
  let w := encode (.perm rule lz)
  gated s <|
    if s.params.bufBytes < s.dlen.toNat then raiseErr s w .lenLimit (lenWord s.dlen)
    else if Config.tblEntries < s.tlen.toNat then raiseErr s w .lenLimit (lenWord s.tlen)
    else
      match rearrange s.din lz.toNat s.tbl rule with
      | .error i => raiseErr s w .permRange (BitVec.ofNat 32 i)
      | .ok O => .next (s.emit O.length O)

end Sys2Proof.Machine
end

