-- ==== Sys2Proof/Machine/System.lean ====
section
/-!
DEFINITION. The system commands (47_system.md): NOP, CLRERR, SRESET, OTOI.
-/

namespace Sys2Proof.Machine

/-- NOP (R350): no state changes. -/
def execNop (s : State) : Result := gated s (.next s)

/-- CLRERR (R351): passes the gate; clears the error latch and nothing else. -/
def execClrerr (s : State) : Result := .next s.clearLatch

/-- SRESET (R352): passes the gate; all of CORE's state takes its reset value. -/
def execSreset (s : State) : Result := .next s.resetCore

/-- OTOI (R353). -/
def execOtoi (s : State) : Result := gated s (.next s.copyOutToIn)

end Sys2Proof.Machine
end

