-- ==== Sys2Proof/Machine/Dispatch.lean ====
section
/-!
DEFINITION. One arm for each command: the effect of the command's own rule (30_encoding.md R91, point 3), behind
the gate.
-/

namespace Sys2Proof.Machine

def exec (i : Instr) (s : State) : Host.Outcome State Fault Refusal :=
  match i with
  | .nop => Sys2Proof.Machine.execNop s
  | .clrerr => Sys2Proof.Machine.execClrerr s
  | .sreset => Sys2Proof.Machine.execSreset s
  | .otoi => Sys2Proof.Machine.execOtoi s
  | .gfadd a b => Sys2Proof.Machine.execGfadd a b s
  | .gfmul a b m => Sys2Proof.Machine.execGfmul a b m s
  | .gfpow a b m => Sys2Proof.Machine.execGfpow a b m s
  | .gfinv a m => Sys2Proof.Machine.execGfinv a m s
  | .gfirr m => Sys2Proof.Machine.execGfirr m s
  | .pdiv x y => Sys2Proof.Machine.execPdiv x y s
  | .prem x y => Sys2Proof.Machine.execPrem x y s
  | .perm rule lz => Sys2Proof.Machine.execPerm rule lz s
  | .deskey => Sys2Proof.Machine.execDeskey s
  | .desenc => Sys2Proof.Machine.execDesenc s
  | .desdec => Sys2Proof.Machine.execDesdec s
  | .dealkey => Sys2Proof.Machine.execDealkey s
  | .dealenc => Sys2Proof.Machine.execDealenc s
  | .dealdec => Sys2Proof.Machine.execDealdec s
  | .rjkey bsz md => Sys2Proof.Machine.execRjkey bsz md s
  | .rjenc => Sys2Proof.Machine.execRjenc s
  | .rjdec => Sys2Proof.Machine.execRjdec s
  | .minitEcb c => Sys2Proof.Machine.execMinitEcb c s
  | .minitCbc c => Sys2Proof.Machine.execMinitCbc c s
  | .minitPcbc c => Sys2Proof.Machine.execMinitPcbc c s
  | .minitCfb c => Sys2Proof.Machine.execMinitCfb c s
  | .minitOfb c => Sys2Proof.Machine.execMinitOfb c s
  | .minitCtr c => Sys2Proof.Machine.execMinitCtr c s
  | .minitRd c => Sys2Proof.Machine.execMinitRd c s
  | .menc => Sys2Proof.Machine.execMenc s
  | .mdec => Sys2Proof.Machine.execMdec s
  | .padaddPkcs7 bs => Sys2Proof.Machine.execPadaddPkcs7 bs s
  | .padaddAnsi bs => Sys2Proof.Machine.execPadaddAnsi bs s
  | .padaddIso bs => Sys2Proof.Machine.execPadaddIso bs s
  | .padaddZeros bs => Sys2Proof.Machine.execPadaddZeros bs s
  | .padremPkcs7 bs => Sys2Proof.Machine.execPadremPkcs7 bs s
  | .padremAnsi bs => Sys2Proof.Machine.execPadremAnsi bs s
  | .padremIso bs => Sys2Proof.Machine.execPadremIso bs s
  | .padremZeros bs => Sys2Proof.Machine.execPadremZeros bs s

end Sys2Proof.Machine
end

