-- ==== Sys2Proof/Machine/Port.lean ====
section
/-!
DEFINITION. The register window (20_memory.md): the address map, and what a host read and a host write of a
location other than CMD do.
-/

namespace Sys2Proof.Machine

/-- The registers of the map (R61). -/
inductive Reg where
  | id | cmd | status | errinfo | errcmd | res | klen | ivlen | dlen | olen | tlen | rjcfg | mcfg
deriving DecidableEq, Repr

/-- The buffers of the map (R61). -/
inductive Buf where
  | key | iv | tbl | sbox | isbox | din | dout
deriving DecidableEq, Repr

/-- What a mapped address is: a register or a byte of a buffer. -/
inductive Loc where
  | reg (r : Reg)
  | buf (b : Buf)
deriving DecidableEq, Repr

/-- ID (10_state.md R22). -/
def idWord : Word := 0x4E504301#32

/-- The registers in the order of their offsets, `0x0000`, `0x0004`, ... (R61). -/
def regMap : List Reg :=
  [.id, .cmd, .status, .errinfo, .errcmd, .res, .klen, .ivlen, .dlen, .olen, .tlen, .rjcfg, .mcfg]

/-- Every buffer. -/
def Buf.all : List Buf := [.key, .iv, .tbl, .sbox, .isbox, .din, .dout]

/-- The offset of a buffer (R61). -/
def Buf.base : Buf → Nat
  | .key => keyBase
  | .iv => ivBase
  | .tbl => tblBase
  | .sbox => sboxBase
  | .isbox => isboxBase
  | .din => dinBase
  | .dout => doutBase

/-- The size of a buffer in bytes (R61). -/
def Buf.size (p : Params) : Buf → Nat
  | .key => Config.keyBytes
  | .iv => Config.ivBytes
  | .tbl => 2 * Config.tblEntries
  | .sbox => 256
  | .isbox => 256
  | .din => p.bufBytes
  | .dout => p.bufBytes

/-- The host may write the buffer; writes to the others are ignored (R61). -/
def Buf.writable : Buf → Bool
  | .key => true
  | .iv => true
  | .tbl => true
  | .sbox => false
  | .isbox => false
  | .din => true
  | .dout => false

/-- The address `a` lies in the buffer. -/
def Buf.holds (p : Params) (b : Buf) (a : Nat) : Bool :=
  decide (b.base ≤ a) && decide (a < b.base + b.size p)

/-- What stands at a word-aligned address, `none` if it is unmapped (R61). -/
def locate (p : Params) (a : Nat) : Option Loc :=
  match regMap[a / 4]? with
  | some r => some (.reg r)
  | none => (Buf.all.find? fun b => b.holds p a).map .buf

/-- The location a transaction reaches: a mapped, aligned address with a 32-bit access; `none` is the bus error of
R68. -/
def busLoc (p : Params) (addr : BitVec 16) (bytes : Nat) : Option Loc :=
  if bytes = 4 ∧ addr.toNat % 4 = 0 then locate p addr.toNat else none

/-- The value of a register as a host read returns it (R62); undefined fields read 0. -/
def State.readReg (s : State) : Reg → Word
  | .id => idWord
  | .cmd => 0
  | .status => s.status
  | .errinfo => s.errInfo
  | .errcmd => s.errCmd
  | .res => s.res
  | .klen => lenWord s.klen
  | .ivlen => lenWord s.ivlen
  | .dlen => lenWord s.dlen
  | .olen => lenWord s.olen
  | .tlen => lenWord s.tlen
  | .rjcfg => s.rjcfg
  | .mcfg => s.mcfg

/-- The word of the four buffer bytes from address `a`, the lowest index most significant (R62, R64). -/
def State.readWord (s : State) (a : Nat) : Word :=
  s.mem.read a ++ s.mem.read (a + 1) ++ s.mem.read (a + 2) ++ s.mem.read (a + 3)

/-- What a host read of a location returns (R62). -/
def State.readLoc (s : State) (a : Nat) : Loc → Word
  | .reg r => s.readReg r
  | .buf _ => s.readWord a

/-- A host write of a register (R63): a RW register stores the low bits its rule names (10_state.md R29, R30, R31,
R33); the others ignore it. CMD is not written here. -/
def State.writeReg (s : State) (v : Word) : Reg → State
  | .id => s
  | .cmd => s
  | .status => s
  | .errinfo => s
  | .errcmd => s
  | .res => s
  | .klen => { s with klen := v.extractLsb' 0 6 }
  | .ivlen => { s with ivlen := v.extractLsb' 0 7 }
  | .dlen => { s with dlen := v.extractLsb' 0 16 }
  | .olen => s
  | .tlen => { s with tlen := v.extractLsb' 0 9 }
  | .rjcfg => s
  | .mcfg => s

/-- The bytes of a word, most significant first (R63, R64). -/
def bytesOfWord (v : Word) : Bytes :=
  [v.extractLsb' 24 8, v.extractLsb' 16 8, v.extractLsb' 8 8, v.extractLsb' 0 8]

/-- A host write of the buffer word at address `a` (R63). -/
def State.writeWord (s : State) (a : Nat) (v : Word) : State := { s with mem := s.mem.write a (bytesOfWord v) }

/-- A host write of a location other than CMD (R63). -/
def State.writeLoc (s : State) (a : Nat) (v : Word) : Loc → State
  | .reg r => s.writeReg v r
  | .buf b => if b.writable then s.writeWord a v else s

/-- The port's answer to a transaction, kept for the host (log 6). -/
def State.answer (s : State) (r : BusResp) : State := { s with resp := some r }

end Sys2Proof.Machine
end

