-- ==== Sys2Proof/Machine/Sequencer.lean ====
section
/-!
DEFINITION. The command sequencer (30_encoding.md R91) and the transactions of the host port (20_memory.md R62,
R63, R68, 70_reset_and_hazards.md R400).
-/

namespace Sys2Proof.Machine

/-- The opcodes that pass the gate while the latch holds an error, looked at in `W[31:24]` only
(60_exceptions.md R367, R368). -/
def passesGate (w : Word) : Bool := opField w == Op.clrerr.toByte || opField w == Op.sreset.toByte

/-- A word `w` written to CMD (R91): the gate, then decoding (R93), then the command. -/
def issue (w : Word) (s : State) : Result :=
  if s.err && !passesGate w then .next s
  else
    match decode w with
    | .ok i => exec i s
    | .error _ => raiseErr s w .illegalCmd 0

/-- One transaction of the host, or the reset input. A write to CMD completes normally on the bus whatever the
command does (60_exceptions.md R366); a refused transaction changes nothing (20_memory.md R68). -/
def serve (t : HostTxn) (s : State) : Result :=
  match t with
  | .reset => .next { s.resetCore with resp := none }
  | .read addr bytes =>
    match busLoc s.params addr bytes with
    | none => .next (s.answer .busError)
    | some l => .next (s.answer (.data (s.readLoc addr.toNat l)))
  | .write addr bytes v =>
    match busLoc s.params addr bytes with
    | none => .next (s.answer .busError)
    | some (.reg .cmd) => issue v (s.answer .written)
    | some l => .next ((s.writeLoc addr.toNat v l).answer .written)

/-- The window offset of CMD (20_memory.md R61). -/
def cmdOffset : BitVec 16 := 0x0004#16

/-- The host issues one more transaction, ahead of those that wait. -/
def State.issueNext (s : State) (t : HostTxn) : State := { s with host := t :: s.host }

end Sys2Proof.Machine
end

