-- ==== Sys2Proof/Machine/Step.lean ====
section
/-!
DEFINITION. One step: the oldest pending host transaction, performed whole (20_memory.md R69,
70_reset_and_hazards.md R412). CORE has no program counter and fetches nothing (10_state.md R24); its next
instruction is the next word the host writes to CMD.
-/

namespace Sys2Proof.Machine

/-- One step of CORE. With no transaction pending CORE is idle and keeps its state (60_exceptions.md R386; log 13). -/
def step (s : State) : Host.Outcome State Fault Refusal :=
  match s.host with
  | [] => .next s
  | t :: ts => serve t { s with host := ts }

/-- `s` with the command word of `w`'s low `nbits` bits as the host's next transaction: a 32-bit write to CMD
(30_encoding.md R91; log 1). -/
def State.withFetchWord (s : State) (nbits w : Nat) : State :=
  s.issueNext (.write cmdOffset 4 (BitVec.ofNat 32 (w % 2 ^ nbits)))

end Sys2Proof.Machine
end

