-- ==== Sys2Proof/Machine/OpcodeTable.lean ====
section
/-!
DEFINITION. The rows of spec/opcode_table.json as masks and patterns, for statements about the decoder. The
decoder does not use them: it is written from the formats of 30_encoding.md.
-/

namespace Sys2Proof

/-- What a row's "constraints" demand of a word beside its mask and pattern. -/
inductive RowConstraint where
  /-- Nothing. -/
  | free
  /-- The cipher field `W[7:4]` is 0, 1 or 2 (30_encoding.md R99). -/
  | cipherField
  /-- The block size `W[7:0]` is not 0 (30_encoding.md R101). -/
  | blockSizeField
deriving DecidableEq, Repr

/-- One row of the opcode table. -/
structure OpcodeRow where
  mask : Word
  pattern : Word
  constraint : RowConstraint
deriving DecidableEq, Repr

/-- The word meets the row's constraint. -/
def RowConstraint.met (w : Word) : RowConstraint → Bool
  | .free => true
  | .cipherField => decide ((w >>> 4 &&& 0xF#32).toNat ≤ 2)
  | .blockSizeField => (w &&& 0xFF#32) != 0

/-- The word is one of the row's words. -/
def OpcodeRow.accepts (r : OpcodeRow) (w : Word) : Bool := w &&& r.mask == r.pattern && r.constraint.met w

/-- The row of each command. -/
def Instr.row : Instr → OpcodeRow
  | .nop => ⟨0xFFFFFFFF#32, 0x00000000#32, .free⟩
  | .clrerr => ⟨0xFFFFFFFF#32, 0x01000000#32, .free⟩
  | .sreset => ⟨0xFFFFFFFF#32, 0x02000000#32, .free⟩
  | .otoi => ⟨0xFFFFFFFF#32, 0x03000000#32, .free⟩
  | .gfadd _ _ => ⟨0xFF0000FF#32, 0x10000000#32, .free⟩
  | .gfmul _ _ _ => ⟨0xFF000000#32, 0x11000000#32, .free⟩
  | .gfpow _ _ _ => ⟨0xFF000000#32, 0x12000000#32, .free⟩
  | .gfinv _ _ => ⟨0xFF00FF00#32, 0x13000000#32, .free⟩
  | .gfirr _ => ⟨0xFFFFFF00#32, 0x14000000#32, .free⟩
  | .pdiv _ _ => ⟨0xFF000000#32, 0x15000000#32, .free⟩
  | .prem _ _ => ⟨0xFF000000#32, 0x16000000#32, .free⟩
  | .perm _ _ => ⟨0xFF07FFFF#32, 0x20000000#32, .free⟩
  | .deskey => ⟨0xFFFFFFFF#32, 0x30000000#32, .free⟩
  | .desenc => ⟨0xFFFFFFFF#32, 0x31000000#32, .free⟩
  | .desdec => ⟨0xFFFFFFFF#32, 0x32000000#32, .free⟩
  | .dealkey => ⟨0xFFFFFFFF#32, 0x38000000#32, .free⟩
  | .dealenc => ⟨0xFFFFFFFF#32, 0x39000000#32, .free⟩
  | .dealdec => ⟨0xFFFFFFFF#32, 0x3A000000#32, .free⟩
  | .rjkey _ _ => ⟨0xFFFF0000#32, 0x40000000#32, .free⟩
  | .rjenc => ⟨0xFFFFFFFF#32, 0x41000000#32, .free⟩
  | .rjdec => ⟨0xFFFFFFFF#32, 0x42000000#32, .free⟩
  | .minitEcb _ => ⟨0xFFFFFF0F#32, 0x50000000#32, .cipherField⟩
  | .minitCbc _ => ⟨0xFFFFFF0F#32, 0x50000001#32, .cipherField⟩
  | .minitPcbc _ => ⟨0xFFFFFF0F#32, 0x50000002#32, .cipherField⟩
  | .minitCfb _ => ⟨0xFFFFFF0F#32, 0x50000003#32, .cipherField⟩
  | .minitOfb _ => ⟨0xFFFFFF0F#32, 0x50000004#32, .cipherField⟩
  | .minitCtr _ => ⟨0xFFFFFF0F#32, 0x50000005#32, .cipherField⟩
  | .minitRd _ => ⟨0xFFFFFF0F#32, 0x50000006#32, .cipherField⟩
  | .menc => ⟨0xFFFFFFFF#32, 0x51000000#32, .free⟩
  | .mdec => ⟨0xFFFFFFFF#32, 0x52000000#32, .free⟩
  | .padaddPkcs7 _ => ⟨0xFFFFFF00#32, 0x60000000#32, .blockSizeField⟩
  | .padaddAnsi _ => ⟨0xFFFFFF00#32, 0x60000100#32, .blockSizeField⟩
  | .padaddIso _ => ⟨0xFFFFFF00#32, 0x60000200#32, .blockSizeField⟩
  | .padaddZeros _ => ⟨0xFFFFFF00#32, 0x60000300#32, .blockSizeField⟩
  | .padremPkcs7 _ => ⟨0xFFFFFF00#32, 0x61000000#32, .blockSizeField⟩
  | .padremAnsi _ => ⟨0xFFFFFF00#32, 0x61000100#32, .blockSizeField⟩
  | .padremIso _ => ⟨0xFFFFFF00#32, 0x61000200#32, .blockSizeField⟩
  | .padremZeros _ => ⟨0xFFFFFF00#32, 0x61000300#32, .blockSizeField⟩

/-- Every row, in the table's order (operand values do not matter to `Instr.row`). -/
def opcodeRows : List OpcodeRow :=
  [Instr.nop, .clrerr, .sreset, .otoi, .gfadd 0 0, .gfmul 0 0 0, .gfpow 0 0 0, .gfinv 0 0, .gfirr 0, .pdiv 0 0,
   .prem 0 0, .perm .l0 0, .deskey, .desenc, .desdec, .dealkey, .dealenc, .dealdec, .rjkey 0 0, .rjenc, .rjdec,
   .minitEcb .des, .minitCbc .des, .minitPcbc .des, .minitCfb .des, .minitOfb .des, .minitCtr .des,
   .minitRd .des, .menc, .mdec, .padaddPkcs7 0, .padaddAnsi 0, .padaddIso 0, .padaddZeros 0, .padremPkcs7 0,
   .padremAnsi 0, .padremIso 0, .padremZeros 0].map Instr.row

end Sys2Proof
end

