-- ==== Sys2Proof/Safety.lean ====
section
/-!
DEFINITION. What counts as a safe run of CORE: every step answers a next state, and every state is coherent,
that is, it keeps the relations between its parts that the spec states. And the terms the statements use for
what a command stores, for permuted bits and for the entries of a state matrix.
-/

namespace Sys2Proof.Machine

/-- An RJCTX that RJKEY can build (44_rijndael.md R230, R231, R237, R243). -/
structure RjLegal (ctx : RjCtx) : Prop where
  nb : ctx.nb = 4 ∨ ctx.nb = 6 ∨ ctx.nb = 8
  nk : ctx.nk = 4 ∨ ctx.nk = 6 ∨ ctx.nk = 8
  nr : ctx.nr = max ctx.nk ctx.nb + 6
  modulus : ctx.md ≠ 0 ∧ gfIrr ctx.md = true
  offsets : ctx.off1 = 1 ∧ ctx.off2 = (if ctx.nk = 8 then 3 else 2) ∧ ctx.off3 = (if ctx.nk = 8 then 4 else 3)
  columns : ctx.w.length = ctx.nb * (ctx.nr + 1)

/-- The coherent states: what the spec says of every state CORE can be in. -/
structure State.Coherent (s : State) : Prop where
  /-- BUF_BYTES is in its range (00_scope.md R9). -/
  params : s.params.Valid
  /-- Memory keeps its canonical form. -/
  memWf : s.mem.wf
  /-- Memory lists bytes of the seven buffers only (20_memory.md R61, R72). -/
  memMapped : ∀ c ∈ s.mem, ∃ b : Buf, b.holds s.params c.1 = true
  /-- ERRCODE, ERRINFO and ERRCMD are 0 when ERR = 0 (10_state.md R25 to R27). -/
  latchClear : s.err = false → s.errCode = 0 ∧ s.errInfo = 0 ∧ s.errCmd = 0
  /-- When ERR = 1, ERRCODE is a cause code, and not the reserved TASK_FAIL (60_exceptions.md R361). -/
  latchSet : s.err = true → ∃ c : ErrCode, c ≠ .taskFail ∧ s.errCode = c.byte
  /-- `OLEN <= BUF_BYTES` always holds (47_system.md R353). -/
  olenFits : s.olen.toNat ≤ s.params.bufBytes
  /-- DESCTX holds sixteen round keys (10_state.md R40). -/
  desKeys : s.desctx.keys.length = 16
  /-- An invalid DESCTX is zeroed (10_state.md R48). -/
  desInvalid : s.desv = false → s.desctx = State.reset.desctx
  /-- A valid DEALCTX has 6 or 8 rounds and as many round keys (10_state.md R41). -/
  dealValid : s.dealv = true → (s.dealctx.n = 6 ∨ s.dealctx.n = 8) ∧ s.dealctx.rk.length = s.dealctx.n
  /-- An invalid DEALCTX is zeroed (10_state.md R48). -/
  dealInvalid : s.dealv = false → s.dealctx = State.reset.dealctx
  /-- A valid RJCTX has a legal configuration, and SBOX and ISBOX are the tables of its modulus
  (10_state.md R25, R39, R42). -/
  rjValid : s.rjv = true → RjLegal s.rjctx ∧
    ∀ v : Byte, s.sbox v = sboxEntry s.rjctx.md v ∧ s.isbox v = isboxEntry s.rjctx.md v
  /-- While RJV = 0 the context is zeroed and both tables are all zero (10_state.md R39, R48). -/
  rjInvalid : s.rjv = false → s.rjctx = State.reset.rjctx ∧ ∀ v : Byte, s.sbox v = 0 ∧ s.isbox v = 0
  /-- A valid mode's cipher is valid and still has the captured block size (45_modes.md R283), and its IV has a
  length MINIT accepts (R282). -/
  modeValid : s.modev = true → s.cipherValid s.modectx.cipher = true ∧
    s.modectx.bs = s.blockSize s.modectx.cipher ∧
    (s.modectx.mode = .ecb → s.modectx.civ = []) ∧
    (s.modectx.mode ≠ .ecb → s.modectx.civ ≠ [] ∧
      ivLenBad s.modectx.mode s.modectx.civ.length s.modectx.bs = false)

/-- The memory `m'` is `m` with the bytes `B` from address `a` up, and every other byte as before. -/
structure Stores (m m' : Memory) (a : Nat) (B : Bytes) : Prop where
  stored : ∀ k, k < B.length → m'.read (a + k) = B.getD k 0
  kept : ∀ x, x < a ∨ a + B.length ≤ x → m'.read x = m.read x

/-- `t` is `s` after a successful data command with the output `O` of `n` bytes: `DOUT[0..n)` and OLEN are
written, and nothing else changes (10_state.md R46). -/
structure Emits (s t : State) (n : Nat) (O : Bytes) : Prop where
  length : O.length = n
  others : t = { s with mem := t.mem, olen := BitVec.ofNat 16 n }
  dout : Stores s.mem t.mem doutBase O

/-- `r` is `perm(v, w, T)`: its bit `<i>` is bit `<T[i]-1>` of the `w`-bit `v`, bit `<0>` the most significant
(42_feistel_des.md R175). -/
def Permutes {w n : Nat} (T : List Nat) (v : BitVec w) (r : BitVec n) : Prop :=
  ∀ i, i < n → r.getMsbD i = v.getMsbD (T.getD i 0 - 1)

/-- The byte of a column in row `r` (44_rijndael.md R236); a column has the rows 0 to 3. -/
def Col.row (c : Col) : Nat → Byte
  | 0 => c.b0
  | 1 => c.b1
  | 2 => c.b2
  | _ => c.b3

/-- The entry `s[r][c]` of a state matrix, or of the expanded key (44_rijndael.md R236, R241). -/
def cell (s : List Col) (r c : Nat) : Byte := (s.getD c Col.zero).row r

/-- A step of a safe run: it answers a next state, and a coherent one. -/
def SafeStep (s : State) : Prop := ∃ t, step s = .next t ∧ t.Coherent

end Sys2Proof.Machine
end

