-- ==== Sys2Proof/Certificates/Slice0/Obligations.lean ====
section
/-!
DEFINITION. The statements about the model, family by family. `exec` answers what one command does; `step` what
one host transaction does. Where a statement gives a command's result it concludes that `exec` answers a next
state, from hypotheses on the state and the operands alone.
-/

open Sys2Proof Sys2Proof.Machine

/-! ### Command words (30_encoding.md) -/

/-- Every legal command decodes from its own word (R93 to R102). -/
def Obligations.DecodeOfEncode : Prop :=
  ∀ i : Instr, i.wellFormed = true → decode (encode i) = .ok i

/-- The decoder accepts exactly the words of the opcode table: a word it reads is the word of the command it
gives, that command is legal, and the word is one of its row's; and every word of a row decodes to a command of
that row (R93, R103). -/
def Obligations.DecodesExactlyTableWords : Prop :=
  (∀ (w : Word) (i : Instr), decode w = .ok i →
    encode i = w ∧ i.wellFormed = true ∧ i.row ∈ opcodeRows ∧ i.row.accepts w = true) ∧
  (∀ (w : Word) (r : OpcodeRow), r ∈ opcodeRows → r.accepts w = true → ∃ i, decode w = .ok i ∧ i.row = r)

/-- The example words of R105 decode to the commands they are printed for; a word with a bit its format marks zero
and a word with an opcode that is not in the map are refused (R93, R94, R102). -/
def Obligations.SpecWordsDecode : Prop :=
  decode 0x31000000#32 = .ok .desenc ∧
  decode 0x1157831B#32 = .ok (.gfmul 0x57 0x83 0x1B) ∧
  decode 0x16011B03#32 = .ok (.prem 0x011B 0x03) ∧
  decode 0x20400000#32 = .ok (.perm .l1 0) ∧
  decode 0x4000101B#32 = .ok (.rjkey 16 0x1B) ∧
  decode 0x50000021#32 = .ok (.minitCbc .rj) ∧
  decode 0x60000010#32 = .ok (.padaddPkcs7 16) ∧
  decode 0x00000001#32 = .error .mustBeZero ∧
  decode 0x04000000#32 = .error .unknownOpcode

/-! ### The sequencer and the host port (30_encoding.md R91, 20_memory.md, 60_exceptions.md) -/

/-- A step whose transaction writes a legal command word to CMD runs the command on the state in which the
transaction is taken off the host's list and answered (R91). The transaction list and the answer are the
model's (logs 1 and 6). -/
def Obligations.StepRunsDecodedCommand : Prop :=
  ∀ (s : State) (w : Word) (rest : List HostTxn) (i : Instr),
    s.host = .write cmdOffset 4 w :: rest → decode w = .ok i →
    step s = exec i { s with host := rest, resp := some .written }

/-- A word no command has latches ILLEGAL_CMD with ERRINFO 0 and ERRCMD the word, and does nothing else; with
the latch set only a malformed CLRERR or SRESET gets so far, and it overwrites the latch (R93, R103, R367). -/
def Obligations.IllegalWordLatched : Prop :=
  ∀ (s : State) (w : Word) (rest : List HostTxn),
    s.host = .write cmdOffset 4 w :: rest → (∀ i, decode w ≠ .ok i) →
    (s.err = false ∨ w.extractLsb' 24 8 = 0x01#8 ∨ w.extractLsb' 24 8 = 0x02#8) →
    step s = .next { s with host := rest, resp := some .written, err := true, errCode := 0x31#8,
                            errInfo := 0, errCmd := w }

/-- The gate: while the latch is set a command word with any other opcode than those of CLRERR and SRESET changes
nothing, legal or not, and neither does such a command by itself (R368). -/
def Obligations.GateIgnoresCommands : Prop :=
  (∀ (s : State) (w : Word) (rest : List HostTxn),
    s.host = .write cmdOffset 4 w :: rest → s.err = true →
    w.extractLsb' 24 8 ≠ 0x01#8 → w.extractLsb' 24 8 ≠ 0x02#8 →
    step s = .next { s with host := rest, resp := some .written }) ∧
  (∀ (s : State) (i : Instr), s.err = true → i ≠ .clrerr → i ≠ .sreset → exec i s = .next s)

/-- Every command ends and every transaction is performed, oldest first and one a step; with none pending CORE
keeps its state (R92; the list and the idle step are the model's, logs 1 and 13). -/
def Obligations.EveryStepEnds : Prop :=
  (∀ (i : Instr) (s : State), ∃ t, exec i s = .next t ∧ t.host = s.host) ∧
  (∀ s : State, s.host = [] → step s = .next s) ∧
  (∀ (s : State) (x : HostTxn) (rest : List HostTxn), s.host = x :: rest →
    ∃ t, step s = .next t ∧ t.host = rest ∧ (x ≠ .reset → t.resp ≠ none))

/-- The latch is cleared by CLRERR, which clears the latch only, by SRESET and by the reset input, which clear
everything, and by nothing else (R369). What becomes of the fields that are no state of CORE's is the model's: the
transactions left and the answer (logs 1, 6 and 11), BUF_BYTES (log 2) and the draws of RNG (log 5). -/
def Obligations.LatchClearedOnlyByAcknowledge : Prop :=
  (∀ (s : State) (rest : List HostTxn), s.host = .write cmdOffset 4 0x01000000#32 :: rest →
    step s = .next { s with host := rest, resp := some .written,
                            err := false, errCode := 0, errInfo := 0, errCmd := 0 }) ∧
  (∀ (s : State) (rest : List HostTxn), s.host = .write cmdOffset 4 0x02000000#32 :: rest →
    step s = .next { State.reset with params := s.params, draws := s.draws, host := rest, resp := some .written }) ∧
  (∀ (s : State) (rest : List HostTxn), s.host = .reset :: rest →
    step s = .next { State.reset with params := s.params, draws := s.draws, host := rest, resp := none }) ∧
  (∀ s t : State, step s = .next t → s.err = true → t.err = false →
    ∃ rest, s.host = .write cmdOffset 4 0x01000000#32 :: rest ∨
      s.host = .write cmdOffset 4 0x02000000#32 :: rest ∨ s.host = .reset :: rest)

/-- A transaction that is misaligned, not 32 bits wide or outside the address map of R61 is refused and changes
no state of CORE (R68). That the refusal is the answer `busError` is the model's form of it (log 6). -/
def Obligations.BadTransactionsRefused : Prop :=
  ∀ (s : State) (rest : List HostTxn) (addr : BitVec 16) (n : Nat) (v : Word) (x : HostTxn),
    (x = .read addr n ∨ x = .write addr n v) → s.host = x :: rest →
    (n ≠ 4 ∨ addr.toNat % 4 ≠ 0 ∨
      ¬ (addr.toNat < 0x0034 ∨ (0x0100 ≤ addr.toNat ∧ addr.toNat < 0x0120) ∨
         (0x0140 ≤ addr.toNat ∧ addr.toNat < 0x0180) ∨ (0x0200 ≤ addr.toNat ∧ addr.toNat < 0x0600) ∨
         (0x4000 ≤ addr.toNat ∧ addr.toNat < 0x4000 + s.params.bufBytes) ∨
         (0x8000 ≤ addr.toNat ∧ addr.toNat < 0x8000 + s.params.bufBytes))) →
    step s = .next { s with host := rest, resp := some .busError }

/-- What a read of each register returns, at the offsets of R61; a read changes nothing (R22, R23, R62). -/
def Obligations.RegisterReads : Prop :=
  ∀ (s : State) (rest : List HostTxn) (addr : BitVec 16) (v : Word),
    (addr, v) ∈
      [(0x0000#16, 0x4E504301#32), (0x0004#16, 0#32), (0x0008#16, s.status), (0x000C#16, s.errInfo),
       (0x0010#16, s.errCmd), (0x0014#16, s.res), (0x0018#16, s.klen.setWidth 32),
       (0x001C#16, s.ivlen.setWidth 32), (0x0020#16, s.dlen.setWidth 32), (0x0024#16, s.olen.setWidth 32),
       (0x0028#16, s.tlen.setWidth 32), (0x002C#16, s.rjcfg), (0x0030#16, s.mcfg)] →
    s.host = .read addr 4 :: rest →
    step s = .next { s with host := rest, resp := some (.data v) }

/-- The fields of STATUS, RJCFG and MCFG (R25, R34, R35). -/
def Obligations.ReadbackLayout : Prop :=
  (∀ s : State,
    s.status.getLsbD 0 = s.err ∧ s.status.getLsbD 1 = s.desv ∧ s.status.getLsbD 2 = s.dealv ∧
    s.status.getLsbD 3 = s.rjv ∧ s.status.getLsbD 4 = s.modev ∧ s.status.extractLsb' 5 3 = 0 ∧
    s.status.extractLsb' 8 8 = s.errCode ∧ s.status.extractLsb' 16 16 = 0) ∧
  (∀ s : State, s.rjv = false → s.rjcfg = 0) ∧
  (∀ s : State, s.rjv = true → RjLegal s.rjctx →
    s.rjcfg.extractLsb' 0 8 = s.rjctx.md ∧ (s.rjcfg.extractLsb' 8 4).toNat = s.rjctx.nb ∧
    (s.rjcfg.extractLsb' 12 4).toNat = s.rjctx.nk ∧ (s.rjcfg.extractLsb' 16 8).toNat = s.rjctx.nr ∧
    s.rjcfg.extractLsb' 24 8 = 0) ∧
  (∀ s : State, s.modev = false → s.mcfg = 0) ∧
  (∀ s : State, s.modev = true → s.modectx.bs < 256 → s.modectx.civ.length ≤ 64 →
    s.mcfg.extractLsb' 0 4 = s.modectx.mode.code ∧ s.mcfg.extractLsb' 4 4 = s.modectx.cipher.code ∧
    (s.mcfg.extractLsb' 8 8).toNat = s.modectx.bs ∧
    (s.mcfg.extractLsb' 16 7).toNat = s.modectx.civ.length ∧ s.mcfg.extractLsb' 23 9 = 0)

/-- A write to a RW length register stores its low bits only, and the next read returns them (R29 to R31,
R33, R63). -/
def Obligations.LengthRegisterWrites : Prop :=
  ∀ (s : State) (rest : List HostTxn) (v : Word) (addr : BitVec 16) (mask : Word) (t : State),
    (addr, mask, t) ∈
      [(0x0018#16, 0x3F#32, { s with klen := v.setWidth 6 }), (0x001C#16, 0x7F#32, { s with ivlen := v.setWidth 7 }),
       (0x0020#16, 0xFFFF#32, { s with dlen := v.setWidth 16 }),
       (0x0028#16, 0x1FF#32, { s with tlen := v.setWidth 9 })] →
    s.host = .write addr 4 v :: .read addr 4 :: rest →
    step s = .next { t with host := .read addr 4 :: rest, resp := some .written } ∧
    step { t with host := .read addr 4 :: rest, resp := some .written } =
      .next { t with host := rest, resp := some (.data (v &&& mask)) }

/-- Buffer accesses of the host: a read gives the four bytes, the lowest address most significant; a write to a
RW buffer stores them so and nothing else changes; a write to a RO buffer or register changes nothing
(R61 to R64). All of it whether the latch is set or not. -/
def Obligations.HostBufferAccess : Prop :=
  ∀ (s : State) (rest : List HostTxn) (addr : BitVec 16) (v : Word), addr.toNat % 4 = 0 → s.params.Valid →
    ((0x0100 ≤ addr.toNat ∧ addr.toNat < 0x0120) ∨ (0x0140 ≤ addr.toNat ∧ addr.toNat < 0x0180) ∨
      (0x0200 ≤ addr.toNat ∧ addr.toNat < 0x0600) ∨
      (0x4000 ≤ addr.toNat ∧ addr.toNat < 0x4000 + s.params.bufBytes) ∨
      (0x8000 ≤ addr.toNat ∧ addr.toNat < 0x8000 + s.params.bufBytes) →
      s.host = .read addr 4 :: rest →
      ∃ r : Word, step s = .next { s with host := rest, resp := some (.data r) } ∧
        r.extractLsb' 24 8 = s.mem.read addr.toNat ∧ r.extractLsb' 16 8 = s.mem.read (addr.toNat + 1) ∧
        r.extractLsb' 8 8 = s.mem.read (addr.toNat + 2) ∧ r.extractLsb' 0 8 = s.mem.read (addr.toNat + 3)) ∧
    ((0x0100 ≤ addr.toNat ∧ addr.toNat < 0x0120) ∨ (0x0140 ≤ addr.toNat ∧ addr.toNat < 0x0180) ∨
      (0x0200 ≤ addr.toNat ∧ addr.toNat < 0x0400) ∨
      (0x4000 ≤ addr.toNat ∧ addr.toNat < 0x4000 + s.params.bufBytes) →
      s.host = .write addr 4 v :: rest →
      ∃ m : Memory, step s = .next { s with mem := m, host := rest, resp := some .written } ∧
        Stores s.mem m addr.toNat
          [v.extractLsb' 24 8, v.extractLsb' 16 8, v.extractLsb' 8 8, v.extractLsb' 0 8]) ∧
    (addr.toNat = 0x0000 ∨ (0x0008 ≤ addr.toNat ∧ addr.toNat < 0x0018) ∨ addr.toNat = 0x0024 ∨
      (0x002C ≤ addr.toNat ∧ addr.toNat < 0x0034) ∨ (0x0400 ≤ addr.toNat ∧ addr.toNat < 0x0600) ∨
      (0x8000 ≤ addr.toNat ∧ addr.toNat < 0x8000 + s.params.bufBytes) →
      s.host = .write addr 4 v :: rest →
      step s = .next { s with host := rest, resp := some .written })

/-! ### Reset and invariants (10_state.md R48, 70_reset_and_hazards.md) -/

/-- SRESET and the reset input, from any state, leave the same state but for the port's answer, and it has the
reset values of R48; so has `State.reset` (R352, R400, R401). The model's own: how a zeroed context is written
(log 14), the answer (log 6), that the host's pending transactions stay after the reset input (log 11), and that
BUF_BYTES is a field that stays (log 2). -/
def Obligations.ResetValues : Prop :=
  let zeroed := fun t : State =>
    t.status = 0 ∧ t.err = false ∧ t.desv = false ∧ t.dealv = false ∧ t.rjv = false ∧ t.modev = false ∧
    t.errInfo = 0 ∧ t.errCmd = 0 ∧ t.res = 0 ∧ t.klen = 0 ∧ t.ivlen = 0 ∧ t.dlen = 0 ∧ t.olen = 0 ∧ t.tlen = 0 ∧
    t.rjcfg = 0 ∧ t.mcfg = 0 ∧ (∀ a, t.mem.read a = 0) ∧
    t.desctx.keys = List.replicate 16 0 ∧ t.dealctx = { n := 0, rk := [] } ∧
    t.rjctx = { nb := 0, nk := 0, nr := 0, md := 0, off1 := 0, off2 := 0, off3 := 0, w := [] } ∧
    t.modectx.civ = [] ∧ t.modectx.bs = 0
  zeroed State.reset ∧
  ∀ (s : State) (rest : List HostTxn), ∃ t,
    step { s with host := .reset :: rest } = .next t ∧
    step { s with host := .write cmdOffset 4 0x02000000#32 :: rest } = .next { t with resp := some .written } ∧
    zeroed t ∧ t.host = rest ∧ t.params = s.params

/-- The state after reset is coherent. That BUF_BYTES is in its range (00_scope.md R9) rests on the default
`State.reset` holds (log 2), and the shape of the zeroed contexts is the model's (log 14). -/
def Obligations.ResetCoherent : Prop := State.Coherent State.reset

/-- Every step keeps coherence: the memory's canonical form and its mapped addresses, a clear latch reading 0 and
a set one holding a cause code, OLEN within the buffer, the shape of each valid context and zeroes in each
invalid one, SBOX and ISBOX belonging to the modulus, and a valid mode bound to a valid cipher of its block
size. -/
def Obligations.StepKeepsCoherent : Prop :=
  ∀ s t : State, s.Coherent → step s = .next t → t.Coherent

/-! ### Rules over all commands -/

/-- Errors are precise: a command that raises has changed nothing but the latch, which holds its word
(60_exceptions.md R365, R366). -/
def Obligations.ErrorsArePrecise : Prop :=
  ∀ (i : Instr) (s t : State), s.err = false → exec i s = .next t → t.err = true →
    t = { s with err := true, errCode := t.errCode, errInfo := t.errInfo, errCmd := encode i } ∧
    ∃ c : ErrCode, c ≠ .taskFail ∧ t.errCode = c.byte

/-- Which cause codes each legal command can raise (60_exceptions.md R361, R363). -/
def Obligations.ErrorsOfEachCommand : Prop :=
  ∀ (i : Instr) (s t : State), i.wellFormed = true → s.err = false → exec i s = .next t → t.err = true →
    t.errCode ∈
      match i.op with
      | .nop | .clrerr | .sreset | .otoi | .gfadd => ([] : List Byte)
      | .gfmul | .gfpow | .gfinv | .gfirr => [0x21#8]
      | .pdiv | .prem => [0x22#8]
      | .perm => [0x27#8, 0x23#8]
      | .deskey | .dealkey => [0x11#8]
      | .rjkey => [0x12#8, 0x11#8, 0x21#8, 0x13#8]
      | .desenc | .desdec | .dealenc | .dealdec | .rjenc | .rjdec => [0x32#8, 0x25#8]
      | .minit => [0x32#8, 0x14#8, 0x15#8]
      | .menc | .mdec => [0x32#8, 0x27#8, 0x24#8]
      | .padadd => [0x27#8]
      | .padrem => (match i with | .padremZeros _ => [0x27#8] | _ => [0x27#8, 0x26#8])

/-- What each command may write (47_system.md R354): everything else is unchanged. The premises on OLEN and
BUF_BYTES hold in every coherent state. -/
def Obligations.CommandFootprints : Prop :=
  ∀ (i : Instr) (s t : State), s.params.Valid → s.olen.toNat ≤ s.params.bufBytes → i ≠ .sreset →
    exec i s = .next t →
    -- no command but SRESET writes KEY, IV, TBL or their lengths, and none the port or BUF_BYTES
    t.klen = s.klen ∧ t.ivlen = s.ivlen ∧ t.tlen = s.tlen ∧ t.params = s.params ∧ t.host = s.host ∧
    t.resp = s.resp ∧ (∀ a, a < 0x0400 → t.mem.read a = s.mem.read a) ∧
    -- RES
    (i.op ∉ [Op.gfadd, .gfmul, .gfpow, .gfinv, .gfirr, .pdiv, .prem] → t.res = s.res) ∧
    -- DIN and DLEN
    (i ≠ .otoi → t.dlen = s.dlen ∧ ∀ a, 0x4000 ≤ a → a < 0x8000 → t.mem.read a = s.mem.read a) ∧
    -- DOUT and OLEN
    (i.op ∉ [Op.perm, .desenc, .desdec, .dealenc, .dealdec, .rjenc, .rjdec, .menc, .mdec, .padadd, .padrem] →
      t.olen = s.olen ∧ ∀ a, 0x8000 ≤ a → t.mem.read a = s.mem.read a) ∧
    -- the contexts, their valid flags, and the tables
    (i ≠ .deskey → t.desctx = s.desctx ∧ t.desv = s.desv) ∧
    (i ≠ .dealkey → t.dealctx = s.dealctx ∧ t.dealv = s.dealv) ∧
    (i.op ≠ .rjkey → t.rjctx = s.rjctx ∧ t.rjv = s.rjv ∧
      ∀ a, 0x0400 ≤ a → a < 0x0600 → t.mem.read a = s.mem.read a) ∧
    (i.op ≠ .minit → t.modectx = s.modectx) ∧
    (i.op ∉ [Op.minit, .deskey, .dealkey, .rjkey] → t.modev = s.modev) ∧
    -- RNG is drawn from by PADADD ISO only
    ((∀ bs, i ≠ .padaddIso bs) → t.draws = s.draws) ∧
    -- the latch
    (t.err = false → i ≠ .clrerr →
      t.errCode = s.errCode ∧ t.errInfo = s.errInfo ∧ t.errCmd = s.errCmd)

/-- A successful construction command ends a valid mode bound to its cipher, so that the next MENC or MDEC raises
NOT_READY, and leaves a mode bound to another cipher valid (10_state.md R44, 70_reset_and_hazards.md R411). -/
def Obligations.RekeyInvalidatesMode : Prop :=
  ∀ (s t : State) (i : Instr) (c : Cipher), s.err = false → s.modev = true →
    (i = .deskey ∧ c = .des ∨ i = .dealkey ∧ c = .deal ∨ (∃ bsz md, i = .rjkey bsz md) ∧ c = .rj) →
    exec i s = .next t → t.err = false →
    t.modectx = s.modectx ∧
    (s.modectx.cipher = c →
      exec .menc t = .next { t with err := true, errCode := 0x32#8, errInfo := 0, errCmd := 0x51000000#32 } ∧
      exec .mdec t = .next { t with err := true, errCode := 0x32#8, errInfo := 0, errCmd := 0x52000000#32 }) ∧
    (s.modectx.cipher ≠ c → t.modev = true)

/-! ### System commands (47_system.md) -/

/-- NOP, CLRERR, SRESET and OTOI: what each gives (R350 to R353). The fields SRESET keeps are the model's own: BUF_BYTES,
the draws of RNG, the host's transactions and the answer (logs 2, 5, 1 and 6). -/
def Obligations.SystemCommandResults : Prop :=
  (∀ s : State, exec .nop s = .next s) ∧
  (∀ s : State, exec .clrerr s = .next { s with err := false, errCode := 0, errInfo := 0, errCmd := 0 }) ∧
  (∀ s : State, exec .sreset s =
    .next { State.reset with params := s.params, draws := s.draws, host := s.host, resp := s.resp }) ∧
  (∀ s : State, s.err = false → ∃ t, exec .otoi s = .next t ∧
    t = { s with mem := t.mem, dlen := s.olen } ∧
    Stores s.mem t.mem dinBase ((List.range s.olen.toNat).map fun k => s.mem.read (doutBase + k)))

/-! ### GF(2^8) unit (00_scope.md R14, 40_gf.md) -/

/-- Polynomials over GF(2): the degree, the carry-less product, and division with remainder, which is unique
(R14). -/
def Obligations.PolynomialArithmetic : Prop :=
  (pdeg 0 = -1 ∧ ∀ p, p ≠ 0 → p.testBit (pdeg p).toNat = true ∧ ∀ k : Nat, pdeg p < (k : Int) → p.testBit k = false) ∧
  (∀ p q k : Nat, (pmul p q).testBit k =
    (List.range (k + 1)).foldl (fun acc i => xor acc (p.testBit i && q.testBit (k - i))) false) ∧
  (∀ p q : Nat, q ≠ 0 →
    p = pmul (pdiv p q) q ^^^ prem p q ∧ pdeg (prem p q) < pdeg q ∧
    ∀ a b : Nat, p = pmul a q ^^^ b → pdeg b < pdeg q → a = pdiv p q ∧ b = prem p q)

/-- `gf_mul` loses no bit: the product has at most 15 bits and its remainder is the byte (R128). -/
def Obligations.GfMulIsRemainder : Prop :=
  ∀ x y m : Byte, m ≠ 0 →
    pmul x.toNat y.toNat < 2 ^ 15 ∧ prem (pmul x.toNat y.toNat) (0x100 ||| m.toNat) < 2 ^ 8 ∧
    (gfMul x y m).toNat = prem (pmul x.toNat y.toNat) (0x100 ||| m.toNat)

/-- The laws of `gf_mul` under every modulus byte (R132), and `gf_pow` as the `e`-fold product (R129). -/
def Obligations.GfLaws : Prop :=
  ∀ x y z m : Byte, m ≠ 0 →
    gfMul x y m = gfMul y x m ∧ gfMul x (gfMul y z m) m = gfMul (gfMul x y m) z m ∧
    gfMul x (y ^^^ z) m = gfMul x y m ^^^ gfMul x z m ∧ gfMul x 1 m = x ∧ gfMul x 0 m = 0 ∧
    gfPow x 0 m = 1 ∧ ∀ e : Nat, gfPow x (e + 1) m = gfMul (gfPow x e m) x m

/-- `gf_inv` (R130): 0 for 0, the power 254 otherwise, and the inverse when the modulus is irreducible. -/
def Obligations.GfInvIsInverse : Prop :=
  ∀ x m : Byte, m ≠ 0 →
    gfInv 0 m = 0 ∧ (x ≠ 0 → gfInv x m = gfPow x 254 m) ∧
    (gfIrr m = true → x ≠ 0 → gfPow x 255 m = 1 ∧ gfMul x (gfInv x m) m = 1)

/-- `gf_irr` (R131): no trial divisor 2 to 31 divides, and that is irreducibility over GF(2). -/
def Obligations.GfIrrIsIrreducible : Prop :=
  ∀ m : Byte, m ≠ 0 →
    (gfIrr m = true ↔ ∀ d, 2 ≤ d → d ≤ 31 → prem (0x100 ||| m.toNat) d ≠ 0) ∧
    (gfIrr m = true ↔ ∀ p q : Nat, pmul p q = 0x100 ||| m.toNat → p = 1 ∨ q = 1)

/-- The seven GF commands with the latch clear and a modulus or divisor that is not 0: RES takes the result,
zero-extended, and nothing else changes (R120 to R127). -/
def Obligations.GfCommandResults : Prop :=
  ∀ s : State, s.err = false →
    (∀ a b : Byte, exec (.gfadd a b) s = .next { s with res := (a ^^^ b).setWidth 32 }) ∧
    (∀ a b m : Byte, m ≠ 0 →
      exec (.gfmul a b m) s = .next { s with res := (gfMul a b m).setWidth 32 } ∧
      exec (.gfpow a b m) s = .next { s with res := (gfPow a b.toNat m).setWidth 32 } ∧
      exec (.gfinv a m) s = .next { s with res := (gfInv a m).setWidth 32 } ∧
      exec (.gfirr m) s = .next { s with res := if gfIrr m then 1 else 0 }) ∧
    (∀ (x : BitVec 16) (y : Byte), y ≠ 0 →
      pdiv x.toNat y.toNat < 2 ^ 16 ∧ prem x.toNat y.toNat < 2 ^ 7 ∧
      exec (.pdiv x y) s = .next { s with res := BitVec.ofNat 32 (pdiv x.toNat y.toNat) } ∧
      exec (.prem x y) s = .next { s with res := BitVec.ofNat 32 (prem x.toNat y.toNat) })

/-- The GF commands with a zero modulus or divisor: ARITH_ZERO_MOD or ARITH_DIV_ZERO, whatever the other operands
(R122 to R127). -/
def Obligations.GfCommandErrors : Prop :=
  ∀ s : State, s.err = false →
    (∀ i : Instr, (∃ a b, i = .gfmul a b 0) ∨ (∃ a b, i = .gfpow a b 0) ∨ (∃ a, i = .gfinv a 0) ∨ i = .gfirr 0 →
      exec i s = .next { s with err := true, errCode := 0x21#8, errInfo := 0, errCmd := encode i }) ∧
    (∀ i : Instr, (∃ x, i = .pdiv x 0) ∨ (∃ x, i = .prem x 0) →
      exec i s = .next { s with err := true, errCode := 0x22#8, errInfo := 0, errCmd := encode i })

/-! ### Permutation network (41_perm.md) -/

/-- PERM with lengths in range and every adjusted entry a usable bit: `ceil(TLEN/8)` bytes, whose last TLEN bits
are the named source bits, first entry first, after leading zero bits (R151 to R156). -/
def Obligations.PermResult : Prop :=
  ∀ (s : State) (rule : PermRule) (lz : BitVec 3), s.err = false →
    s.dlen.toNat ≤ s.params.bufBytes → s.tlen.toNat ≤ 256 →
    let left : Bool := rule == .l0 || rule == .l1
    let one : Int := if rule == .l1 || rule == .r1 then 1 else 0
    let I := s.mem.readRange dinBase s.dlen.toNat
    let usable : Int := if left then (if I.length = 0 then 0 else 8 * I.length - lz.toNat) else 8 * I.length
    let a := fun i => s.tblEntry i - one
    (∀ i, i < s.tlen.toNat → 0 ≤ a i ∧ a i < usable) →
    ∃ (t : State) (O : Bytes), exec (.perm rule lz) s = .next t ∧ Emits s t ((s.tlen.toNat + 7) / 8) O ∧
      (∀ j, j < 8 * O.length - s.tlen.toNat → (bitsOf O).getD j true = false) ∧
      ∀ i, i < s.tlen.toNat → (bitsOf O).getD (8 * O.length - s.tlen.toNat + i) false =
        (bitsOf I).getD (if left then lz.toNat + (a i).toNat else 8 * I.length - 1 - (a i).toNat) false

/-- The errors of PERM in their order; PERM_RANGE names the smallest position out of range (R151, R155). -/
def Obligations.PermErrors : Prop :=
  ∀ (s : State) (rule : PermRule) (lz : BitVec 3), s.err = false →
    (s.params.bufBytes < s.dlen.toNat →
      exec (.perm rule lz) s =
        .next (s.latchError (encode (.perm rule lz)) .lenLimit (s.dlen.setWidth 32))) ∧
    (s.dlen.toNat ≤ s.params.bufBytes → 256 < s.tlen.toNat →
      exec (.perm rule lz) s =
        .next (s.latchError (encode (.perm rule lz)) .lenLimit (s.tlen.setWidth 32))) ∧
    (s.dlen.toNat ≤ s.params.bufBytes → s.tlen.toNat ≤ 256 →
      let one : Int := if rule == .l1 || rule == .r1 then 1 else 0
      let usable : Int :=
        if rule == .l0 || rule == .l1 then (if s.dlen.toNat = 0 then 0 else 8 * s.dlen.toNat - lz.toNat)
        else 8 * s.dlen.toNat
      let good := fun i => 0 ≤ s.tblEntry i - one ∧ s.tblEntry i - one < usable
      ∀ i, i < s.tlen.toNat → ¬ good i → (∀ j, j < i → good j) →
        exec (.perm rule lz) s =
          .next (s.latchError (encode (.perm rule lz)) .permRange (BitVec.ofNat 32 i)))

/-- The identity table gives the input under the left rules and reverses all bits under the right ones (R157). -/
def Obligations.PermIdentity : Prop :=
  ∀ I : Bytes,
    let fromOne : List Int := (List.range (8 * I.length)).map fun i => (i : Int) + 1
    let fromZero : List Int := (List.range (8 * I.length)).map fun i => (i : Int)
    rearrange I 0 fromOne .l1 = .ok I ∧ rearrange I 0 fromZero .l0 = .ok I ∧
    (∃ O, rearrange I 0 fromOne .r1 = .ok O ∧ bitsOf O = (bitsOf I).reverse) ∧
    (∃ O, rearrange I 0 fromZero .r0 = .ok O ∧ bitsOf O = (bitsOf I).reverse)

/-- The tables of the 64-bit cipher are applied as `rearrange` under L1 applies them: `perm(v, w, T)` on the
integer of a byte sequence is `rearrange` on the bytes (42_feistel_des.md R175). -/
def Obligations.PermIntIsRearrange : Prop :=
  ∀ (B : Bytes) (T : List Nat), (∀ e ∈ T, 1 ≤ e ∧ e ≤ 8 * B.length) →
    rearrange B 0 (T.map fun e => (e : Int)) .l1 =
      .ok (toBe ((T.length + 7) / 8)
        (permInt (8 * B.length) T.length T (BitVec.ofNat (8 * B.length) (beNat B))).toNat)

/-- Byte sequences and integers, first byte most significant (00_scope.md R12, 20_memory.md R65). -/
def Obligations.ByteOrder : Prop :=
  (∀ n v : Nat, (toBe n v).length = n ∧ beNat (toBe n v) = v % 256 ^ n) ∧
  (∀ B : Bytes, beNat B < 256 ^ B.length ∧ toBe B.length (beNat B) = B ∧
    ∀ b : Byte, beNat (b :: B) = b.toNat * 256 ^ B.length + beNat B)

/-! ### 64-bit and 128-bit ciphers (42_feistel_des.md, 43_deal.md) -/

/-- The Feistel engine undoes itself with the key order mirrored, whatever the round function (R172). -/
def Obligations.FeistelInverse : Prop :=
  ∀ (h : Nat) (κ : Type) (F : BitVec h → κ → BitVec h) (N : Nat) (K : Nat → κ) (B : BitVec h × BitVec h),
    1 ≤ N → feistel F N K .decrypt (feistel F N K .encrypt B) = B

/-- The Feistel engine and the two ciphers on it by their formulas. The halves after each loop step and the final
step that does not swap (R171). The key schedule, the round function and the block function of the 64-bit cipher
(R185 to R187), with its tables (log 4) by name. The block function of the 128-bit cipher, whose round key is the key
of the inner 64-bit cipher, always encrypting (43_deal.md R215, R216). The document's known answer (R193), the five
vectors of 95_test_vectors.md section 2, which the spec takes from general knowledge, and the two round keys that
43_deal.md R211 prints of the key derivation's fixed key (log 3). -/
def Obligations.FeistelCipherFormulas : Prop :=
  (∀ (h : Nat) (κ : Type) (F : BitVec h → κ → BitVec h) (N : Nat) (K : Nat → κ) (dir : Dir)
      (B : BitVec h × BitVec h), 1 ≤ N →
    let k := fun i => match dir with | .encrypt => K i | .decrypt => K (N - 1 - i)
    ∃ L R : Nat → BitVec h, L 0 = B.1 ∧ R 0 = B.2 ∧
      (∀ i, i < N - 1 → L (i + 1) = R i ∧ R (i + 1) = L i ^^^ F (R i) (k i)) ∧
      feistel F N K dir B = (F (R (N - 1)) (k (N - 1)) ^^^ L (N - 1), R (N - 1))) ∧
  (∀ key : BitVec 64, (desKs key).length = 16 ∧
    ∃ C D : Nat → BitVec 28, Permutes desPC1C key (C 0) ∧ Permutes desPC1D key (D 0) ∧
      ∀ r, 1 ≤ r → r ≤ 16 →
        let n := if r = 1 ∨ r = 2 ∨ r = 9 ∨ r = 16 then 1 else 2
        C r = (C (r - 1) <<< n ||| C (r - 1) >>> (28 - n)) ∧ D r = (D (r - 1) <<< n ||| D (r - 1) >>> (28 - n)) ∧
        Permutes desPC2 (C r ++ D r) ((desKs key).getD (r - 1) 0)) ∧
  (∀ (R : BitVec 32) (k : BitVec 48), ∃ (x : BitVec 48) (y : BitVec 32),
    Permutes desE R (x ^^^ k) ∧ Permutes desP y (desF R k) ∧
    ∀ j, j < 8 →
      let g := x.extractLsb' (6 * j) 6
      let row := (g.getLsbD 0).toNat + 2 * (g.getLsbD 5).toNat
      let col := (g.extractLsb' 1 4).toNat
      (y.extractLsb' (4 * j) 4).toNat = ((desS.getD (7 - j) []).getD row []).getD col 0) ∧
  (∀ (K : List (BitVec 48)) (dir : Dir) (B : BitVec 64), ∃ v : BitVec 32 × BitVec 32,
    let pre := feistel desF 16 (fun i => K.getD i 0) dir v
    Permutes desIP B (v.1 ++ v.2) ∧ Permutes desFP (pre.1 ++ pre.2) (desBlock K dir B)) ∧
  (∀ (K : List (BitVec 48)) (dir : Dir) (B : Bytes),
    desBytes K dir B = toBe 8 (desBlock K dir (BitVec.ofNat 64 (beNat B))).toNat) ∧
  (∀ (ctx : DealCtx) (dir : Dir) (B : Bytes),
    let C := feistel (fun half rk => desBlock (desKs rk) .encrypt half) ctx.n (fun i => ctx.rk.getD i 0) dir
      (BitVec.ofNat 64 (beNat (B.take 8)), BitVec.ofNat 64 (beNat (B.drop 8)))
    dealBytes ctx dir B = toBe 8 C.1.toNat ++ toBe 8 C.2.toNat) ∧
  (∀ v ∈ ([(0x133457799BBCDFF1, 0x0123456789ABCDEF, 0x85E813540F0AB405),
           (0x0101010101010101, 0x8000000000000000, 0x95F8A5E5DD31D900),
           (0x8001010101010101, 0x0000000000000000, 0x95A8D72813DAA94D),
           (0x0000000000000000, 0x0000000000000000, 0x8CA64DE9C1B123A7),
           (0xFFFFFFFFFFFFFFFF, 0xFFFFFFFFFFFFFFFF, 0x7359B2163E4EDC58),
           (0x0123456789ABCDEF, 0x4E6F772069732074, 0x3FA40E8A984D4815)] :
          List (BitVec 64 × BitVec 64 × BitVec 64)),
    desBlock (desKs v.1) .encrypt v.2.1 = v.2.2) ∧
  (desKs dealKdfKey).getD 0 0 = 0x0B02679B49A5#48 ∧ (desKs dealKdfKey).getD 15 0 = 0xCA3D03B87032#48

/-- Decryption undoes encryption, for every context, on the blocks of the 64-bit and the 128-bit cipher
(R187, 43_deal.md R216). `FeistelCipherFormulas` says what the two functions are. -/
def Obligations.DesDealRoundTrip : Prop :=
  (∀ (K : List (BitVec 48)) (B : Bytes), B.length = 8 →
    desBytes K .decrypt (desBytes K .encrypt B) = B) ∧
  (∀ (ctx : DealCtx) (B : Bytes), B.length = 16 →
    dealBytes ctx .decrypt (dealBytes ctx .encrypt B) = B)

/-- The least significant bit of every key byte has no influence on any round key (R181). -/
def Obligations.LowKeyBitsIgnored : Prop :=
  ∀ k k' : BitVec 64, k &&& 0xFEFEFEFEFEFEFEFE#64 = k' &&& 0xFEFEFEFEFEFEFEFE#64 → desKs k = desKs k'

/-- The round keys of the 128-bit cipher by index (43_deal.md R210, R213, R214): `s` segments, `N` rounds, the
constants in the rounds from `s` on unless `s = 4`. The counter of R214 is the round less `s` (log 19). -/
def Obligations.DealKeySchedule : Prop :=
  ∀ (kdf : List (BitVec 48)) (key : Bytes), key.length = 16 ∨ key.length = 24 ∨ key.length = 32 →
    let s := key.length / 8
    let RK := dealKs kdf key
    RK.length = (if s = 4 then 8 else 6) ∧
    ∀ i, i < RK.length → RK.getD i 0 = desBlock kdf .encrypt
      (be64 ((key.drop (8 * (i % s))).take 8) ^^^ (if i = 0 then 0 else RK.getD (i - 1) 0) ^^^
        (if s ≤ i ∧ s ≠ 4 then
          BitVec.ofNat 64 (1 <<< (if i - s = 0 then 62 else if i - s = 1 then 61 else if i - s = 2 then 59 else 55))
         else 0))

/-- DESKEY and DEALKEY with a permitted key length: the context, its valid flag, MODEV (R190, 43_deal.md R218). -/
def Obligations.DesDealKeyResults : Prop :=
  ∀ s : State, s.err = false →
    (s.klen.toNat = 8 →
      exec .deskey s = .next { s with
        desctx := { keys := desKs (be64 (s.mem.readRange keyBase 8)) }, desv := true,
        modev := s.modev && decide (s.modectx.cipher ≠ .des) }) ∧
    (s.klen.toNat = 16 ∨ s.klen.toNat = 24 ∨ s.klen.toNat = 32 →
      exec .dealkey s = .next { s with
        dealctx := { n := if s.klen.toNat = 32 then 8 else 6,
                     rk := dealKs (desKs dealKdfKey) (s.mem.readRange keyBase s.klen.toNat) },
        dealv := true, modev := s.modev && decide (s.modectx.cipher ≠ .deal) })

/-- The raw cipher commands with a context and DLEN equal to the block size: one block from DIN to DOUT
(R191, R192, R219, R220, 44_rijndael.md R251, R252). `RjLegal` holds of every valid RJCTX of a coherent state. -/
def Obligations.RawCipherResults : Prop :=
  ∀ s : State, s.err = false →
    let B := s.mem.readRange dinBase s.dlen.toNat
    (s.desv = true → s.dlen.toNat = 8 →
      (∃ t, exec .desenc s = .next t ∧ Emits s t 8 (desBytes s.desctx.keys .encrypt B)) ∧
      (∃ t, exec .desdec s = .next t ∧ Emits s t 8 (desBytes s.desctx.keys .decrypt B))) ∧
    (s.dealv = true → s.dlen.toNat = 16 →
      (∃ t, exec .dealenc s = .next t ∧ Emits s t 16 (dealBytes s.dealctx .encrypt B)) ∧
      (∃ t, exec .dealdec s = .next t ∧ Emits s t 16 (dealBytes s.dealctx .decrypt B))) ∧
    (s.rjv = true → RjLegal s.rjctx → s.dlen.toNat = 4 * s.rjctx.nb →
      (∃ t, exec .rjenc s = .next t ∧
        Emits s t s.dlen.toNat (rjEncrypt s.rjctx (fun v => s.mem.read (sboxBase + v.toNat)) B)) ∧
      (∃ t, exec .rjdec s = .next t ∧
        Emits s t s.dlen.toNat (rjDecrypt s.rjctx (fun v => s.mem.read (isboxBase + v.toNat)) B)))

/-- The raw cipher commands without a context, and with another DLEN than the block size: NOT_READY, then
LEN_BLOCK (R191, R192, R219, R220, 44_rijndael.md R251, R252). -/
def Obligations.RawCipherErrors : Prop :=
  ∀ (s : State) (i : Instr) (valid : Bool) (bs : Nat), s.err = false →
    (i, valid, bs) ∈
      [(Instr.desenc, s.desv, 8), (.desdec, s.desv, 8), (.dealenc, s.dealv, 16), (.dealdec, s.dealv, 16),
       (.rjenc, s.rjv, 4 * s.rjctx.nb), (.rjdec, s.rjv, 4 * s.rjctx.nb)] →
    (valid = false → exec i s = .next (s.latchError (encode i) .notReady 0)) ∧
    (valid = true → s.dlen.toNat ≠ bs → exec i s = .next (s.latchError (encode i) .lenBlock (s.dlen.setWidth 32)))

/-- The machine's round trip of one block: the encrypting command, OTOI and the decrypting command of any of the
three ciphers bring the block of DIN back in DOUT (R187, 43_deal.md R216, 44_rijndael.md R246). -/
def Obligations.RawCipherRoundTrip : Prop :=
  ∀ (s : State) (enc dec : Instr), s.Coherent → s.err = false →
    (enc = .desenc ∧ dec = .desdec ∧ s.desv = true ∧ s.dlen.toNat = 8 ∨
     enc = .dealenc ∧ dec = .dealdec ∧ s.dealv = true ∧ s.dlen.toNat = 16 ∨
     enc = .rjenc ∧ dec = .rjdec ∧ s.rjv = true ∧ s.dlen.toNat = 4 * s.rjctx.nb) →
    ∃ t u v : State, exec enc s = .next t ∧ exec .otoi t = .next u ∧ exec dec u = .next v ∧
      v.err = false ∧ v.olen = s.dlen ∧
      ∀ k, k < s.dlen.toNat → v.mem.read (doutBase + k) = s.mem.read (dinBase + k)

/-! ### Rijndael (44_rijndael.md) -/

/-- SBOX and ISBOX by their formulas, with `rot_k` the left rotation, `SBOX[0]` and `ISBOX[0x63]` for every modulus,
and the two tables as permutations inverse to each other under an irreducible modulus (R232 to R234). -/
def Obligations.SboxInverse : Prop :=
  let rot := fun (k : Nat) (v : Byte) => (v <<< k) ||| (v >>> (8 - k))
  ∀ md : Byte, md ≠ 0 →
    (∀ v : Byte,
      let inv := gfInv v md
      sboxEntry md v = inv ^^^ rot 1 inv ^^^ rot 2 inv ^^^ rot 3 inv ^^^ rot 4 inv ^^^ 0x63 ∧
      isboxEntry md v = gfInv (rot 1 v ^^^ rot 3 v ^^^ rot 6 v ^^^ 0x05) md) ∧
    sboxEntry md 0 = 0x63 ∧ isboxEntry md 0x63 = 0 ∧
    (gfIrr md = true → ∀ v : Byte,
      isboxEntry md (sboxEntry md v) = v ∧ sboxEntry md (isboxEntry md v) = v)

/-- The state matrix and the round transforms entry by entry, rows 0 to 3: the matrix of a block and back (R236),
ShiftRows and its inverse (R238), SubBytes (R239), MixColumns and its inverse (R240), AddRoundKey (R241). And each
inverse transform undoes its transform: InvShiftRows always, InvMixColumns under every modulus byte, AddRoundKey
itself, InvSubBytes under an irreducible modulus. -/
def Obligations.InverseTransforms : Prop :=
  (∀ (nb : Nat) (B : Bytes), B.length = 4 * nb →
    (colsOf nb B).length = nb ∧ bytesOf (colsOf nb B) = B ∧
    ∀ r c, r < 4 → c < nb → cell (colsOf nb B) r c = B.getD (4 * c + r) 0) ∧
  (∀ (o1 o2 o3 : Nat) (M : List Col),
    (shiftRows o1 o2 o3 M).length = M.length ∧ (invShiftRows o1 o2 o3 M).length = M.length ∧
    ∀ r c, r < 4 → c < M.length →
      let off := [0, o1, o2, o3].getD r 0
      cell (shiftRows o1 o2 o3 M) r c = cell M r ((c + off) % M.length) ∧
      cell (invShiftRows o1 o2 o3 M) r c = cell M r (((c : Int) - off) % M.length).toNat) ∧
  (∀ (tbl : Byte → Byte) (M : List Col), (subBytes tbl M).length = M.length ∧
    ∀ r c, r < 4 → c < M.length → cell (subBytes tbl M) r c = tbl (cell M r c)) ∧
  (∀ (md : Byte) (M : List Col),
    (mixColumns md M).length = M.length ∧ (invMixColumns md M).length = M.length ∧
    ∀ r c, r < 4 → c < M.length →
      let sum := fun cf : List Byte =>
        (List.range 4).foldl (fun acc k => acc ^^^ gfMul (cf.getD ((r + 4 - k) % 4) 0) (cell M k c) md) 0
      cell (mixColumns md M) r c = sum [0x02, 0x01, 0x01, 0x03] ∧
      cell (invMixColumns md M) r c = sum [0x0E, 0x09, 0x0D, 0x0B]) ∧
  (∀ (ctx : RjCtx) (rnd : Nat) (M : List Col), M.length = ctx.nb → (rnd + 1) * ctx.nb ≤ ctx.w.length →
    (addRoundKey ctx rnd M).length = M.length ∧
    ∀ r c, r < 4 → c < M.length →
      cell (addRoundKey ctx rnd M) r c = cell M r c ^^^ cell ctx.w r (rnd * ctx.nb + c)) ∧
  (∀ (o1 o2 o3 : Nat) (M : List Col), invShiftRows o1 o2 o3 (shiftRows o1 o2 o3 M) = M) ∧
  (∀ (md : Byte) (M : List Col), md ≠ 0 → invMixColumns md (mixColumns md M) = M) ∧
  (∀ (ctx : RjCtx) (rnd : Nat) (M : List Col), M.length = ctx.nb → (rnd + 1) * ctx.nb ≤ ctx.w.length →
    addRoundKey ctx rnd (addRoundKey ctx rnd M) = M) ∧
  (∀ (md : Byte) (M : List Col), md ≠ 0 → gfIrr md = true →
    subBytes (isboxEntry md) (subBytes (sboxEntry md) M) = M)

/-- The round constants, by their recurrence and by the 30 values R242 prints, with no modulus in them; and the key
expansion by index (R243): the key's columns, then `W[i] = W[i-NK] xor t`. -/
def Obligations.RijndaelKeySchedule : Prop :=
  (rcon 0 = 0x01 ∧
    (∀ i, (rcon (i + 1)).toNat =
      if (rcon i).toNat < 0x80 then 2 * (rcon i).toNat else (2 * (rcon i).toNat ^^^ 0x11B) % 256) ∧
    (List.range 30).map rcon =
      [0x01, 0x02, 0x04, 0x08, 0x10, 0x20, 0x40, 0x80, 0x1B, 0x36, 0x6C, 0xD8, 0xAB, 0x4D, 0x9A, 0x2F, 0x5E, 0xBC,
       0x63, 0xC6, 0x97, 0x35, 0x6A, 0xD4, 0xB3, 0x7D, 0xFA, 0xEF, 0xC5, 0x91]) ∧
  ∀ (sb : Byte → Byte) (key : Bytes) (nk nb nr : Nat), 0 < nk → nk ≤ nb * (nr + 1) →
    let W := fun i => (rjExpand sb key nk nb nr).getD i Col.zero
    (rjExpand sb key nk nb nr).length = nb * (nr + 1) ∧
    (∀ i, i < nk → W i =
      { b0 := key.getD (4 * i) 0, b1 := key.getD (4 * i + 1) 0,
        b2 := key.getD (4 * i + 2) 0, b3 := key.getD (4 * i + 3) 0 }) ∧
    ∀ i, nk ≤ i → i < nb * (nr + 1) →
      let t := W (i - 1)
      W i = Col.xor (W (i - nk))
        (if i % nk = 0 then
          { b0 := sb t.b1 ^^^ rcon (i / nk - 1), b1 := sb t.b2, b2 := sb t.b3, b3 := sb t.b0 }
         else if 6 < nk ∧ i % nk = 4 then { b0 := sb t.b0, b1 := sb t.b1, b2 := sb t.b2, b3 := sb t.b3 }
         else t)

/-- The block functions round by round: `S rnd` is the matrix after round `rnd` of encryption (R244), `T rnd` the one
before the steps of round `rnd - 1` of decryption (R245). The round trip under every context RJKEY can build (R246).
And the document's known answer (R255). -/
def Obligations.RijndaelRoundTrip : Prop :=
  (∀ (ctx : RjCtx) (sb : Byte → Byte) (B : Bytes), 1 ≤ ctx.nr → ∃ S : Nat → List Col,
    S 0 = addRoundKey ctx 0 (colsOf ctx.nb B) ∧
    (∀ rnd, 1 ≤ rnd → rnd < ctx.nr → S rnd =
      addRoundKey ctx rnd (mixColumns ctx.md (shiftRows ctx.off1 ctx.off2 ctx.off3 (subBytes sb (S (rnd - 1)))))) ∧
    rjEncrypt ctx sb B =
      bytesOf (addRoundKey ctx ctx.nr (shiftRows ctx.off1 ctx.off2 ctx.off3 (subBytes sb (S (ctx.nr - 1)))))) ∧
  (∀ (ctx : RjCtx) (isb : Byte → Byte) (B : Bytes), 1 ≤ ctx.nr → ∃ T : Nat → List Col,
    T ctx.nr = addRoundKey ctx ctx.nr (colsOf ctx.nb B) ∧
    (∀ rnd, 1 ≤ rnd → rnd < ctx.nr → T rnd =
      invMixColumns ctx.md
        (addRoundKey ctx rnd (subBytes isb (invShiftRows ctx.off1 ctx.off2 ctx.off3 (T (rnd + 1)))))) ∧
    rjDecrypt ctx isb B =
      bytesOf (addRoundKey ctx 0 (subBytes isb (invShiftRows ctx.off1 ctx.off2 ctx.off3 (T 1))))) ∧
  (∀ (ctx : RjCtx) (B : Bytes), RjLegal ctx → B.length = 4 * ctx.nb →
    rjDecrypt ctx (isboxEntry ctx.md) (rjEncrypt ctx (sboxEntry ctx.md) B) = B) ∧
  rjEncrypt (rjContext (toBe 16 0x000102030405060708090A0B0C0D0E0F) 16 0x1B) (sboxEntry 0x1B)
    (toBe 16 0x00112233445566778899AABBCCDDEEFF) = toBe 16 0x69C4E0D86A7B0430D8CDB78070B4C55A

/-- RJKEY with legal sizes and an irreducible modulus: the context, the two tables, the valid flag, MODEV, and no
other byte of memory (R250). -/
def Obligations.RjkeyResult : Prop :=
  ∀ (s : State) (bsz md : Byte), s.err = false →
    (bsz.toNat = 16 ∨ bsz.toNat = 24 ∨ bsz.toNat = 32) →
    (s.klen.toNat = 16 ∨ s.klen.toNat = 24 ∨ s.klen.toNat = 32) → md ≠ 0 → gfIrr md = true →
    ∃ t, exec (.rjkey bsz md) s = .next t ∧
      t = { s with mem := t.mem, rjctx := t.rjctx, rjv := true,
                   modev := s.modev && decide (s.modectx.cipher ≠ .rj) } ∧
      RjLegal t.rjctx ∧ t.rjctx.nb = bsz.toNat / 4 ∧ t.rjctx.nk = s.klen.toNat / 4 ∧ t.rjctx.md = md ∧
      t.rjctx.w = rjExpand (sboxEntry md) (s.mem.readRange keyBase s.klen.toNat) t.rjctx.nk t.rjctx.nb t.rjctx.nr ∧
      (∀ v : Byte, t.mem.read (sboxBase + v.toNat) = sboxEntry md v ∧
        t.mem.read (isboxBase + v.toNat) = isboxEntry md v) ∧
      ∀ a, a < 0x0400 ∨ 0x0600 ≤ a → t.mem.read a = s.mem.read a

/-- The errors of the construction commands in their order: CFG_KEYLEN of DESKEY and DEALKEY; CFG_BLOCKLEN,
CFG_KEYLEN, ARITH_ZERO_MOD, CFG_MODULUS of RJKEY (R190, 43_deal.md R218, 44_rijndael.md R250). -/
def Obligations.KeyCommandErrors : Prop :=
  ∀ s : State, s.err = false →
    let size := fun n => n = 16 ∨ n = 24 ∨ n = 32
    (s.klen.toNat ≠ 8 → exec .deskey s = .next (s.latchError 0x30000000#32 .cfgKeylen (s.klen.setWidth 32))) ∧
    (¬ size s.klen.toNat →
      exec .dealkey s = .next (s.latchError 0x38000000#32 .cfgKeylen (s.klen.setWidth 32))) ∧
    ∀ bsz md : Byte,
      (¬ size bsz.toNat →
        exec (.rjkey bsz md) s = .next (s.latchError (encode (.rjkey bsz md)) .cfgBlocklen (bsz.setWidth 32))) ∧
      (size bsz.toNat → ¬ size s.klen.toNat →
        exec (.rjkey bsz md) s = .next (s.latchError (encode (.rjkey bsz md)) .cfgKeylen (s.klen.setWidth 32))) ∧
      (size bsz.toNat → size s.klen.toNat → md = 0 →
        exec (.rjkey bsz md) s = .next (s.latchError (encode (.rjkey bsz md)) .arithZeroMod 0)) ∧
      (size bsz.toNat → size s.klen.toNat → md ≠ 0 → gfIrr md = false →
        exec (.rjkey bsz md) s = .next (s.latchError (encode (.rjkey bsz md)) .cfgModulus (md.setWidth 32)))

/-! ### Modes (45_modes.md) -/

/-- MINIT of all seven modes over a constructed cipher: without an IV for ECB, else with an IV of a length the mode
takes; MODECTX and MODEV, and nothing else (R281, R282). -/
def Obligations.MinitResults : Prop :=
  ∀ (s : State) (md : Mode) (c : Cipher), s.err = false →
    (match c with | .des => s.desv | .deal => s.dealv | .rj => s.rjv) = true →
    let bs := match c with | .des => 8 | .deal => 16 | .rj => 4 * s.rjctx.nb
    let n := s.ivlen.toNat
    (match md with
      | .ecb => True
      | .cbc | .pcbc | .cfb | .ofb => n ≠ 0 ∧ n ≤ 64 ∧ n = bs
      | .ctr => n ≠ 0 ∧ n ≤ 64 ∧ n < bs
      | .rd => n ≠ 0 ∧ n ≤ 64 ∧ n % 2 = 0) →
    exec (.ofMinit c md) s = .next { s with
      modectx := { mode := md, cipher := c, bs := bs,
                   civ := if md = .ecb then [] else s.mem.readRange ivBase n },
      modev := true }

/-- The errors of MINIT in their order: NOT_READY, CFG_IV_MISSING, CFG_IV_LEN (R281). -/
def Obligations.MinitErrors : Prop :=
  ∀ (s : State) (md : Mode) (c : Cipher), s.err = false →
    let valid := match c with | .des => s.desv | .deal => s.dealv | .rj => s.rjv
    let bs := match c with | .des => 8 | .deal => 16 | .rj => 4 * s.rjctx.nb
    let n := s.ivlen.toNat
    let w := encode (.ofMinit c md)
    (valid = false → exec (.ofMinit c md) s = .next (s.latchError w .notReady 0)) ∧
    (valid = true → md ≠ .ecb → n = 0 → exec (.ofMinit c md) s = .next (s.latchError w .cfgIvMissing 0)) ∧
    (valid = true → n ≠ 0 →
      (match md with
        | .ecb => False
        | .cbc | .pcbc | .cfb | .ofb => 64 < n ∨ n ≠ bs
        | .ctr => 64 < n ∨ bs ≤ n
        | .rd => 64 < n ∨ n % 2 = 1) →
      exec (.ofMinit c md) s = .next (s.latchError w .cfgIvLen (s.ivlen.setWidth 32)))

/-- The formulas of the seven modes, block by block, for any cipher: `y` the blocks of MENC on `x`, `z` the blocks of
MDEC on `x` (R291 to R297). -/
def Obligations.ModeFormulas : Prop :=
  ∀ (md : Mode) (c : BlockCipher) (bs : Nat) (iv : Bytes) (X : List Bytes),
    (modeEncrypt md c bs iv X).length = X.length ∧ (modeDecrypt md c bs iv X).length = X.length ∧
    ∀ i, i < X.length →
      let x := fun j => X.getD j []
      let y := fun j => (modeEncrypt md c bs iv X).getD j []
      let z := fun j => (modeDecrypt md c bs iv X).getD j []
      let T := iv ++ toBe (bs - iv.length) i
      let A := toBe bs (beNat (iv.take (iv.length / 2)) + i * beNat (iv.drop (iv.length / 2)))
      match md with
      | .ecb => y i = c.E (x i) ∧ z i = c.D (x i)
      | .cbc =>
        y i = c.E (xorBytes (x i) (if i = 0 then iv else y (i - 1))) ∧
        z i = xorBytes (c.D (x i)) (if i = 0 then iv else x (i - 1))
      | .pcbc =>
        y i = c.E (xorBytes (x i) (if i = 0 then iv else xorBytes (x (i - 1)) (y (i - 1)))) ∧
        z i = xorBytes (c.D (x i)) (if i = 0 then iv else xorBytes (z (i - 1)) (x (i - 1)))
      | .cfb =>
        y i = xorBytes (c.E (if i = 0 then iv else y (i - 1))) (x i) ∧
        z i = xorBytes (c.E (if i = 0 then iv else x (i - 1))) (x i)
      | .ofb => y i = xorBytes (x i) (c.E^[i + 1] iv) ∧ z i = xorBytes (x i) (c.E^[i + 1] iv)
      | .ctr => y i = xorBytes (x i) (c.E T) ∧ z i = xorBytes (x i) (c.E T)
      | .rd => y i = c.E (xorBytes (x i) A) ∧ z i = xorBytes (c.D (x i)) A

/-- MENC and MDEC with a valid mode and block-aligned data: the blocks of the mode's formulas at their exact block
offset in DOUT (R288, R289, R314). Coherence gives the blocks their length. -/
def Obligations.ModeDataResults : Prop :=
  ∀ s : State, s.Coherent → s.err = false → s.modev = true →
    s.dlen.toNat ≤ s.params.bufBytes → s.dlen.toNat % s.modectx.bs = 0 →
    let n := s.dlen.toNat / s.modectx.bs
    let c := s.blockCipher s.modectx.cipher
    let X := (List.range n).map fun i => s.mem.readRange (dinBase + i * s.modectx.bs) s.modectx.bs
    (∃ t, exec .menc s = .next t ∧
      Emits s t s.dlen.toNat (modeEncrypt s.modectx.mode c s.modectx.bs s.modectx.civ X).flatten ∧
      ∀ i, i < n → t.mem.readRange (doutBase + i * s.modectx.bs) s.modectx.bs =
        (modeEncrypt s.modectx.mode c s.modectx.bs s.modectx.civ X).getD i []) ∧
    (∃ t, exec .mdec s = .next t ∧
      Emits s t s.dlen.toNat (modeDecrypt s.modectx.mode c s.modectx.bs s.modectx.civ X).flatten ∧
      ∀ i, i < n → t.mem.readRange (doutBase + i * s.modectx.bs) s.modectx.bs =
        (modeDecrypt s.modectx.mode c s.modectx.bs s.modectx.civ X).getD i [])

/-- The errors of MENC and MDEC in their order: NOT_READY, LEN_LIMIT, LEN_UNALIGNED (R288, R289). -/
def Obligations.ModeDataErrors : Prop :=
  ∀ (s : State) (i : Instr), s.err = false → i = .menc ∨ i = .mdec →
    (s.modev = false → exec i s = .next (s.latchError (encode i) .notReady 0)) ∧
    (s.modev = true → s.params.bufBytes < s.dlen.toNat →
      exec i s = .next (s.latchError (encode i) .lenLimit (s.dlen.setWidth 32))) ∧
    (s.modev = true → s.dlen.toNat ≤ s.params.bufBytes → s.dlen.toNat % s.modectx.bs ≠ 0 →
      exec i s = .next (s.latchError (encode i) .lenUnaligned (s.dlen.setWidth 32)))

/-- The round trip of every mode over every cipher, on the machine: MENC, OTOI, MDEC bring DIN back in DOUT
(R298). -/
def Obligations.ModeRoundTrip : Prop :=
  ∀ s : State, s.Coherent → s.err = false → s.modev = true →
    s.dlen.toNat ≤ s.params.bufBytes → s.dlen.toNat % s.modectx.bs = 0 →
    ∃ t u v : State, exec .menc s = .next t ∧ exec .otoi t = .next u ∧ exec .mdec u = .next v ∧
      v.err = false ∧ v.olen = s.dlen ∧
      ∀ k, k < s.dlen.toNat → v.mem.read (doutBase + k) = s.mem.read (dinBase + k)

/-- What MENC and MDEC put into DOUT is a function of the mode context, the bound cipher's context and
`DIN[0..DLEN)` only: two states that agree on these get the same output, whatever else they hold (R314). And a
second MENC or MDEC changes nothing more, since the chain starts again from the captured IV (R290). -/
def Obligations.ModeDataDependence : Prop :=
  (∀ (s s' t t' : State) (i : Instr), i = .menc ∨ i = .mdec → s.Coherent → s'.Coherent →
    s.err = false → s'.err = false → s.modev = true → s'.modev = true → s.modectx = s'.modectx →
    (match s.modectx.cipher with
      | .des => s.desctx = s'.desctx
      | .deal => s.dealctx = s'.dealctx
      | .rj => s.rjctx = s'.rjctx) →
    s.dlen = s'.dlen → (∀ k, k < s.dlen.toNat → s.mem.read (dinBase + k) = s'.mem.read (dinBase + k)) →
    exec i s = .next t → exec i s' = .next t' → t.err = false → t'.err = false →
    t.olen = t'.olen ∧ ∀ k, k < s.dlen.toNat → t.mem.read (doutBase + k) = t'.mem.read (doutBase + k)) ∧
  (∀ (s t : State) (i : Instr), i = .menc ∨ i = .mdec → s.Coherent → exec i s = .next t → exec i t = .next t)

/-! ### Padding (46_padding.md) -/

/-- PADADD of all four schemes when the input and the output fit: DIN and the scheme's filler in DOUT, a multiple of
the block size; ISO draws `n - 1` bytes, of any value, the others none (R330 to R335, R340). -/
def Obligations.PadaddResults : Prop :=
  ∀ (s : State) (sc : Scheme) (bs : Byte), s.err = false → bs ≠ 0 → s.dlen.toNat ≤ s.params.bufBytes →
    let len := s.dlen.toNat
    let n := bs.toNat - len % bs.toNat
    let total := if sc = .zeros ∧ len % bs.toNat = 0 then len else len + n
    total ≤ s.params.bufBytes →
    ∃ (t : State) (fill : Bytes), exec (.ofPadadd bs sc) s = .next t ∧
      Emits { s with draws := if sc = .iso then s.draws + (n - 1) else s.draws } t total
        (s.mem.readRange dinBase len ++ fill) ∧
      total % bs.toNat = 0 ∧
      match sc with
      | .pkcs7 => fill = List.replicate n (BitVec.ofNat 8 n)
      | .ansi => fill = List.replicate (n - 1) 0 ++ [BitVec.ofNat 8 n]
      | .iso => fill = (List.range (n - 1)).map (fun j => Config.rngByte (s.draws + j)) ++ [BitVec.ofNat 8 n]
      | .zeros => fill = List.replicate (total - len) 0

/-- PADREM of all four schemes: the default schemes cut the count byte's number of bytes when it fits, Zeros cuts all
trailing zero bytes (R336, R337, R341). -/
def Obligations.PadremResults : Prop :=
  ∀ (s : State) (sc : Scheme) (bs : Byte), s.err = false → bs ≠ 0 → s.dlen.toNat ≤ s.params.bufBytes →
    let Y := s.mem.readRange dinBase s.dlen.toNat
    (sc ≠ .zeros → Y ≠ [] → (Y.getD (Y.length - 1) 0).toNat ≤ Y.length →
      ∃ t, exec (.ofPadrem bs sc) s = .next t ∧
        Emits s t (Y.length - (Y.getD (Y.length - 1) 0).toNat)
          (Y.take (Y.length - (Y.getD (Y.length - 1) 0).toNat))) ∧
    (sc = .zeros →
      ∃ t j, exec (.ofPadrem bs sc) s = .next t ∧ Emits s t j (Y.take j) ∧ j ≤ Y.length ∧
        (∀ k, j ≤ k → k < Y.length → Y.getD k 0 = 0) ∧ (0 < j → Y.getD (j - 1) 0 ≠ 0))

/-- The errors of the padding commands in their order: LEN_LIMIT on DLEN and on the output's length, PAD_BADCOUNT
(R331, R336, R337). A term with block size 0 stands for no legal word and raises ILLEGAL_CMD, the model's choice
for a term no word decodes to (log 9). -/
def Obligations.PaddingErrors : Prop :=
  ∀ (s : State) (sc : Scheme) (bs : Byte), s.err = false →
    let len := s.dlen.toNat
    let n := bs.toNat - len % bs.toNat
    let wa := encode (.ofPadadd bs sc)
    let wr := encode (.ofPadrem bs sc)
    let Y := s.mem.readRange dinBase len
    (bs = 0 → exec (.ofPadadd bs sc) s = .next (s.latchError wa .illegalCmd 0) ∧
      exec (.ofPadrem bs sc) s = .next (s.latchError wr .illegalCmd 0)) ∧
    (bs ≠ 0 → s.params.bufBytes < len →
      exec (.ofPadadd bs sc) s = .next (s.latchError wa .lenLimit (s.dlen.setWidth 32)) ∧
      exec (.ofPadrem bs sc) s = .next (s.latchError wr .lenLimit (s.dlen.setWidth 32))) ∧
    (bs ≠ 0 → len ≤ s.params.bufBytes → ¬ (sc = .zeros ∧ len % bs.toNat = 0) → s.params.bufBytes < len + n →
      exec (.ofPadadd bs sc) s = .next (s.latchError wa .lenLimit (BitVec.ofNat 32 (len + n)))) ∧
    (bs ≠ 0 → len ≤ s.params.bufBytes → sc ≠ .zeros → len = 0 →
      exec (.ofPadrem bs sc) s = .next (s.latchError wr .padBadcount 0)) ∧
    (bs ≠ 0 → len ≤ s.params.bufBytes → sc ≠ .zeros → len ≠ 0 → len < (Y.getD (len - 1) 0).toNat →
      exec (.ofPadrem bs sc) s = .next (s.latchError wr .padBadcount ((Y.getD (len - 1) 0).setWidth 32)))

/-- Removing what was added gives the input back, for PKCS7, ANSI and ISO whatever RNG draws; for ZEROS exactly when
the input is empty or its last byte is not zero (R343). -/
def Obligations.PaddingRoundTrip : Prop :=
  ∀ (X : Bytes) (bs start : Nat), 1 ≤ bs → bs ≤ 255 →
    removeDefault (padAdd .pkcs7 X bs start) = .ok X ∧
    removeDefault (padAdd .ansi X bs start) = .ok X ∧
    removeDefault (padAdd .iso X bs start) = .ok X ∧
    (removeZeros (padAdd .zeros X bs start) = X ↔ X = [] ∨ X.getD (X.length - 1) 0 ≠ 0)

/-- The document's composite operation on the machine: PADADD, OTOI, MENC encrypt a padded message, and OTOI, MDEC,
OTOI, PADREM bring the plaintext back with its length, for every mode, every cipher and the three schemes that can
be undone (R284, R298, R343). -/
def Obligations.CompositeRoundTrip : Prop :=
  ∀ (s : State) (sc : Scheme) (bs : Byte), s.Coherent → s.err = false → s.modev = true → sc ≠ .zeros →
    bs.toNat = s.modectx.bs →
    s.dlen.toNat + (s.modectx.bs - s.dlen.toNat % s.modectx.bs) ≤ s.params.bufBytes →
    ∃ s1 s2 s3 s4 s5 s6 s7 : State,
      exec (.ofPadadd bs sc) s = .next s1 ∧ exec .otoi s1 = .next s2 ∧ exec .menc s2 = .next s3 ∧
      exec .otoi s3 = .next s4 ∧ exec .mdec s4 = .next s5 ∧ exec .otoi s5 = .next s6 ∧
      exec (.ofPadrem bs sc) s6 = .next s7 ∧
      s7.err = false ∧ s7.olen = s.dlen ∧
      ∀ k, k < s.dlen.toNat → s7.mem.read (doutBase + k) = s.mem.read (dinBase + k)
end

