-- ==== Sys2Proof/Laws/Bytes.lean ====
section
/-!
SUPPORT. The small lemmas of byte sequences, blocks and columns: lengths, and exclusive-or.
-/

namespace Sys2Proof.Machine

@[simp] theorem toBe_length (n v : Nat) : (toBe n v).length = n := by
  induction n generalizing v with
  | zero => rfl
  | succ n ih => simp [toBe, ih]

@[simp] theorem bytes64_length (v : BitVec 64) : (bytes64 v).length = 8 := toBe_length 8 v.toNat

@[simp] theorem xorBytes_length (A B : Bytes) : (xorBytes A B).length = min A.length B.length := by
  simp [xorBytes]

/-- Exclusive-or with the same sequence twice gives back the first, when the lengths agree. -/
theorem xorBytes_cancel {A B : Bytes} (h : A.length = B.length) : xorBytes (xorBytes A B) B = A := by
  induction A generalizing B with
  | nil => rfl
  | cons a A ih =>
    cases B with
    | nil => simp at h
    | cons b B =>
      have := ih (B := B) (by simpa using h)
      simpa [xorBytes, BitVec.xor_assoc] using this

theorem xorBytes_comm (A B : Bytes) : xorBytes A B = xorBytes B A := by
  induction A generalizing B with
  | nil => cases B <;> rfl
  | cons a A ih =>
    cases B with
    | nil => rfl
    | cons b B => simpa [xorBytes, BitVec.xor_comm] using ih B

@[simp] theorem blocksOf_length (bs n : Nat) (B : Bytes) : (blocksOf bs n B).length = n := by simp [blocksOf]

/-- Each block of a message that holds `n` whole blocks has the block size. -/
theorem length_of_mem_blocksOf {bs n : Nat} {B X : Bytes} (hB : B.length = n * bs) (hX : X ∈ blocksOf bs n B) :
    X.length = bs := by
  obtain ⟨i, hi, rfl⟩ := List.mem_map.1 hX
  have hi : i < n := List.mem_range.1 hi
  have : (i + 1) * bs ≤ n * bs := Nat.mul_le_mul_right bs hi
  rw [List.length_take, List.length_drop, hB]
  rw [Nat.succ_mul] at this
  omega

@[simp] theorem desBytes_length (K : List (BitVec 48)) (dir : Dir) (B : Bytes) : (desBytes K dir B).length = 8 :=
  bytes64_length _

@[simp] theorem dealBytes_length (ctx : DealCtx) (dir : Dir) (B : Bytes) : (dealBytes ctx dir B).length = 16 := by
  simp [dealBytes]

@[simp] theorem colsOf_length (n : Nat) (B : Bytes) : (colsOf n B).length = n := by
  induction n generalizing B with
  | zero => rfl
  | succ n ih => simp [colsOf, ih]

@[simp] theorem bytesOf_length (s : List Col) : (bytesOf s).length = 4 * s.length := by
  induction s with
  | nil => rfl
  | cons c s ih => simp only [bytesOf, List.flatMap_cons, List.length_append, List.length_cons] at *; simp [Col.bytes, ih]; omega

@[simp] theorem subBytes_length (f : Byte → Byte) (s : List Col) : (subBytes f s).length = s.length := by
  simp [subBytes]

@[simp] theorem shiftRows_length (o1 o2 o3 : Nat) (s : List Col) : (shiftRows o1 o2 o3 s).length = s.length := by
  simp [shiftRows]

@[simp] theorem invShiftRows_length (o1 o2 o3 : Nat) (s : List Col) :
    (invShiftRows o1 o2 o3 s).length = s.length := shiftRows_length _ _ _ s

@[simp] theorem mixColumns_length (md : Byte) (s : List Col) : (mixColumns md s).length = s.length := by
  simp [mixColumns]

@[simp] theorem invMixColumns_length (md : Byte) (s : List Col) : (invMixColumns md s).length = s.length := by
  simp [invMixColumns]

/-- The round keys of a legal context have `NB` columns. -/
theorem roundKey_length {ctx : RjCtx} {rnd : Nat} (hw : ctx.w.length = ctx.nb * (ctx.nr + 1)) (h : rnd ≤ ctx.nr) :
    (roundKey ctx rnd).length = ctx.nb := by
  have : rnd * ctx.nb + ctx.nb ≤ ctx.nb * (ctx.nr + 1) := by
    have := Nat.mul_le_mul_left ctx.nb (Nat.succ_le_succ h)
    simpa [Nat.succ_eq_add_one, Nat.mul_add, Nat.mul_comm] using this
  rw [roundKey, List.length_take, List.length_drop, hw]
  omega

/-- The key expansion adds one column for each step. -/
theorem expandSteps_length (sb : Byte → Byte) (nk n i : Nat) (acc : List Col) :
    (expandSteps sb nk n i acc).length = n + acc.length := by
  induction n generalizing i acc with
  | zero => simp [expandSteps]
  | succ n ih => simp only [expandSteps, ih, List.length_cons]; omega

/-- The expanded key has `NB*(NR+1)` columns (44_rijndael.md R243). -/
theorem rjExpand_length (sb : Byte → Byte) (key : Bytes) {nk nb nr : Nat} (h : nk ≤ nb * (nr + 1)) :
    (rjExpand sb key nk nb nr).length = nb * (nr + 1) := by
  rw [rjExpand, List.length_reverse, expandSteps_length, List.length_reverse, colsOf_length]
  omega

/-- The key schedule of the 64-bit cipher makes one round key for each rotation. -/
theorem desKeyRounds_length (sh : List Nat) (C D : BitVec 28) : (desKeyRounds sh C D).length = sh.length := by
  induction sh generalizing C D with
  | nil => rfl
  | cons r sh ih => simp [desKeyRounds, ih]

@[simp] theorem desKs_length (key : BitVec 64) : (desKs key).length = 16 := desKeyRounds_length _ _ _

theorem dealKeyRounds_length (kdf : List (BitVec 48)) (key : Bytes) (s n i : Nat) (prev : BitVec 64) :
    (dealKeyRounds kdf key s n i prev).length = n := by
  induction n generalizing i prev with
  | zero => rfl
  | succ n ih => simp [dealKeyRounds, ih]

@[simp] theorem dealKs_length (kdf : List (BitVec 48)) (key : Bytes) :
    (dealKs kdf key).length = dealRounds key.length := dealKeyRounds_length _ _ _ _ _ _

@[simp] theorem sboxTable_length (md : Byte) : (sboxTable md).length = 256 := by simp [sboxTable]

@[simp] theorem isboxTable_length (md : Byte) : (isboxTable md).length = 256 := by simp [isboxTable]

@[simp] theorem bytesOfWord_length (v : Word) : (bytesOfWord v).length = 4 := rfl

end Sys2Proof.Machine
end

