-- ==== Sys2Proof/Laws/Memory.lean ====
section
/-!
SUPPORT. The laws of the buffers' memory: what a read after a write gives, and that a write keeps the canonical
form.
-/

namespace Sys2Proof.Machine

@[simp] theorem Memory.read_nil (a : Nat) : Memory.read [] a = unlistedByte := rfl

theorem Memory.read_cons (c : Host.Cell) (m : Memory) (a : Nat) :
    Memory.read (c :: m) a = if c.1 = a then c.2 else Memory.read m a := rfl

/-- An address no cell lists reads as the reset byte. -/
theorem Memory.read_unlisted {m : Memory} {a : Nat} (h : ∀ c ∈ m, c.1 ≠ a) : Memory.read m a = unlistedByte := by
  induction m with
  | nil => rfl
  | cons c m ih =>
    rw [Memory.read_cons, if_neg (h c (by simp)), ih fun d hd => h d (by simp [hd])]

/-- Reading through a joined memory whose first part does not list the address. -/
theorem Memory.read_append_right {m n : Memory} {a : Nat} (h : ∀ c ∈ m, c.1 ≠ a) :
    Memory.read (m ++ n) a = Memory.read n a := by
  induction m with
  | nil => rfl
  | cons c m ih =>
    rw [List.cons_append, Memory.read_cons, if_neg (h c (by simp)), ih fun d hd => h d (by simp [hd])]

/-- Reading through a joined memory whose second part does not list the address. -/
theorem Memory.read_append_left {m n : Memory} {a : Nat} (h : ∀ c ∈ n, c.1 ≠ a) :
    Memory.read (m ++ n) a = Memory.read m a := by
  induction m with
  | nil => exact Memory.read_unlisted h
  | cons c m ih => simp only [List.cons_append, Memory.read_cons, ih]

/-- Keeping every cell of an address keeps what it reads as. -/
theorem Memory.read_filter {m : Memory} {p : Host.Cell → Bool} {a : Nat} (h : ∀ c : Host.Cell, c.1 = a → p c) :
    Memory.read (m.filter p) a = Memory.read m a := by
  induction m with
  | nil => rfl
  | cons c m ih =>
    by_cases hc : c.1 = a
    · simp [h c hc, Memory.read_cons, hc]
    · by_cases hp : p c <;> simp [hp, Memory.read_cons, hc, ih]

/-- The cells of `B` laid out from `a` list addresses of its range only. -/
theorem Memory.cells_range {a : Nat} {B : Bytes} {c : Host.Cell} (h : c ∈ Memory.cells a B) :
    a ≤ c.1 ∧ c.1 < a + B.length := by
  induction B generalizing a with
  | nil => simp [Memory.cells] at h
  | cons b B ih =>
    simp only [Memory.cells] at h
    split at h
    · have := ih h; simp only [List.length_cons]; omega
    · rcases List.mem_cons.1 h with rfl | h
      · simp
      · have := ih h; simp only [List.length_cons]; omega

/-- The cells of `B` laid out from `a` read as `B`. -/
theorem Memory.read_cells (a : Nat) (B : Bytes) (i : Nat) :
    Memory.read (Memory.cells a B) (a + i) = B.getD i unlistedByte := by
  induction B generalizing a i with
  | nil => simp [Memory.cells]
  | cons b B ih =>
    cases i with
    | zero =>
      simp only [Memory.cells, Nat.add_zero, List.getD_cons_zero]
      split
      · rename_i hb
        rw [Memory.read_unlisted fun c hc => by have := Memory.cells_range hc; omega, hb]
      · simp [Memory.read_cons]
    | succ i =>
      have h1 : a + (i + 1) = a + 1 + i := by omega
      simp only [Memory.cells, List.getD_cons_succ, h1]
      split
      · exact ih (a + 1) i
      · rw [Memory.read_cons, if_neg (by simp; omega)]; exact ih (a + 1) i

/-- What an address reads as after a write: the byte written there, else what it read as before. -/
theorem Memory.read_write (m : Memory) (a : Nat) (B : Bytes) (x : Nat) :
    Memory.read (m.write a B) x =
      if a ≤ x ∧ x < a + B.length then B.getD (x - a) unlistedByte else Memory.read m x := by
  unfold Memory.write
  by_cases hlo : x < a
  · rw [Memory.read_append_left (fun c hc => by simp at hc; omega),
      Memory.read_append_left (fun c hc => by have := Memory.cells_range hc; omega),
      Memory.read_filter (by simp; omega), if_neg (by omega)]
  · rw [List.append_assoc, Memory.read_append_right (fun c hc => by simp at hc; omega)]
    by_cases hhi : a + B.length ≤ x
    · rw [Memory.read_append_right (fun c hc => by have := Memory.cells_range hc; omega),
        Memory.read_filter (by simp; omega), if_neg (by omega)]
    · rw [Memory.read_append_left (fun c hc => by simp at hc; omega), if_pos (by omega)]
      have hx : x = a + (x - a) := by omega
      conv_lhs => rw [hx]
      exact Memory.read_cells a B (x - a)

/-- A write leaves every address outside its range alone. -/
theorem Memory.read_write_outside {m : Memory} {a x : Nat} {B : Bytes} (h : x < a ∨ a + B.length ≤ x) :
    Memory.read (m.write a B) x = Memory.read m x := by
  rw [Memory.read_write, if_neg (by omega)]

/-- A read inside the range of a write gives the byte written. -/
theorem Memory.read_write_inside {m : Memory} {a i : Nat} {B : Bytes} (h : i < B.length) :
    Memory.read (m.write a B) (a + i) = B.getD i unlistedByte := by
  rw [Memory.read_write, if_pos (by omega), Nat.add_sub_cancel_left]

@[simp] theorem Memory.readRange_length (m : Memory) (a n : Nat) : (m.readRange a n).length = n := by
  simp [Memory.readRange]

/-- The bytes written are the bytes read back. -/
theorem Memory.readRange_write (m : Memory) (a : Nat) (B : Bytes) : (m.write a B).readRange a B.length = B := by
  apply List.ext_getElem (by simp)
  intro i h1 h2
  have hi : i < B.length := h2
  simp [Memory.readRange, Memory.read_write_inside hi, hi]

/-- A range that does not meet the range of a write reads as before. -/
theorem Memory.readRange_write_outside {m : Memory} {a x n : Nat} {B : Bytes}
    (h : x + n ≤ a ∨ a + B.length ≤ x) : (m.write a B).readRange x n = m.readRange x n := by
  unfold Memory.readRange
  apply List.map_congr_left
  intro i hi
  have : i < n := List.mem_range.1 hi
  exact Memory.read_write_outside (by omega)

/-- The cells of `B` are in canonical form. -/
theorem Memory.cells_wf (a : Nat) (B : Bytes) : Memory.wf (Memory.cells a B) := by
  induction B generalizing a with
  | nil => exact ⟨List.Pairwise.nil, by simp [Memory.cells]⟩
  | cons b B ih =>
    simp only [Memory.cells]
    split
    · exact ih (a + 1)
    · rename_i hb
      refine ⟨List.pairwise_cons.2 ⟨fun d hd => ?_, (ih (a + 1)).1⟩, ?_⟩
      · have := Memory.cells_range hd; simp only; omega
      · intro c hc
        rcases List.mem_cons.1 hc with rfl | hc
        · exact hb
        · exact (ih (a + 1)).2 c hc

/-- A write keeps the canonical form. -/
theorem Memory.write_wf {m : Memory} (h : m.wf) (a : Nat) (B : Bytes) : (m.write a B).wf := by
  obtain ⟨hs, hz⟩ := h
  obtain ⟨cs, cz⟩ := Memory.cells_wf a B
  refine ⟨?_, ?_⟩
  · unfold Memory.write
    rw [List.append_assoc]
    refine List.pairwise_append.2 ⟨hs.filter _, List.pairwise_append.2 ⟨cs, hs.filter _, ?_⟩, ?_⟩
    · intro c hc d hd
      have := Memory.cells_range hc
      simp at hd
      omega
    · intro c hc d hd
      simp only [List.mem_filter, decide_eq_true_eq] at hc
      rcases List.mem_append.1 hd with hd | hd
      · have := Memory.cells_range hd; omega
      · simp at hd; omega
  · intro c hc
    simp only [Memory.write, List.mem_append, List.mem_filter] at hc
    rcases hc with (hc | hc) | hc
    · exact hz c hc.1
    · exact cz c hc
    · exact hz c hc.1

/-- The addresses a write lists are old ones or in its range. -/
theorem Memory.mem_write {m : Memory} {a : Nat} {B : Bytes} {c : Host.Cell} (h : c ∈ m.write a B) :
    c ∈ m ∨ (a ≤ c.1 ∧ c.1 < a + B.length) := by
  simp only [Memory.write, List.mem_append, List.mem_filter] at h
  rcases h with (h | h) | h
  · exact .inl h.1
  · exact .inr (Memory.cells_range h)
  · exact .inl h.1

end Sys2Proof.Machine
end

