-- ==== Sys2Proof/Laws/Ops.lean ====
section
/-!
SUPPORT. For each shared operation of the commands and of the port, one lemma that says once everything it can
do; proofs cite these and do not unfold the operation.
-/

namespace Sys2Proof.Machine

variable {s t : State} {w : Word}

/-- Two next outcomes are equal when their states are. -/
theorem next_eq : (Host.Outcome.next s : Result) = .next t ↔ t = s := by
  constructor
  · rintro h; cases h; rfl
  · rintro rfl; rfl

/-- Raising an error answers the state with the latch set, and nothing else (60_exceptions.md R366). -/
theorem raiseErr_next {code : ErrCode} {info : Word} :
    raiseErr s w code info = .next t ↔ t = s.latchError w code info := by
  exact next_eq

/-- What the gate can do (60_exceptions.md R368). -/
theorem gated_next {k : Result} :
    gated s k = .next t ↔ (s.err = true ∧ t = s) ∨ (s.err = false ∧ k = .next t) := by
  cases h : s.err <;> simp [gated, h, @eq_comm _ t]

/-- The gate while the latch is clear. -/
theorem gated_open {k : Result} (h : s.err = false) : gated s k = k := by simp [gated, h]

/-- The gate while the latch is set. -/
theorem gated_shut {k : Result} (h : s.err = true) : gated s k = .next s := by simp [gated, h]

/-- What a GF command with a modulus can do (40_gf.md R120). -/
theorem gfCommand_next {m : Byte} {r : Nat} :
    gfCommand s w m r = .next t ↔ (s.err = true ∧ t = s) ∨
      (s.err = false ∧ ((m = 0 ∧ t = s.latchError w .arithZeroMod 0) ∨ (m ≠ 0 ∧ t = s.setRes r))) := by
  rw [gfCommand, gated_next]
  by_cases h : m = 0#8 <;> simp [h, raiseErr_next, @eq_comm _ t]

/-- What a plain division can do (40_gf.md R126, R127). -/
theorem divCommand_next {y : Byte} {r : Nat} :
    divCommand s w y r = .next t ↔ (s.err = true ∧ t = s) ∨
      (s.err = false ∧ ((y = 0 ∧ t = s.latchError w .arithDivZero 0) ∨ (y ≠ 0 ∧ t = s.setRes r))) := by
  rw [divCommand, gated_next]
  by_cases h : y = 0#8 <;> simp [h, raiseErr_next, @eq_comm _ t]

/-- What a raw cipher command can do (42_feistel_des.md R191). -/
theorem rawBlock_next {valid : Bool} {bs : Nat} {f : Bytes → Bytes} :
    rawBlock s w valid bs f = .next t ↔ (s.err = true ∧ t = s) ∨
      (s.err = false ∧
        ((valid = false ∧ t = s.latchError w .notReady 0) ∨
         (valid = true ∧ s.dlen.toNat ≠ bs ∧ t = s.latchError w .lenBlock (lenWord s.dlen)) ∨
         (valid = true ∧ s.dlen.toNat = bs ∧ t = s.emit bs (f s.din)))) := by
  rw [rawBlock, gated_next]
  cases valid <;> by_cases h : s.dlen.toNat = bs <;> simp [h, raiseErr_next, @eq_comm _ t]

/-- What MINIT can do (45_modes.md R281). -/
theorem minit_next {md : Mode} {c : Cipher} :
    minit md c w s = .next t ↔ (s.err = true ∧ t = s) ∨
      (s.err = false ∧
        ((s.cipherValid c = false ∧ t = s.latchError w .notReady 0) ∨
         (s.cipherValid c = true ∧ md = .ecb ∧
            t = s.installMode { mode := md, cipher := c, bs := s.blockSize c, civ := [] }) ∨
         (s.cipherValid c = true ∧ md ≠ .ecb ∧ s.ivlen.toNat = 0 ∧ t = s.latchError w .cfgIvMissing 0) ∨
         (s.cipherValid c = true ∧ md ≠ .ecb ∧ s.ivlen.toNat ≠ 0 ∧
            ivLenBad md s.ivlen.toNat (s.blockSize c) = true ∧ t = s.latchError w .cfgIvLen (lenWord s.ivlen)) ∨
         (s.cipherValid c = true ∧ md ≠ .ecb ∧ s.ivlen.toNat ≠ 0 ∧
            ivLenBad md s.ivlen.toNat (s.blockSize c) = false ∧
            t = s.installMode { mode := md, cipher := c, bs := s.blockSize c, civ := s.ivBytes }))) := by
  rw [minit, gated_next]
  cases hv : s.cipherValid c with
  | false => simp [raiseErr_next, @eq_comm _ t]
  | true =>
    by_cases he : md = .ecb
    · simp [he, @eq_comm _ t]
    · by_cases hi : s.ivlen.toNat = 0
      · simp [he, hi, raiseErr_next, @eq_comm _ t]
      · cases hb : ivLenBad md s.ivlen.toNat (s.blockSize c) <;> simp [he, hi, raiseErr_next, @eq_comm _ t]

/-- What MENC and MDEC can do (45_modes.md R288, R289). -/
theorem modeData_next {f : List Bytes → List Bytes} :
    modeData w f s = .next t ↔ (s.err = true ∧ t = s) ∨
      (s.err = false ∧
        ((s.modev = false ∧ t = s.latchError w .notReady 0) ∨
         (s.modev = true ∧ s.params.bufBytes < s.dlen.toNat ∧ t = s.latchError w .lenLimit (lenWord s.dlen)) ∨
         (s.modev = true ∧ s.dlen.toNat ≤ s.params.bufBytes ∧ s.dlen.toNat % s.modectx.bs ≠ 0 ∧
            t = s.latchError w .lenUnaligned (lenWord s.dlen)) ∨
         (s.modev = true ∧ s.dlen.toNat ≤ s.params.bufBytes ∧ s.dlen.toNat % s.modectx.bs = 0 ∧
            t = s.emit s.dlen.toNat
              (f (blocksOf s.modectx.bs (s.dlen.toNat / s.modectx.bs) s.din)).flatten))) := by
  rw [modeData, gated_next]
  cases hv : s.modev with
  | false => simp [raiseErr_next, @eq_comm _ t]
  | true =>
    by_cases hl : s.params.bufBytes < s.dlen.toNat
    · simp [hl, raiseErr_next, Nat.not_le.2 hl]
    · by_cases hu : s.dlen.toNat % s.modectx.bs = 0 <;>
        simp [hl, hu, raiseErr_next, Nat.not_lt.1 hl, @eq_comm _ t]

/-- What PADADD can do (46_padding.md R331). -/
theorem padaddCommand_next {sc : Scheme} {bs : Byte} :
    padaddCommand sc bs w s = .next t ↔ (s.err = true ∧ t = s) ∨
      (s.err = false ∧
        ((bs = 0 ∧ t = s.latchError w .illegalCmd 0) ∨
         (bs ≠ 0 ∧ s.params.bufBytes < s.dlen.toNat ∧ t = s.latchError w .lenLimit (lenWord s.dlen)) ∨
         (bs ≠ 0 ∧ s.dlen.toNat ≤ s.params.bufBytes ∧
            s.params.bufBytes < (padAdd sc s.din bs.toNat s.draws).length ∧
            t = s.latchError w .lenLimit (BitVec.ofNat 32 (padAdd sc s.din bs.toNat s.draws).length)) ∨
         (bs ≠ 0 ∧ s.dlen.toNat ≤ s.params.bufBytes ∧
            (padAdd sc s.din bs.toNat s.draws).length ≤ s.params.bufBytes ∧
            t = (s.emit (padAdd sc s.din bs.toNat s.draws).length (padAdd sc s.din bs.toNat s.draws)).drew
              (padDraws sc s.dlen.toNat bs.toNat)))) := by
  simp only [padaddCommand, gated_next]
  by_cases hb : bs = 0#8
  · simp [hb, raiseErr_next, @eq_comm _ t]
  · by_cases hl : s.params.bufBytes < s.dlen.toNat
    · simp [hb, hl, raiseErr_next, Nat.not_le.2 hl]
    · by_cases hy : s.params.bufBytes < (padAdd sc s.din bs.toNat s.draws).length
      · simp [hb, hl, hy, raiseErr_next, Nat.not_lt.1 hl, Nat.not_le.2 hy]
      · simp [hb, hl, hy, Nat.not_lt.1 hl, Nat.not_lt.1 hy, @eq_comm _ t]

/-- What PADREM can do (46_padding.md R336). -/
theorem padremCommand_next {remove : Bytes → Except Nat Bytes} {bs : Byte} :
    padremCommand remove bs w s = .next t ↔ (s.err = true ∧ t = s) ∨
      (s.err = false ∧
        ((bs = 0 ∧ t = s.latchError w .illegalCmd 0) ∨
         (bs ≠ 0 ∧ s.params.bufBytes < s.dlen.toNat ∧ t = s.latchError w .lenLimit (lenWord s.dlen)) ∨
         (bs ≠ 0 ∧ s.dlen.toNat ≤ s.params.bufBytes ∧
            ((∃ k, remove s.din = .error k ∧ t = s.latchError w .padBadcount (BitVec.ofNat 32 k)) ∨
             (∃ X, remove s.din = .ok X ∧ t = s.emit X.length X))))) := by
  rw [padremCommand, gated_next]
  by_cases hb : bs = 0#8
  · simp [hb, raiseErr_next, @eq_comm _ t]
  · by_cases hl : s.params.bufBytes < s.dlen.toNat
    · simp [hb, hl, raiseErr_next, Nat.not_le.2 hl]
    · cases hr : remove s.din <;> simp [hb, hl, raiseErr_next, Nat.not_lt.1 hl, @eq_comm _ t]

/-- What PERM can do (41_perm.md R151). -/
theorem execPerm_next {rule : PermRule} {lz : BitVec 3} :
    execPerm rule lz s = .next t ↔ (s.err = true ∧ t = s) ∨
      (s.err = false ∧
        ((s.params.bufBytes < s.dlen.toNat ∧
            t = s.latchError (encode (.perm rule lz)) .lenLimit (lenWord s.dlen)) ∨
         (s.dlen.toNat ≤ s.params.bufBytes ∧ Config.tblEntries < s.tlen.toNat ∧
            t = s.latchError (encode (.perm rule lz)) .lenLimit (lenWord s.tlen)) ∨
         (s.dlen.toNat ≤ s.params.bufBytes ∧ s.tlen.toNat ≤ Config.tblEntries ∧
            ((∃ i, rearrange s.din lz.toNat s.tbl rule = .error i ∧
                t = s.latchError (encode (.perm rule lz)) .permRange (BitVec.ofNat 32 i)) ∨
             (∃ O, rearrange s.din lz.toNat s.tbl rule = .ok O ∧ t = s.emit O.length O))))) := by
  simp only [execPerm, gated_next]
  by_cases hl : s.params.bufBytes < s.dlen.toNat
  · simp [hl, raiseErr_next, Nat.not_le.2 hl]
  · by_cases ht : Config.tblEntries < s.tlen.toNat
    · simp [hl, ht, raiseErr_next, Nat.not_lt.1 hl, Nat.not_le.2 ht]
    · cases hr : rearrange s.din lz.toNat s.tbl rule <;>
        simp [hl, ht, raiseErr_next, Nat.not_lt.1 hl, Nat.not_lt.1 ht, @eq_comm _ t]

/-- What DESKEY can do (42_feistel_des.md R190). -/
theorem execDeskey_next :
    execDeskey s = .next t ↔ (s.err = true ∧ t = s) ∨
      (s.err = false ∧
        ((s.klen.toNat ≠ 8 ∧ t = s.latchError (encode .deskey) .cfgKeylen (lenWord s.klen)) ∨
         (s.klen.toNat = 8 ∧ t = s.installDes { keys := desKs (be64 s.keyBytes) }))) := by
  rw [execDeskey, gated_next]
  by_cases h : s.klen.toNat = 8 <;> simp [h, raiseErr_next, @eq_comm _ t]

/-- What DEALKEY can do (43_deal.md R218). -/
theorem execDealkey_next :
    execDealkey s = .next t ↔ (s.err = true ∧ t = s) ∨
      (s.err = false ∧
        ((keyLen3 s.klen.toNat = false ∧ t = s.latchError (encode .dealkey) .cfgKeylen (lenWord s.klen)) ∨
         (keyLen3 s.klen.toNat = true ∧ t = s.installDeal
            { n := dealRounds s.klen.toNat, rk := dealKs (desKs dealKdfKey) s.keyBytes }))) := by
  rw [execDealkey, gated_next]
  cases h : keyLen3 s.klen.toNat <;> simp [raiseErr_next, @eq_comm _ t]

/-- What RJKEY can do (44_rijndael.md R250). -/
theorem execRjkey_next {bsz md : Byte} :
    execRjkey bsz md s = .next t ↔ (s.err = true ∧ t = s) ∨
      (s.err = false ∧
        ((rjSizeOk bsz.toNat = false ∧
            t = s.latchError (encode (.rjkey bsz md)) .cfgBlocklen (lenWord bsz)) ∨
         (rjSizeOk bsz.toNat = true ∧ rjSizeOk s.klen.toNat = false ∧
            t = s.latchError (encode (.rjkey bsz md)) .cfgKeylen (lenWord s.klen)) ∨
         (rjSizeOk bsz.toNat = true ∧ rjSizeOk s.klen.toNat = true ∧ md = 0 ∧
            t = s.latchError (encode (.rjkey bsz md)) .arithZeroMod 0) ∨
         (rjSizeOk bsz.toNat = true ∧ rjSizeOk s.klen.toNat = true ∧ md ≠ 0 ∧ gfIrr md = false ∧
            t = s.latchError (encode (.rjkey bsz md)) .cfgModulus (lenWord md)) ∨
         (rjSizeOk bsz.toNat = true ∧ rjSizeOk s.klen.toNat = true ∧ md ≠ 0 ∧ gfIrr md = true ∧
            t = s.installRj (rjContext s.keyBytes bsz.toNat md) (sboxTable md) (isboxTable md)))) := by
  simp only [execRjkey, gated_next]
  cases hb : rjSizeOk bsz.toNat
  · simp [raiseErr_next, @eq_comm _ t]
  · cases hk : rjSizeOk s.klen.toNat
    · simp [raiseErr_next, @eq_comm _ t]
    · by_cases hm : md = 0#8
      · simp [hm, raiseErr_next, @eq_comm _ t]
      · cases hi : gfIrr md <;> simp [hm, raiseErr_next, @eq_comm _ t]

/-- What a word written to CMD can do (30_encoding.md R91). -/
theorem issue_next :
    issue w s = .next t ↔ (s.err = true ∧ passesGate w = false ∧ t = s) ∨
      ((s.err = false ∨ passesGate w = true) ∧
        ((∃ i, decode w = .ok i ∧ exec i s = .next t) ∨
         (∃ e, decode w = .error e ∧ t = s.latchError w .illegalCmd 0))) := by
  unfold issue
  cases he : s.err <;> cases hp : passesGate w <;> cases hd : decode w <;> simp [raiseErr_next, @eq_comm _ t]

/-- What a step can do: nothing, or its oldest transaction (20_memory.md R69). -/
theorem step_next :
    step s = .next t ↔ (s.host = [] ∧ t = s) ∨
      (∃ x xs, s.host = x :: xs ∧ serve x { s with host := xs } = .next t) := by
  unfold step
  cases h : s.host <;> simp [@eq_comm _ t]

end Sys2Proof.Machine
end

