-- ==== Sys2Proof/Laws/State.lean ====
section
/-!
SUPPORT. One lemma for each field and each named update of the state, true by unfolding, so that no later proof
unfolds a record update.
-/

namespace Sys2Proof.Machine

variable (s : State)

/-! ### latchError -/

@[simp] theorem State.latchError_err (w : Word) (code : ErrCode) (info : Word) :
    (s.latchError w code info).err = true := rfl
@[simp] theorem State.latchError_errCode (w : Word) (code : ErrCode) (info : Word) :
    (s.latchError w code info).errCode = code.byte := rfl
@[simp] theorem State.latchError_errInfo (w : Word) (code : ErrCode) (info : Word) :
    (s.latchError w code info).errInfo = info := rfl
@[simp] theorem State.latchError_errCmd (w : Word) (code : ErrCode) (info : Word) :
    (s.latchError w code info).errCmd = w := rfl
@[simp] theorem State.latchError_desv (w : Word) (code : ErrCode) (info : Word) :
    (s.latchError w code info).desv = s.desv := rfl
@[simp] theorem State.latchError_dealv (w : Word) (code : ErrCode) (info : Word) :
    (s.latchError w code info).dealv = s.dealv := rfl
@[simp] theorem State.latchError_rjv (w : Word) (code : ErrCode) (info : Word) :
    (s.latchError w code info).rjv = s.rjv := rfl
@[simp] theorem State.latchError_modev (w : Word) (code : ErrCode) (info : Word) :
    (s.latchError w code info).modev = s.modev := rfl
@[simp] theorem State.latchError_res (w : Word) (code : ErrCode) (info : Word) :
    (s.latchError w code info).res = s.res := rfl
@[simp] theorem State.latchError_klen (w : Word) (code : ErrCode) (info : Word) :
    (s.latchError w code info).klen = s.klen := rfl
@[simp] theorem State.latchError_ivlen (w : Word) (code : ErrCode) (info : Word) :
    (s.latchError w code info).ivlen = s.ivlen := rfl
@[simp] theorem State.latchError_dlen (w : Word) (code : ErrCode) (info : Word) :
    (s.latchError w code info).dlen = s.dlen := rfl
@[simp] theorem State.latchError_olen (w : Word) (code : ErrCode) (info : Word) :
    (s.latchError w code info).olen = s.olen := rfl
@[simp] theorem State.latchError_tlen (w : Word) (code : ErrCode) (info : Word) :
    (s.latchError w code info).tlen = s.tlen := rfl
@[simp] theorem State.latchError_mem (w : Word) (code : ErrCode) (info : Word) :
    (s.latchError w code info).mem = s.mem := rfl
@[simp] theorem State.latchError_desctx (w : Word) (code : ErrCode) (info : Word) :
    (s.latchError w code info).desctx = s.desctx := rfl
@[simp] theorem State.latchError_dealctx (w : Word) (code : ErrCode) (info : Word) :
    (s.latchError w code info).dealctx = s.dealctx := rfl
@[simp] theorem State.latchError_rjctx (w : Word) (code : ErrCode) (info : Word) :
    (s.latchError w code info).rjctx = s.rjctx := rfl
@[simp] theorem State.latchError_modectx (w : Word) (code : ErrCode) (info : Word) :
    (s.latchError w code info).modectx = s.modectx := rfl
@[simp] theorem State.latchError_params (w : Word) (code : ErrCode) (info : Word) :
    (s.latchError w code info).params = s.params := rfl
@[simp] theorem State.latchError_draws (w : Word) (code : ErrCode) (info : Word) :
    (s.latchError w code info).draws = s.draws := rfl
@[simp] theorem State.latchError_host (w : Word) (code : ErrCode) (info : Word) :
    (s.latchError w code info).host = s.host := rfl
@[simp] theorem State.latchError_resp (w : Word) (code : ErrCode) (info : Word) :
    (s.latchError w code info).resp = s.resp := rfl

/-! ### clearLatch -/

@[simp] theorem State.clearLatch_err :
    (s.clearLatch).err = false := rfl
@[simp] theorem State.clearLatch_errCode :
    (s.clearLatch).errCode = 0 := rfl
@[simp] theorem State.clearLatch_errInfo :
    (s.clearLatch).errInfo = 0 := rfl
@[simp] theorem State.clearLatch_errCmd :
    (s.clearLatch).errCmd = 0 := rfl
@[simp] theorem State.clearLatch_desv :
    (s.clearLatch).desv = s.desv := rfl
@[simp] theorem State.clearLatch_dealv :
    (s.clearLatch).dealv = s.dealv := rfl
@[simp] theorem State.clearLatch_rjv :
    (s.clearLatch).rjv = s.rjv := rfl
@[simp] theorem State.clearLatch_modev :
    (s.clearLatch).modev = s.modev := rfl
@[simp] theorem State.clearLatch_res :
    (s.clearLatch).res = s.res := rfl
@[simp] theorem State.clearLatch_klen :
    (s.clearLatch).klen = s.klen := rfl
@[simp] theorem State.clearLatch_ivlen :
    (s.clearLatch).ivlen = s.ivlen := rfl
@[simp] theorem State.clearLatch_dlen :
    (s.clearLatch).dlen = s.dlen := rfl
@[simp] theorem State.clearLatch_olen :
    (s.clearLatch).olen = s.olen := rfl
@[simp] theorem State.clearLatch_tlen :
    (s.clearLatch).tlen = s.tlen := rfl
@[simp] theorem State.clearLatch_mem :
    (s.clearLatch).mem = s.mem := rfl
@[simp] theorem State.clearLatch_desctx :
    (s.clearLatch).desctx = s.desctx := rfl
@[simp] theorem State.clearLatch_dealctx :
    (s.clearLatch).dealctx = s.dealctx := rfl
@[simp] theorem State.clearLatch_rjctx :
    (s.clearLatch).rjctx = s.rjctx := rfl
@[simp] theorem State.clearLatch_modectx :
    (s.clearLatch).modectx = s.modectx := rfl
@[simp] theorem State.clearLatch_params :
    (s.clearLatch).params = s.params := rfl
@[simp] theorem State.clearLatch_draws :
    (s.clearLatch).draws = s.draws := rfl
@[simp] theorem State.clearLatch_host :
    (s.clearLatch).host = s.host := rfl
@[simp] theorem State.clearLatch_resp :
    (s.clearLatch).resp = s.resp := rfl

/-! ### setRes -/

@[simp] theorem State.setRes_err (v : Nat) :
    (s.setRes v).err = s.err := rfl
@[simp] theorem State.setRes_errCode (v : Nat) :
    (s.setRes v).errCode = s.errCode := rfl
@[simp] theorem State.setRes_errInfo (v : Nat) :
    (s.setRes v).errInfo = s.errInfo := rfl
@[simp] theorem State.setRes_errCmd (v : Nat) :
    (s.setRes v).errCmd = s.errCmd := rfl
@[simp] theorem State.setRes_desv (v : Nat) :
    (s.setRes v).desv = s.desv := rfl
@[simp] theorem State.setRes_dealv (v : Nat) :
    (s.setRes v).dealv = s.dealv := rfl
@[simp] theorem State.setRes_rjv (v : Nat) :
    (s.setRes v).rjv = s.rjv := rfl
@[simp] theorem State.setRes_modev (v : Nat) :
    (s.setRes v).modev = s.modev := rfl
@[simp] theorem State.setRes_res (v : Nat) :
    (s.setRes v).res = BitVec.ofNat 32 v := rfl
@[simp] theorem State.setRes_klen (v : Nat) :
    (s.setRes v).klen = s.klen := rfl
@[simp] theorem State.setRes_ivlen (v : Nat) :
    (s.setRes v).ivlen = s.ivlen := rfl
@[simp] theorem State.setRes_dlen (v : Nat) :
    (s.setRes v).dlen = s.dlen := rfl
@[simp] theorem State.setRes_olen (v : Nat) :
    (s.setRes v).olen = s.olen := rfl
@[simp] theorem State.setRes_tlen (v : Nat) :
    (s.setRes v).tlen = s.tlen := rfl
@[simp] theorem State.setRes_mem (v : Nat) :
    (s.setRes v).mem = s.mem := rfl
@[simp] theorem State.setRes_desctx (v : Nat) :
    (s.setRes v).desctx = s.desctx := rfl
@[simp] theorem State.setRes_dealctx (v : Nat) :
    (s.setRes v).dealctx = s.dealctx := rfl
@[simp] theorem State.setRes_rjctx (v : Nat) :
    (s.setRes v).rjctx = s.rjctx := rfl
@[simp] theorem State.setRes_modectx (v : Nat) :
    (s.setRes v).modectx = s.modectx := rfl
@[simp] theorem State.setRes_params (v : Nat) :
    (s.setRes v).params = s.params := rfl
@[simp] theorem State.setRes_draws (v : Nat) :
    (s.setRes v).draws = s.draws := rfl
@[simp] theorem State.setRes_host (v : Nat) :
    (s.setRes v).host = s.host := rfl
@[simp] theorem State.setRes_resp (v : Nat) :
    (s.setRes v).resp = s.resp := rfl

/-! ### emit -/

@[simp] theorem State.emit_err (n : Nat) (O : Bytes) :
    (s.emit n O).err = s.err := rfl
@[simp] theorem State.emit_errCode (n : Nat) (O : Bytes) :
    (s.emit n O).errCode = s.errCode := rfl
@[simp] theorem State.emit_errInfo (n : Nat) (O : Bytes) :
    (s.emit n O).errInfo = s.errInfo := rfl
@[simp] theorem State.emit_errCmd (n : Nat) (O : Bytes) :
    (s.emit n O).errCmd = s.errCmd := rfl
@[simp] theorem State.emit_desv (n : Nat) (O : Bytes) :
    (s.emit n O).desv = s.desv := rfl
@[simp] theorem State.emit_dealv (n : Nat) (O : Bytes) :
    (s.emit n O).dealv = s.dealv := rfl
@[simp] theorem State.emit_rjv (n : Nat) (O : Bytes) :
    (s.emit n O).rjv = s.rjv := rfl
@[simp] theorem State.emit_modev (n : Nat) (O : Bytes) :
    (s.emit n O).modev = s.modev := rfl
@[simp] theorem State.emit_res (n : Nat) (O : Bytes) :
    (s.emit n O).res = s.res := rfl
@[simp] theorem State.emit_klen (n : Nat) (O : Bytes) :
    (s.emit n O).klen = s.klen := rfl
@[simp] theorem State.emit_ivlen (n : Nat) (O : Bytes) :
    (s.emit n O).ivlen = s.ivlen := rfl
@[simp] theorem State.emit_dlen (n : Nat) (O : Bytes) :
    (s.emit n O).dlen = s.dlen := rfl
@[simp] theorem State.emit_olen (n : Nat) (O : Bytes) :
    (s.emit n O).olen = BitVec.ofNat 16 n := rfl
@[simp] theorem State.emit_tlen (n : Nat) (O : Bytes) :
    (s.emit n O).tlen = s.tlen := rfl
@[simp] theorem State.emit_mem (n : Nat) (O : Bytes) :
    (s.emit n O).mem = s.mem.write doutBase O := rfl
@[simp] theorem State.emit_desctx (n : Nat) (O : Bytes) :
    (s.emit n O).desctx = s.desctx := rfl
@[simp] theorem State.emit_dealctx (n : Nat) (O : Bytes) :
    (s.emit n O).dealctx = s.dealctx := rfl
@[simp] theorem State.emit_rjctx (n : Nat) (O : Bytes) :
    (s.emit n O).rjctx = s.rjctx := rfl
@[simp] theorem State.emit_modectx (n : Nat) (O : Bytes) :
    (s.emit n O).modectx = s.modectx := rfl
@[simp] theorem State.emit_params (n : Nat) (O : Bytes) :
    (s.emit n O).params = s.params := rfl
@[simp] theorem State.emit_draws (n : Nat) (O : Bytes) :
    (s.emit n O).draws = s.draws := rfl
@[simp] theorem State.emit_host (n : Nat) (O : Bytes) :
    (s.emit n O).host = s.host := rfl
@[simp] theorem State.emit_resp (n : Nat) (O : Bytes) :
    (s.emit n O).resp = s.resp := rfl

/-! ### drew -/

@[simp] theorem State.drew_err (k : Nat) :
    (s.drew k).err = s.err := rfl
@[simp] theorem State.drew_errCode (k : Nat) :
    (s.drew k).errCode = s.errCode := rfl
@[simp] theorem State.drew_errInfo (k : Nat) :
    (s.drew k).errInfo = s.errInfo := rfl
@[simp] theorem State.drew_errCmd (k : Nat) :
    (s.drew k).errCmd = s.errCmd := rfl
@[simp] theorem State.drew_desv (k : Nat) :
    (s.drew k).desv = s.desv := rfl
@[simp] theorem State.drew_dealv (k : Nat) :
    (s.drew k).dealv = s.dealv := rfl
@[simp] theorem State.drew_rjv (k : Nat) :
    (s.drew k).rjv = s.rjv := rfl
@[simp] theorem State.drew_modev (k : Nat) :
    (s.drew k).modev = s.modev := rfl
@[simp] theorem State.drew_res (k : Nat) :
    (s.drew k).res = s.res := rfl
@[simp] theorem State.drew_klen (k : Nat) :
    (s.drew k).klen = s.klen := rfl
@[simp] theorem State.drew_ivlen (k : Nat) :
    (s.drew k).ivlen = s.ivlen := rfl
@[simp] theorem State.drew_dlen (k : Nat) :
    (s.drew k).dlen = s.dlen := rfl
@[simp] theorem State.drew_olen (k : Nat) :
    (s.drew k).olen = s.olen := rfl
@[simp] theorem State.drew_tlen (k : Nat) :
    (s.drew k).tlen = s.tlen := rfl
@[simp] theorem State.drew_mem (k : Nat) :
    (s.drew k).mem = s.mem := rfl
@[simp] theorem State.drew_desctx (k : Nat) :
    (s.drew k).desctx = s.desctx := rfl
@[simp] theorem State.drew_dealctx (k : Nat) :
    (s.drew k).dealctx = s.dealctx := rfl
@[simp] theorem State.drew_rjctx (k : Nat) :
    (s.drew k).rjctx = s.rjctx := rfl
@[simp] theorem State.drew_modectx (k : Nat) :
    (s.drew k).modectx = s.modectx := rfl
@[simp] theorem State.drew_params (k : Nat) :
    (s.drew k).params = s.params := rfl
@[simp] theorem State.drew_draws (k : Nat) :
    (s.drew k).draws = s.draws + k := rfl
@[simp] theorem State.drew_host (k : Nat) :
    (s.drew k).host = s.host := rfl
@[simp] theorem State.drew_resp (k : Nat) :
    (s.drew k).resp = s.resp := rfl

/-! ### copyOutToIn -/

@[simp] theorem State.copyOutToIn_err :
    (s.copyOutToIn).err = s.err := rfl
@[simp] theorem State.copyOutToIn_errCode :
    (s.copyOutToIn).errCode = s.errCode := rfl
@[simp] theorem State.copyOutToIn_errInfo :
    (s.copyOutToIn).errInfo = s.errInfo := rfl
@[simp] theorem State.copyOutToIn_errCmd :
    (s.copyOutToIn).errCmd = s.errCmd := rfl
@[simp] theorem State.copyOutToIn_desv :
    (s.copyOutToIn).desv = s.desv := rfl
@[simp] theorem State.copyOutToIn_dealv :
    (s.copyOutToIn).dealv = s.dealv := rfl
@[simp] theorem State.copyOutToIn_rjv :
    (s.copyOutToIn).rjv = s.rjv := rfl
@[simp] theorem State.copyOutToIn_modev :
    (s.copyOutToIn).modev = s.modev := rfl
@[simp] theorem State.copyOutToIn_res :
    (s.copyOutToIn).res = s.res := rfl
@[simp] theorem State.copyOutToIn_klen :
    (s.copyOutToIn).klen = s.klen := rfl
@[simp] theorem State.copyOutToIn_ivlen :
    (s.copyOutToIn).ivlen = s.ivlen := rfl
@[simp] theorem State.copyOutToIn_dlen :
    (s.copyOutToIn).dlen = s.olen := rfl
@[simp] theorem State.copyOutToIn_olen :
    (s.copyOutToIn).olen = s.olen := rfl
@[simp] theorem State.copyOutToIn_tlen :
    (s.copyOutToIn).tlen = s.tlen := rfl
@[simp] theorem State.copyOutToIn_mem :
    (s.copyOutToIn).mem = s.mem.write dinBase (s.mem.readRange doutBase s.olen.toNat) := rfl
@[simp] theorem State.copyOutToIn_desctx :
    (s.copyOutToIn).desctx = s.desctx := rfl
@[simp] theorem State.copyOutToIn_dealctx :
    (s.copyOutToIn).dealctx = s.dealctx := rfl
@[simp] theorem State.copyOutToIn_rjctx :
    (s.copyOutToIn).rjctx = s.rjctx := rfl
@[simp] theorem State.copyOutToIn_modectx :
    (s.copyOutToIn).modectx = s.modectx := rfl
@[simp] theorem State.copyOutToIn_params :
    (s.copyOutToIn).params = s.params := rfl
@[simp] theorem State.copyOutToIn_draws :
    (s.copyOutToIn).draws = s.draws := rfl
@[simp] theorem State.copyOutToIn_host :
    (s.copyOutToIn).host = s.host := rfl
@[simp] theorem State.copyOutToIn_resp :
    (s.copyOutToIn).resp = s.resp := rfl

/-! ### installDes -/

@[simp] theorem State.installDes_err (ctx : DesCtx) :
    (s.installDes ctx).err = s.err := rfl
@[simp] theorem State.installDes_errCode (ctx : DesCtx) :
    (s.installDes ctx).errCode = s.errCode := rfl
@[simp] theorem State.installDes_errInfo (ctx : DesCtx) :
    (s.installDes ctx).errInfo = s.errInfo := rfl
@[simp] theorem State.installDes_errCmd (ctx : DesCtx) :
    (s.installDes ctx).errCmd = s.errCmd := rfl
@[simp] theorem State.installDes_desv (ctx : DesCtx) :
    (s.installDes ctx).desv = true := rfl
@[simp] theorem State.installDes_dealv (ctx : DesCtx) :
    (s.installDes ctx).dealv = s.dealv := rfl
@[simp] theorem State.installDes_rjv (ctx : DesCtx) :
    (s.installDes ctx).rjv = s.rjv := rfl
@[simp] theorem State.installDes_modev (ctx : DesCtx) :
    (s.installDes ctx).modev = s.modevAfterKey .des := rfl
@[simp] theorem State.installDes_res (ctx : DesCtx) :
    (s.installDes ctx).res = s.res := rfl
@[simp] theorem State.installDes_klen (ctx : DesCtx) :
    (s.installDes ctx).klen = s.klen := rfl
@[simp] theorem State.installDes_ivlen (ctx : DesCtx) :
    (s.installDes ctx).ivlen = s.ivlen := rfl
@[simp] theorem State.installDes_dlen (ctx : DesCtx) :
    (s.installDes ctx).dlen = s.dlen := rfl
@[simp] theorem State.installDes_olen (ctx : DesCtx) :
    (s.installDes ctx).olen = s.olen := rfl
@[simp] theorem State.installDes_tlen (ctx : DesCtx) :
    (s.installDes ctx).tlen = s.tlen := rfl
@[simp] theorem State.installDes_mem (ctx : DesCtx) :
    (s.installDes ctx).mem = s.mem := rfl
@[simp] theorem State.installDes_desctx (ctx : DesCtx) :
    (s.installDes ctx).desctx = ctx := rfl
@[simp] theorem State.installDes_dealctx (ctx : DesCtx) :
    (s.installDes ctx).dealctx = s.dealctx := rfl
@[simp] theorem State.installDes_rjctx (ctx : DesCtx) :
    (s.installDes ctx).rjctx = s.rjctx := rfl
@[simp] theorem State.installDes_modectx (ctx : DesCtx) :
    (s.installDes ctx).modectx = s.modectx := rfl
@[simp] theorem State.installDes_params (ctx : DesCtx) :
    (s.installDes ctx).params = s.params := rfl
@[simp] theorem State.installDes_draws (ctx : DesCtx) :
    (s.installDes ctx).draws = s.draws := rfl
@[simp] theorem State.installDes_host (ctx : DesCtx) :
    (s.installDes ctx).host = s.host := rfl
@[simp] theorem State.installDes_resp (ctx : DesCtx) :
    (s.installDes ctx).resp = s.resp := rfl

/-! ### installDeal -/

@[simp] theorem State.installDeal_err (ctx : DealCtx) :
    (s.installDeal ctx).err = s.err := rfl
@[simp] theorem State.installDeal_errCode (ctx : DealCtx) :
    (s.installDeal ctx).errCode = s.errCode := rfl
@[simp] theorem State.installDeal_errInfo (ctx : DealCtx) :
    (s.installDeal ctx).errInfo = s.errInfo := rfl
@[simp] theorem State.installDeal_errCmd (ctx : DealCtx) :
    (s.installDeal ctx).errCmd = s.errCmd := rfl
@[simp] theorem State.installDeal_desv (ctx : DealCtx) :
    (s.installDeal ctx).desv = s.desv := rfl
@[simp] theorem State.installDeal_dealv (ctx : DealCtx) :
    (s.installDeal ctx).dealv = true := rfl
@[simp] theorem State.installDeal_rjv (ctx : DealCtx) :
    (s.installDeal ctx).rjv = s.rjv := rfl
@[simp] theorem State.installDeal_modev (ctx : DealCtx) :
    (s.installDeal ctx).modev = s.modevAfterKey .deal := rfl
@[simp] theorem State.installDeal_res (ctx : DealCtx) :
    (s.installDeal ctx).res = s.res := rfl
@[simp] theorem State.installDeal_klen (ctx : DealCtx) :
    (s.installDeal ctx).klen = s.klen := rfl
@[simp] theorem State.installDeal_ivlen (ctx : DealCtx) :
    (s.installDeal ctx).ivlen = s.ivlen := rfl
@[simp] theorem State.installDeal_dlen (ctx : DealCtx) :
    (s.installDeal ctx).dlen = s.dlen := rfl
@[simp] theorem State.installDeal_olen (ctx : DealCtx) :
    (s.installDeal ctx).olen = s.olen := rfl
@[simp] theorem State.installDeal_tlen (ctx : DealCtx) :
    (s.installDeal ctx).tlen = s.tlen := rfl
@[simp] theorem State.installDeal_mem (ctx : DealCtx) :
    (s.installDeal ctx).mem = s.mem := rfl
@[simp] theorem State.installDeal_desctx (ctx : DealCtx) :
    (s.installDeal ctx).desctx = s.desctx := rfl
@[simp] theorem State.installDeal_dealctx (ctx : DealCtx) :
    (s.installDeal ctx).dealctx = ctx := rfl
@[simp] theorem State.installDeal_rjctx (ctx : DealCtx) :
    (s.installDeal ctx).rjctx = s.rjctx := rfl
@[simp] theorem State.installDeal_modectx (ctx : DealCtx) :
    (s.installDeal ctx).modectx = s.modectx := rfl
@[simp] theorem State.installDeal_params (ctx : DealCtx) :
    (s.installDeal ctx).params = s.params := rfl
@[simp] theorem State.installDeal_draws (ctx : DealCtx) :
    (s.installDeal ctx).draws = s.draws := rfl
@[simp] theorem State.installDeal_host (ctx : DealCtx) :
    (s.installDeal ctx).host = s.host := rfl
@[simp] theorem State.installDeal_resp (ctx : DealCtx) :
    (s.installDeal ctx).resp = s.resp := rfl

/-! ### installRj -/

@[simp] theorem State.installRj_err (ctx : RjCtx) (sb isb : Bytes) :
    (s.installRj ctx sb isb).err = s.err := rfl
@[simp] theorem State.installRj_errCode (ctx : RjCtx) (sb isb : Bytes) :
    (s.installRj ctx sb isb).errCode = s.errCode := rfl
@[simp] theorem State.installRj_errInfo (ctx : RjCtx) (sb isb : Bytes) :
    (s.installRj ctx sb isb).errInfo = s.errInfo := rfl
@[simp] theorem State.installRj_errCmd (ctx : RjCtx) (sb isb : Bytes) :
    (s.installRj ctx sb isb).errCmd = s.errCmd := rfl
@[simp] theorem State.installRj_desv (ctx : RjCtx) (sb isb : Bytes) :
    (s.installRj ctx sb isb).desv = s.desv := rfl
@[simp] theorem State.installRj_dealv (ctx : RjCtx) (sb isb : Bytes) :
    (s.installRj ctx sb isb).dealv = s.dealv := rfl
@[simp] theorem State.installRj_rjv (ctx : RjCtx) (sb isb : Bytes) :
    (s.installRj ctx sb isb).rjv = true := rfl
@[simp] theorem State.installRj_modev (ctx : RjCtx) (sb isb : Bytes) :
    (s.installRj ctx sb isb).modev = s.modevAfterKey .rj := rfl
@[simp] theorem State.installRj_res (ctx : RjCtx) (sb isb : Bytes) :
    (s.installRj ctx sb isb).res = s.res := rfl
@[simp] theorem State.installRj_klen (ctx : RjCtx) (sb isb : Bytes) :
    (s.installRj ctx sb isb).klen = s.klen := rfl
@[simp] theorem State.installRj_ivlen (ctx : RjCtx) (sb isb : Bytes) :
    (s.installRj ctx sb isb).ivlen = s.ivlen := rfl
@[simp] theorem State.installRj_dlen (ctx : RjCtx) (sb isb : Bytes) :
    (s.installRj ctx sb isb).dlen = s.dlen := rfl
@[simp] theorem State.installRj_olen (ctx : RjCtx) (sb isb : Bytes) :
    (s.installRj ctx sb isb).olen = s.olen := rfl
@[simp] theorem State.installRj_tlen (ctx : RjCtx) (sb isb : Bytes) :
    (s.installRj ctx sb isb).tlen = s.tlen := rfl
@[simp] theorem State.installRj_mem (ctx : RjCtx) (sb isb : Bytes) :
    (s.installRj ctx sb isb).mem = (s.mem.write sboxBase sb).write isboxBase isb := rfl
@[simp] theorem State.installRj_desctx (ctx : RjCtx) (sb isb : Bytes) :
    (s.installRj ctx sb isb).desctx = s.desctx := rfl
@[simp] theorem State.installRj_dealctx (ctx : RjCtx) (sb isb : Bytes) :
    (s.installRj ctx sb isb).dealctx = s.dealctx := rfl
@[simp] theorem State.installRj_rjctx (ctx : RjCtx) (sb isb : Bytes) :
    (s.installRj ctx sb isb).rjctx = ctx := rfl
@[simp] theorem State.installRj_modectx (ctx : RjCtx) (sb isb : Bytes) :
    (s.installRj ctx sb isb).modectx = s.modectx := rfl
@[simp] theorem State.installRj_params (ctx : RjCtx) (sb isb : Bytes) :
    (s.installRj ctx sb isb).params = s.params := rfl
@[simp] theorem State.installRj_draws (ctx : RjCtx) (sb isb : Bytes) :
    (s.installRj ctx sb isb).draws = s.draws := rfl
@[simp] theorem State.installRj_host (ctx : RjCtx) (sb isb : Bytes) :
    (s.installRj ctx sb isb).host = s.host := rfl
@[simp] theorem State.installRj_resp (ctx : RjCtx) (sb isb : Bytes) :
    (s.installRj ctx sb isb).resp = s.resp := rfl

/-! ### installMode -/

@[simp] theorem State.installMode_err (ctx : ModeCtx) :
    (s.installMode ctx).err = s.err := rfl
@[simp] theorem State.installMode_errCode (ctx : ModeCtx) :
    (s.installMode ctx).errCode = s.errCode := rfl
@[simp] theorem State.installMode_errInfo (ctx : ModeCtx) :
    (s.installMode ctx).errInfo = s.errInfo := rfl
@[simp] theorem State.installMode_errCmd (ctx : ModeCtx) :
    (s.installMode ctx).errCmd = s.errCmd := rfl
@[simp] theorem State.installMode_desv (ctx : ModeCtx) :
    (s.installMode ctx).desv = s.desv := rfl
@[simp] theorem State.installMode_dealv (ctx : ModeCtx) :
    (s.installMode ctx).dealv = s.dealv := rfl
@[simp] theorem State.installMode_rjv (ctx : ModeCtx) :
    (s.installMode ctx).rjv = s.rjv := rfl
@[simp] theorem State.installMode_modev (ctx : ModeCtx) :
    (s.installMode ctx).modev = true := rfl
@[simp] theorem State.installMode_res (ctx : ModeCtx) :
    (s.installMode ctx).res = s.res := rfl
@[simp] theorem State.installMode_klen (ctx : ModeCtx) :
    (s.installMode ctx).klen = s.klen := rfl
@[simp] theorem State.installMode_ivlen (ctx : ModeCtx) :
    (s.installMode ctx).ivlen = s.ivlen := rfl
@[simp] theorem State.installMode_dlen (ctx : ModeCtx) :
    (s.installMode ctx).dlen = s.dlen := rfl
@[simp] theorem State.installMode_olen (ctx : ModeCtx) :
    (s.installMode ctx).olen = s.olen := rfl
@[simp] theorem State.installMode_tlen (ctx : ModeCtx) :
    (s.installMode ctx).tlen = s.tlen := rfl
@[simp] theorem State.installMode_mem (ctx : ModeCtx) :
    (s.installMode ctx).mem = s.mem := rfl
@[simp] theorem State.installMode_desctx (ctx : ModeCtx) :
    (s.installMode ctx).desctx = s.desctx := rfl
@[simp] theorem State.installMode_dealctx (ctx : ModeCtx) :
    (s.installMode ctx).dealctx = s.dealctx := rfl
@[simp] theorem State.installMode_rjctx (ctx : ModeCtx) :
    (s.installMode ctx).rjctx = s.rjctx := rfl
@[simp] theorem State.installMode_modectx (ctx : ModeCtx) :
    (s.installMode ctx).modectx = ctx := rfl
@[simp] theorem State.installMode_params (ctx : ModeCtx) :
    (s.installMode ctx).params = s.params := rfl
@[simp] theorem State.installMode_draws (ctx : ModeCtx) :
    (s.installMode ctx).draws = s.draws := rfl
@[simp] theorem State.installMode_host (ctx : ModeCtx) :
    (s.installMode ctx).host = s.host := rfl
@[simp] theorem State.installMode_resp (ctx : ModeCtx) :
    (s.installMode ctx).resp = s.resp := rfl

/-! ### writeWord -/

@[simp] theorem State.writeWord_err (a : Nat) (v : Word) :
    (s.writeWord a v).err = s.err := rfl
@[simp] theorem State.writeWord_errCode (a : Nat) (v : Word) :
    (s.writeWord a v).errCode = s.errCode := rfl
@[simp] theorem State.writeWord_errInfo (a : Nat) (v : Word) :
    (s.writeWord a v).errInfo = s.errInfo := rfl
@[simp] theorem State.writeWord_errCmd (a : Nat) (v : Word) :
    (s.writeWord a v).errCmd = s.errCmd := rfl
@[simp] theorem State.writeWord_desv (a : Nat) (v : Word) :
    (s.writeWord a v).desv = s.desv := rfl
@[simp] theorem State.writeWord_dealv (a : Nat) (v : Word) :
    (s.writeWord a v).dealv = s.dealv := rfl
@[simp] theorem State.writeWord_rjv (a : Nat) (v : Word) :
    (s.writeWord a v).rjv = s.rjv := rfl
@[simp] theorem State.writeWord_modev (a : Nat) (v : Word) :
    (s.writeWord a v).modev = s.modev := rfl
@[simp] theorem State.writeWord_res (a : Nat) (v : Word) :
    (s.writeWord a v).res = s.res := rfl
@[simp] theorem State.writeWord_klen (a : Nat) (v : Word) :
    (s.writeWord a v).klen = s.klen := rfl
@[simp] theorem State.writeWord_ivlen (a : Nat) (v : Word) :
    (s.writeWord a v).ivlen = s.ivlen := rfl
@[simp] theorem State.writeWord_dlen (a : Nat) (v : Word) :
    (s.writeWord a v).dlen = s.dlen := rfl
@[simp] theorem State.writeWord_olen (a : Nat) (v : Word) :
    (s.writeWord a v).olen = s.olen := rfl
@[simp] theorem State.writeWord_tlen (a : Nat) (v : Word) :
    (s.writeWord a v).tlen = s.tlen := rfl
@[simp] theorem State.writeWord_mem (a : Nat) (v : Word) :
    (s.writeWord a v).mem = s.mem.write a (bytesOfWord v) := rfl
@[simp] theorem State.writeWord_desctx (a : Nat) (v : Word) :
    (s.writeWord a v).desctx = s.desctx := rfl
@[simp] theorem State.writeWord_dealctx (a : Nat) (v : Word) :
    (s.writeWord a v).dealctx = s.dealctx := rfl
@[simp] theorem State.writeWord_rjctx (a : Nat) (v : Word) :
    (s.writeWord a v).rjctx = s.rjctx := rfl
@[simp] theorem State.writeWord_modectx (a : Nat) (v : Word) :
    (s.writeWord a v).modectx = s.modectx := rfl
@[simp] theorem State.writeWord_params (a : Nat) (v : Word) :
    (s.writeWord a v).params = s.params := rfl
@[simp] theorem State.writeWord_draws (a : Nat) (v : Word) :
    (s.writeWord a v).draws = s.draws := rfl
@[simp] theorem State.writeWord_host (a : Nat) (v : Word) :
    (s.writeWord a v).host = s.host := rfl
@[simp] theorem State.writeWord_resp (a : Nat) (v : Word) :
    (s.writeWord a v).resp = s.resp := rfl

/-! ### answer -/

@[simp] theorem State.answer_err (r : BusResp) :
    (s.answer r).err = s.err := rfl
@[simp] theorem State.answer_errCode (r : BusResp) :
    (s.answer r).errCode = s.errCode := rfl
@[simp] theorem State.answer_errInfo (r : BusResp) :
    (s.answer r).errInfo = s.errInfo := rfl
@[simp] theorem State.answer_errCmd (r : BusResp) :
    (s.answer r).errCmd = s.errCmd := rfl
@[simp] theorem State.answer_desv (r : BusResp) :
    (s.answer r).desv = s.desv := rfl
@[simp] theorem State.answer_dealv (r : BusResp) :
    (s.answer r).dealv = s.dealv := rfl
@[simp] theorem State.answer_rjv (r : BusResp) :
    (s.answer r).rjv = s.rjv := rfl
@[simp] theorem State.answer_modev (r : BusResp) :
    (s.answer r).modev = s.modev := rfl
@[simp] theorem State.answer_res (r : BusResp) :
    (s.answer r).res = s.res := rfl
@[simp] theorem State.answer_klen (r : BusResp) :
    (s.answer r).klen = s.klen := rfl
@[simp] theorem State.answer_ivlen (r : BusResp) :
    (s.answer r).ivlen = s.ivlen := rfl
@[simp] theorem State.answer_dlen (r : BusResp) :
    (s.answer r).dlen = s.dlen := rfl
@[simp] theorem State.answer_olen (r : BusResp) :
    (s.answer r).olen = s.olen := rfl
@[simp] theorem State.answer_tlen (r : BusResp) :
    (s.answer r).tlen = s.tlen := rfl
@[simp] theorem State.answer_mem (r : BusResp) :
    (s.answer r).mem = s.mem := rfl
@[simp] theorem State.answer_desctx (r : BusResp) :
    (s.answer r).desctx = s.desctx := rfl
@[simp] theorem State.answer_dealctx (r : BusResp) :
    (s.answer r).dealctx = s.dealctx := rfl
@[simp] theorem State.answer_rjctx (r : BusResp) :
    (s.answer r).rjctx = s.rjctx := rfl
@[simp] theorem State.answer_modectx (r : BusResp) :
    (s.answer r).modectx = s.modectx := rfl
@[simp] theorem State.answer_params (r : BusResp) :
    (s.answer r).params = s.params := rfl
@[simp] theorem State.answer_draws (r : BusResp) :
    (s.answer r).draws = s.draws := rfl
@[simp] theorem State.answer_host (r : BusResp) :
    (s.answer r).host = s.host := rfl
@[simp] theorem State.answer_resp (r : BusResp) :
    (s.answer r).resp = some r := rfl

/-! ### issueNext -/

@[simp] theorem State.issueNext_err (t : HostTxn) :
    (s.issueNext t).err = s.err := rfl
@[simp] theorem State.issueNext_errCode (t : HostTxn) :
    (s.issueNext t).errCode = s.errCode := rfl
@[simp] theorem State.issueNext_errInfo (t : HostTxn) :
    (s.issueNext t).errInfo = s.errInfo := rfl
@[simp] theorem State.issueNext_errCmd (t : HostTxn) :
    (s.issueNext t).errCmd = s.errCmd := rfl
@[simp] theorem State.issueNext_desv (t : HostTxn) :
    (s.issueNext t).desv = s.desv := rfl
@[simp] theorem State.issueNext_dealv (t : HostTxn) :
    (s.issueNext t).dealv = s.dealv := rfl
@[simp] theorem State.issueNext_rjv (t : HostTxn) :
    (s.issueNext t).rjv = s.rjv := rfl
@[simp] theorem State.issueNext_modev (t : HostTxn) :
    (s.issueNext t).modev = s.modev := rfl
@[simp] theorem State.issueNext_res (t : HostTxn) :
    (s.issueNext t).res = s.res := rfl
@[simp] theorem State.issueNext_klen (t : HostTxn) :
    (s.issueNext t).klen = s.klen := rfl
@[simp] theorem State.issueNext_ivlen (t : HostTxn) :
    (s.issueNext t).ivlen = s.ivlen := rfl
@[simp] theorem State.issueNext_dlen (t : HostTxn) :
    (s.issueNext t).dlen = s.dlen := rfl
@[simp] theorem State.issueNext_olen (t : HostTxn) :
    (s.issueNext t).olen = s.olen := rfl
@[simp] theorem State.issueNext_tlen (t : HostTxn) :
    (s.issueNext t).tlen = s.tlen := rfl
@[simp] theorem State.issueNext_mem (t : HostTxn) :
    (s.issueNext t).mem = s.mem := rfl
@[simp] theorem State.issueNext_desctx (t : HostTxn) :
    (s.issueNext t).desctx = s.desctx := rfl
@[simp] theorem State.issueNext_dealctx (t : HostTxn) :
    (s.issueNext t).dealctx = s.dealctx := rfl
@[simp] theorem State.issueNext_rjctx (t : HostTxn) :
    (s.issueNext t).rjctx = s.rjctx := rfl
@[simp] theorem State.issueNext_modectx (t : HostTxn) :
    (s.issueNext t).modectx = s.modectx := rfl
@[simp] theorem State.issueNext_params (t : HostTxn) :
    (s.issueNext t).params = s.params := rfl
@[simp] theorem State.issueNext_draws (t : HostTxn) :
    (s.issueNext t).draws = s.draws := rfl
@[simp] theorem State.issueNext_host (t : HostTxn) :
    (s.issueNext t).host = t :: s.host := rfl
@[simp] theorem State.issueNext_resp (t : HostTxn) :
    (s.issueNext t).resp = s.resp := rfl

/-! ### resetCore -/

@[simp] theorem State.resetCore_err : s.resetCore.err = State.reset.err := rfl
@[simp] theorem State.resetCore_errCode : s.resetCore.errCode = State.reset.errCode := rfl
@[simp] theorem State.resetCore_errInfo : s.resetCore.errInfo = State.reset.errInfo := rfl
@[simp] theorem State.resetCore_errCmd : s.resetCore.errCmd = State.reset.errCmd := rfl
@[simp] theorem State.resetCore_desv : s.resetCore.desv = State.reset.desv := rfl
@[simp] theorem State.resetCore_dealv : s.resetCore.dealv = State.reset.dealv := rfl
@[simp] theorem State.resetCore_rjv : s.resetCore.rjv = State.reset.rjv := rfl
@[simp] theorem State.resetCore_modev : s.resetCore.modev = State.reset.modev := rfl
@[simp] theorem State.resetCore_res : s.resetCore.res = State.reset.res := rfl
@[simp] theorem State.resetCore_klen : s.resetCore.klen = State.reset.klen := rfl
@[simp] theorem State.resetCore_ivlen : s.resetCore.ivlen = State.reset.ivlen := rfl
@[simp] theorem State.resetCore_dlen : s.resetCore.dlen = State.reset.dlen := rfl
@[simp] theorem State.resetCore_olen : s.resetCore.olen = State.reset.olen := rfl
@[simp] theorem State.resetCore_tlen : s.resetCore.tlen = State.reset.tlen := rfl
@[simp] theorem State.resetCore_mem : s.resetCore.mem = State.reset.mem := rfl
@[simp] theorem State.resetCore_desctx : s.resetCore.desctx = State.reset.desctx := rfl
@[simp] theorem State.resetCore_dealctx : s.resetCore.dealctx = State.reset.dealctx := rfl
@[simp] theorem State.resetCore_rjctx : s.resetCore.rjctx = State.reset.rjctx := rfl
@[simp] theorem State.resetCore_modectx : s.resetCore.modectx = State.reset.modectx := rfl
@[simp] theorem State.resetCore_params : s.resetCore.params = s.params := rfl
@[simp] theorem State.resetCore_draws : s.resetCore.draws = s.draws := rfl
@[simp] theorem State.resetCore_host : s.resetCore.host = s.host := rfl
@[simp] theorem State.resetCore_resp : s.resetCore.resp = s.resp := rfl

end Sys2Proof.Machine
end

