-- ==== Sys2Proof/Laws/Exec.lean ====
section
/-!
SUPPORT. Everything a command can do, said once: `exec_effect`. With it the lengths of what the data commands put
into DOUT.
-/

namespace Sys2Proof.Machine

/-! ### Lengths of outputs -/

theorem addRoundKey_length {ctx : RjCtx} {rnd : Nat} {M : List Col} (hw : ctx.w.length = ctx.nb * (ctx.nr + 1))
    (hr : rnd ≤ ctx.nr) (hM : M.length = ctx.nb) : (addRoundKey ctx rnd M).length = ctx.nb := by
  simp [addRoundKey, roundKey_length hw hr, hM]

/-- Full rounds of encryption keep the number of columns. -/
theorem rjRounds_length {ctx : RjCtx} {sb : Byte → Byte} (hw : ctx.w.length = ctx.nb * (ctx.nr + 1)) (l : List Nat)
    (hl : ∀ r ∈ l, r ≤ ctx.nr) {M : List Col} (hM : M.length = ctx.nb) :
    (l.foldl (rjRound ctx sb) M).length = ctx.nb := by
  induction l generalizing M with
  | nil => exact hM
  | cons r l ih =>
    exact ih (fun x hx => hl x (by simp [hx])) (addRoundKey_length hw (hl r (by simp)) (by simp [hM]))

/-- Full rounds of decryption keep the number of columns. -/
theorem rjInvRounds_length {ctx : RjCtx} {isb : Byte → Byte} (hw : ctx.w.length = ctx.nb * (ctx.nr + 1))
    (l : List Nat) (hl : ∀ r ∈ l, r ≤ ctx.nr) {M : List Col} (hM : M.length = ctx.nb) :
    (l.foldl (rjInvRound ctx isb) M).length = ctx.nb := by
  induction l generalizing M with
  | nil => exact hM
  | cons r l ih =>
    refine ih (fun x hx => hl x (by simp [hx])) ?_
    rw [rjInvRound, invMixColumns_length]
    exact addRoundKey_length hw (hl r (by simp)) (by simp [hM])

theorem rjEncrypt_length {ctx : RjCtx} (hw : ctx.w.length = ctx.nb * (ctx.nr + 1)) (sb : Byte → Byte) (B : Bytes) :
    (rjEncrypt ctx sb B).length = 4 * ctx.nb := by
  simp only [rjEncrypt, bytesOf_length, rjEncryptCols]
  rw [addRoundKey_length hw (Nat.le_refl _)]
  simp only [shiftRows_length, subBytes_length]
  refine rjRounds_length hw _ (fun r hr => ?_) (addRoundKey_length hw (Nat.zero_le _) (by simp))
  simp at hr
  omega

theorem rjDecrypt_length {ctx : RjCtx} (hw : ctx.w.length = ctx.nb * (ctx.nr + 1)) (isb : Byte → Byte) (B : Bytes) :
    (rjDecrypt ctx isb B).length = 4 * ctx.nb := by
  simp only [rjDecrypt, bytesOf_length, rjDecryptCols]
  rw [addRoundKey_length hw (Nat.zero_le _)]
  simp only [invShiftRows_length, subBytes_length]
  refine rjInvRounds_length hw _ (fun r hr => ?_) (addRoundKey_length hw (Nat.le_refl _) (by simp))
  simp at hr
  omega

/-- A cipher whose two functions give blocks of `bs` bytes. -/
structure BlockCipher.Sized (c : BlockCipher) (bs : Nat) : Prop where
  enc : ∀ b, (c.E b).length = bs
  dec : ∀ b, (c.D b).length = bs

/-- The bound cipher of a valid mode gives blocks of the captured size. -/
theorem State.Coherent.sized {s : State} (h : s.Coherent) (hm : s.modev = true) :
    (s.blockCipher s.modectx.cipher).Sized s.modectx.bs := by
  obtain ⟨hv, hbs, -⟩ := h.modeValid hm
  rw [hbs]
  cases hc : s.modectx.cipher <;> rw [hc] at hv
  · exact ⟨fun _ => desBytes_length _ _ _, fun _ => desBytes_length _ _ _⟩
  · exact ⟨fun _ => dealBytes_length _ _ _, fun _ => dealBytes_length _ _ _⟩
  · have hw := (h.rjValid hv).1.columns
    exact ⟨fun _ => rjEncrypt_length hw _ _, fun _ => rjDecrypt_length hw _ _⟩

/-- Every block of the output of a mode has the block size. -/
theorem modeEncrypt_blocks {md : Mode} {c : BlockCipher} {bs : Nat} {iv : Bytes} (hc : c.Sized bs) {X : List Bytes}
    (hX : ∀ b ∈ X, b.length = bs) : ∀ b ∈ modeEncrypt md c bs iv X, b.length = bs := by
  have hE := hc.enc
  cases md <;> simp only [modeEncrypt, mapBlocks]
  · intro b hb
    obtain ⟨i, hi, rfl⟩ := List.mem_mapIdx.1 hb
    exact hE _
  · induction X generalizing iv with
    | nil => simp [cbcEnc]
    | cons x X ih =>
      simp only [cbcEnc, List.mem_cons, forall_eq_or_imp]
      exact ⟨hE _, ih fun b hb => hX b (by simp [hb])⟩
  · induction X generalizing iv with
    | nil => simp [pcbcEnc]
    | cons x X ih =>
      simp only [pcbcEnc, List.mem_cons, forall_eq_or_imp]
      exact ⟨hE _, ih fun b hb => hX b (by simp [hb])⟩
  · induction X generalizing iv with
    | nil => simp [cfbEnc]
    | cons x X ih =>
      simp only [cfbEnc, List.mem_cons, forall_eq_or_imp]
      exact ⟨by simp [hE, hX x (by simp)], ih fun b hb => hX b (by simp [hb])⟩
  · induction X generalizing iv with
    | nil => simp [ofbCrypt]
    | cons x X ih =>
      simp only [ofbCrypt, List.mem_cons, forall_eq_or_imp]
      exact ⟨by simp [hE, hX x (by simp)], ih fun b hb => hX b (by simp [hb])⟩
  · intro b hb
    obtain ⟨i, hi, rfl⟩ := List.mem_mapIdx.1 hb
    simp [hE, hX _ (List.getElem_mem hi)]
  · intro b hb
    obtain ⟨i, hi, rfl⟩ := List.mem_mapIdx.1 hb
    exact hE _

theorem modeDecrypt_blocks {md : Mode} {c : BlockCipher} {bs : Nat} {iv : Bytes} (hc : c.Sized bs)
    (hiv : md = .cbc ∨ md = .pcbc → iv.length = bs) {X : List Bytes}
    (hX : ∀ b ∈ X, b.length = bs) : ∀ b ∈ modeDecrypt md c bs iv X, b.length = bs := by
  have hE := hc.enc
  have hD := hc.dec
  cases md <;> simp only [modeDecrypt, mapBlocks]
  · intro b hb
    obtain ⟨i, hi, rfl⟩ := List.mem_mapIdx.1 hb
    exact hD _
  · replace hiv := hiv (.inl rfl)
    induction X generalizing iv with
    | nil => simp [cbcDec]
    | cons x X ih =>
      simp only [cbcDec, List.mem_cons, forall_eq_or_imp]
      exact ⟨by simp [hD, hiv], ih (fun b hb => hX b (by simp [hb])) (hX x (by simp))⟩
  · replace hiv := hiv (.inr rfl)
    induction X generalizing iv with
    | nil => simp [pcbcDec]
    | cons x X ih =>
      simp only [pcbcDec, List.mem_cons, forall_eq_or_imp]
      exact ⟨by simp [hD, hiv], ih (fun b hb => hX b (by simp [hb])) (by simp [hD, hiv, hX x (by simp)])⟩
  · clear hiv
    induction X generalizing iv with
    | nil => simp [cfbDec]
    | cons x X ih =>
      simp only [cfbDec, List.mem_cons, forall_eq_or_imp]
      exact ⟨by simp [hE, hX x (by simp)], ih fun b hb => hX b (by simp [hb])⟩
  · clear hiv
    induction X generalizing iv with
    | nil => simp [ofbCrypt]
    | cons x X ih =>
      simp only [ofbCrypt, List.mem_cons, forall_eq_or_imp]
      exact ⟨by simp [hE, hX x (by simp)], ih fun b hb => hX b (by simp [hb])⟩
  · intro b hb
    obtain ⟨i, hi, rfl⟩ := List.mem_mapIdx.1 hb
    simp [hE, hX _ (List.getElem_mem hi)]
  · intro b hb
    obtain ⟨i, hi, rfl⟩ := List.mem_mapIdx.1 hb
    simp [hD, rdTerm]

@[simp] theorem modeEncrypt_length (md : Mode) (c : BlockCipher) (bs : Nat) (iv : Bytes) (X : List Bytes) :
    (modeEncrypt md c bs iv X).length = X.length := by
  cases md <;> simp only [modeEncrypt, mapBlocks, List.length_mapIdx]
  all_goals
    induction X generalizing iv with
    | nil => rfl
    | cons x X ih => simp [cbcEnc, pcbcEnc, cfbEnc, ofbCrypt, ih]

@[simp] theorem modeDecrypt_length (md : Mode) (c : BlockCipher) (bs : Nat) (iv : Bytes) (X : List Bytes) :
    (modeDecrypt md c bs iv X).length = X.length := by
  cases md <;> simp only [modeDecrypt, mapBlocks, List.length_mapIdx]
  all_goals
    induction X generalizing iv with
    | nil => rfl
    | cons x X ih => simp [cbcDec, pcbcDec, cfbDec, ofbCrypt, ih]

/-- Blocks of `bs` bytes joined. -/
theorem flatten_length {bs : Nat} {X : List Bytes} (h : ∀ b ∈ X, b.length = bs) :
    X.flatten.length = X.length * bs := by
  induction X with
  | nil => simp
  | cons x X ih =>
    rw [List.flatten_cons, List.length_append, h x (by simp), ih fun b hb => h b (by simp [hb]), List.length_cons,
      Nat.succ_mul, Nat.add_comm]

/-- The blocks of DIN when DLEN is a multiple of the block size. -/
theorem din_blocks {s : State} {bs : Nat} (h : s.dlen.toNat % bs = 0) :
    ∀ b ∈ blocksOf bs (s.dlen.toNat / bs) s.din, b.length = bs := by
  intro b hb
  refine length_of_mem_blocksOf ?_ hb
  rw [State.din, Memory.readRange_length, Nat.div_mul_cancel (Nat.dvd_of_mod_eq_zero h)]

/-- The IV of a valid mode of the CBC kind is one block. -/
theorem State.Coherent.civ_length {s : State} (h : s.Coherent) (hm : s.modev = true)
    (hb : s.modectx.mode = .cbc ∨ s.modectx.mode = .pcbc ∨ s.modectx.mode = .cfb ∨ s.modectx.mode = .ofb) :
    s.modectx.civ.length = s.modectx.bs := by
  obtain ⟨-, -, -, hiv⟩ := h.modeValid hm
  rcases hb with hb | hb | hb | hb <;>
  · have := (hiv (by simp [hb])).2
    rw [hb] at this
    simpa [ivLenBad] using (by simpa [ivLenBad] using this : _ ∧ _).2

theorem padAdd_length (sc : Scheme) (X : Bytes) (bs start : Nat) (h : 0 < bs) :
    (padAdd sc X bs start).length =
      if sc = .zeros ∧ X.length % bs = 0 then X.length else X.length + padCount X.length bs := by
  have hn : 0 < padCount X.length bs := by
    have := Nat.mod_lt X.length h
    unfold padCount
    omega
  cases sc <;> simp [padAdd, rngBytes]
  · omega
  · omega
  · split <;> simp_all

theorem packBits_length (b : List Bool) : (packBits b).length = (b.length + 7) / 8 := by simp [packBits]

theorem rearrange_length {I : Bytes} {lz : Nat} {T : List Int} {rule : PermRule} {O : Bytes}
    (h : rearrange I lz T rule = .ok O) : O.length = (T.length + 7) / 8 := by
  unfold rearrange at h
  split at h
  · cases h
  · cases h
    simp [packBits_length]

theorem removeDefault_length {Y X : Bytes} (h : removeDefault Y = .ok X) : X.length ≤ Y.length := by
  unfold removeDefault at h
  split at h
  · cases h
  · split at h
    · cases h
    · cases h
      simp

theorem removeZeros_length (Y : Bytes) : (removeZeros Y).length ≤ Y.length := by
  rw [removeZeros, List.length_reverse]
  exact (List.length_dropWhile_le _ _).trans (by simp)

/-! ### What a command can do -/

/-- The causes a command can raise (60_exceptions.md R363); ILLEGAL_CMD for the padding terms no word decodes to
(log 9). -/
def errorsOf (i : Instr) : List ErrCode :=
  match i.op with
  | .nop | .clrerr | .sreset | .otoi | .gfadd => []
  | .gfmul | .gfpow | .gfinv | .gfirr => [.arithZeroMod]
  | .pdiv | .prem => [.arithDivZero]
  | .perm => [.lenLimit, .permRange]
  | .deskey | .dealkey => [.cfgKeylen]
  | .rjkey => [.cfgBlocklen, .cfgKeylen, .arithZeroMod, .cfgModulus]
  | .desenc | .desdec | .dealenc | .dealdec | .rjenc | .rjdec => [.notReady, .lenBlock]
  | .minit => [.notReady, .cfgIvMissing, .cfgIvLen]
  | .menc | .mdec => [.notReady, .lenLimit, .lenUnaligned]
  | .padadd => if i.wellFormed then [.lenLimit] else [.illegalCmd]
  | .padrem =>
    if i.wellFormed then (match i with | .padremZeros _ => [.lenLimit] | _ => [.lenLimit, .padBadcount])
    else [.illegalCmd]

/-- The commands that write RES. -/
def scalarOps : List Op := [.gfadd, .gfmul, .gfpow, .gfinv, .gfirr, .pdiv, .prem]

/-- The commands that write DOUT and OLEN. -/
def dataOps : List Op :=
  [.perm, .desenc, .desdec, .dealenc, .dealdec, .rjenc, .rjdec, .menc, .mdec, .padadd, .padrem]

/-- The next states of a command, by what its rule lets it write (47_system.md R354). -/
inductive Effect (i : Instr) (s : State) : State → Prop
  | ignored (he : s.err = true) (hc : i ≠ .clrerr) (hs : i ≠ .sreset) : Effect i s s
  | nothing (he : s.err = false) (hi : i = .nop) : Effect i s s
  | acknowledge (hi : i = .clrerr) : Effect i s s.clearLatch
  | restart (hi : i = .sreset) : Effect i s s.resetCore
  | copy (he : s.err = false) (hi : i = .otoi) : Effect i s s.copyOutToIn
  | raised (he : s.err = false) (c : ErrCode) (info : Word) (hc : c ∈ errorsOf i) :
      Effect i s (s.latchError (encode i) c info)
  | scalar (he : s.err = false) (hi : i.op ∈ scalarOps) (v : Nat) : Effect i s (s.setRes v)
  | data (he : s.err = false) (hi : i.op ∈ dataOps) (n : Nat) (O : Bytes) (d : Nat)
      (hd : d = 0 ∨ ∃ bs, i = .padaddIso bs)
      (hn : s.Coherent → O.length = n ∧ n ≤ s.params.bufBytes) : Effect i s ((s.emit n O).drew d)
  | keyDes (he : s.err = false) (hi : i = .deskey) (hk : s.klen.toNat = 8) :
      Effect i s (s.installDes { keys := desKs (be64 s.keyBytes) })
  | keyDeal (he : s.err = false) (hi : i = .dealkey) (hk : keyLen3 s.klen.toNat = true) :
      Effect i s (s.installDeal
        { n := dealRounds s.klen.toNat, rk := dealKs (desKs dealKdfKey) s.keyBytes })
  | keyRj (he : s.err = false) (bsz md : Byte) (hi : i = .rjkey bsz md) (hb : rjSizeOk bsz.toNat = true)
      (hk : rjSizeOk s.klen.toNat = true) (hm : md ≠ 0) (hr : gfIrr md = true) :
      Effect i s (s.installRj (rjContext s.keyBytes bsz.toNat md) (sboxTable md) (isboxTable md))
  | mode (he : s.err = false) (md : Mode) (c : Cipher) (hi : i = .ofMinit c md) (hv : s.cipherValid c = true)
      (civ : Bytes) (hc : md = .ecb ∧ civ = [] ∨
        md ≠ .ecb ∧ civ = s.ivBytes ∧ s.ivlen.toNat ≠ 0 ∧ ivLenBad md s.ivlen.toNat (s.blockSize c) = false) :
      Effect i s (s.installMode { mode := md, cipher := c, bs := s.blockSize c, civ := civ })

variable {s t : State}

theorem Effect.of_gf {i : Instr} {m : Byte} {r : Nat} (hi : i.op ∈ scalarOps) (he : ErrCode.arithZeroMod ∈ errorsOf i)
    (hc : i ≠ .clrerr) (hs : i ≠ .sreset) (h : gfCommand s (encode i) m r = .next t) : Effect i s t := by
  rcases gfCommand_next.1 h with ⟨h0, rfl⟩ | ⟨h0, ⟨-, rfl⟩ | ⟨-, rfl⟩⟩
  · exact .ignored h0 hc hs
  · exact .raised h0 _ _ he
  · exact .scalar h0 hi _

theorem Effect.of_div {i : Instr} {y : Byte} {r : Nat} (hi : i.op ∈ scalarOps) (he : ErrCode.arithDivZero ∈ errorsOf i)
    (hc : i ≠ .clrerr) (hs : i ≠ .sreset) (h : divCommand s (encode i) y r = .next t) : Effect i s t := by
  rcases divCommand_next.1 h with ⟨h0, rfl⟩ | ⟨h0, ⟨-, rfl⟩ | ⟨-, rfl⟩⟩
  · exact .ignored h0 hc hs
  · exact .raised h0 _ _ he
  · exact .scalar h0 hi _

theorem Effect.of_rawBlock {i : Instr} {valid : Bool} {bs : Nat} {f : Bytes → Bytes} (hi : i.op ∈ dataOps)
    (he : ErrCode.notReady ∈ errorsOf i ∧ ErrCode.lenBlock ∈ errorsOf i) (hc : i ≠ .clrerr) (hs : i ≠ .sreset)
    (hf : s.Coherent → valid = true → ∀ b, (f b).length = bs ∧ bs ≤ 32)
    (h : rawBlock s (encode i) valid bs f = .next t) : Effect i s t := by
  rcases rawBlock_next.1 h with ⟨h0, rfl⟩ | ⟨h0, ⟨-, rfl⟩ | ⟨-, -, rfl⟩ | ⟨hv, -, rfl⟩⟩
  · exact .ignored h0 hc hs
  · exact .raised h0 _ _ he.1
  · exact .raised h0 _ _ he.2
  · refine .data h0 hi _ _ 0 (.inl rfl) fun hcoh => ?_
    have := hf hcoh hv s.din
    have := hcoh.params.2.1
    omega

theorem Effect.of_modeData {i : Instr} {f : List Bytes → List Bytes} (hi : i.op ∈ dataOps)
    (he : ErrCode.notReady ∈ errorsOf i ∧ ErrCode.lenLimit ∈ errorsOf i ∧ ErrCode.lenUnaligned ∈ errorsOf i)
    (hc : i ≠ .clrerr) (hs : i ≠ .sreset)
    (hf : s.Coherent → s.modev = true → ∀ X : List Bytes, (∀ b ∈ X, b.length = s.modectx.bs) →
      (f X).length = X.length ∧ ∀ b ∈ f X, b.length = s.modectx.bs)
    (h : modeData (encode i) f s = .next t) : Effect i s t := by
  rcases modeData_next.1 h with ⟨h0, rfl⟩ | ⟨h0, ⟨-, rfl⟩ | ⟨-, -, rfl⟩ | ⟨-, -, -, rfl⟩ | ⟨hv, hl, hm, rfl⟩⟩
  · exact .ignored h0 hc hs
  · exact .raised h0 _ _ he.1
  · exact .raised h0 _ _ he.2.1
  · exact .raised h0 _ _ he.2.2
  · refine .data h0 hi _ _ 0 (.inl rfl) fun hcoh => ⟨?_, hl⟩
    obtain ⟨h1, h2⟩ := hf hcoh hv _ (din_blocks hm)
    rw [flatten_length h2, h1, blocksOf_length, Nat.div_mul_cancel (Nat.dvd_of_mod_eq_zero hm)]

theorem Effect.of_padadd {sc : Scheme} {bs : Byte} (h : padaddCommand sc bs (encode (.ofPadadd bs sc)) s = .next t) :
    Effect (.ofPadadd bs sc) s t := by
  have hop : (Instr.ofPadadd bs sc).op ∈ dataOps := by cases sc <;> simp [dataOps, Instr.op, Instr.ofPadadd]
  have hl : bs ≠ 0 → ErrCode.lenLimit ∈ errorsOf (.ofPadadd bs sc) := by
    intro hb
    have hb : bs ≠ 0#8 := hb
    cases sc <;> simp [errorsOf, Instr.ofPadadd, Instr.op, Instr.wellFormed, blockSizeOk, hb]
  rcases padaddCommand_next.1 h with
    ⟨h0, rfl⟩ | ⟨h0, ⟨rfl, rfl⟩ | ⟨hb, -, rfl⟩ | ⟨hb, -, -, rfl⟩ | ⟨-, -, hy, rfl⟩⟩
  · exact .ignored h0 (by cases sc <;> simp [Instr.ofPadadd]) (by cases sc <;> simp [Instr.ofPadadd])
  · exact .raised h0 _ _ (by cases sc <;> decide)
  · exact .raised h0 _ _ (hl hb)
  · exact .raised h0 _ _ (hl hb)
  · refine .data h0 hop _ _ _ ?_ fun _ => ⟨rfl, hy⟩
    cases sc <;> simp [padDraws, Instr.ofPadadd]

theorem Effect.of_padrem {sc : Scheme} {bs : Byte} {remove : Bytes → Except Nat Bytes}
    (hr : ∀ Y X, remove Y = .ok X → X.length ≤ Y.length)
    (hz : sc = .zeros → ∀ Y k, remove Y ≠ .error k) (h : padremCommand remove bs (encode (.ofPadrem bs sc)) s = .next t) :
    Effect (.ofPadrem bs sc) s t := by
  have hop : (Instr.ofPadrem bs sc).op ∈ dataOps := by cases sc <;> simp [dataOps, Instr.op, Instr.ofPadrem]
  have hl : bs ≠ 0 → ErrCode.lenLimit ∈ errorsOf (.ofPadrem bs sc) := by
    intro hb
    have hb : bs ≠ 0#8 := hb
    cases sc <;> simp [errorsOf, Instr.ofPadrem, Instr.op, Instr.wellFormed, blockSizeOk, hb]
  have hk : bs ≠ 0 → sc ≠ .zeros → ErrCode.padBadcount ∈ errorsOf (.ofPadrem bs sc) := by
    intro hb hs
    have hb : bs ≠ 0#8 := hb
    cases sc <;> simp_all [errorsOf, Instr.ofPadrem, Instr.op, Instr.wellFormed, blockSizeOk]
  rcases padremCommand_next.1 h with
    ⟨h0, rfl⟩ | ⟨h0, ⟨rfl, rfl⟩ | ⟨hb, -, rfl⟩ | ⟨hb, hd, ⟨k, he, rfl⟩ | ⟨X, hX, rfl⟩⟩⟩
  · exact .ignored h0 (by cases sc <;> simp [Instr.ofPadrem]) (by cases sc <;> simp [Instr.ofPadrem])
  · exact .raised h0 _ _ (by cases sc <;> decide)
  · exact .raised h0 _ _ (hl hb)
  · exact .raised h0 _ _ (hk hb fun hs => hz hs _ _ he)
  · refine .data h0 hop _ _ 0 (.inl rfl) fun _ => ⟨rfl, ?_⟩
    have := hr _ _ hX
    simp [State.din] at this
    omega

theorem Effect.of_minit {md : Mode} {c : Cipher} (h : minit md c (encode (.ofMinit c md)) s = .next t) :
    Effect (.ofMinit c md) s t := by
  have he : ∀ x ∈ [ErrCode.notReady, .cfgIvMissing, .cfgIvLen], x ∈ errorsOf (.ofMinit c md) := by
    cases md <;> exact fun x hx => hx
  rcases minit_next.1 h with
    ⟨h0, rfl⟩ | ⟨h0, ⟨-, rfl⟩ | ⟨hv, hm, rfl⟩ | ⟨-, -, -, rfl⟩ | ⟨-, -, -, -, rfl⟩ | ⟨hv, hm, hi, hb, rfl⟩⟩
  · exact .ignored h0 (by cases md <;> simp [Instr.ofMinit]) (by cases md <;> simp [Instr.ofMinit])
  · exact .raised h0 _ _ (he _ (by simp))
  · exact .mode h0 _ _ rfl hv _ (.inl ⟨hm, rfl⟩)
  · exact .raised h0 _ _ (he _ (by simp))
  · exact .raised h0 _ _ (he _ (by simp))
  · exact .mode h0 _ _ rfl hv _ (.inr ⟨hm, rfl, hi, hb⟩)

/-- Everything a command can do. -/
theorem exec_effect {i : Instr} (h : exec i s = .next t) : Effect i s t := by
  cases i with
  | nop =>
    rcases gated_next.1 h with ⟨h0, rfl⟩ | ⟨h0, h⟩
    · exact .ignored h0 (by simp) (by simp)
    · cases h; exact .nothing h0 rfl
  | clrerr => cases h; exact .acknowledge rfl
  | sreset => cases h; exact .restart rfl
  | otoi =>
    rcases gated_next.1 h with ⟨h0, rfl⟩ | ⟨h0, h⟩
    · exact .ignored h0 (by simp) (by simp)
    · cases h; exact .copy h0 rfl
  | gfadd a b =>
    rcases gated_next.1 h with ⟨h0, rfl⟩ | ⟨h0, h⟩
    · exact .ignored h0 (by simp) (by simp)
    · cases h; exact .scalar h0 (by simp [scalarOps, Instr.op]) _
  | gfmul a b m => exact .of_gf (by simp [scalarOps, Instr.op]) (by simp [errorsOf, Instr.op]) (by simp) (by simp) h
  | gfpow a b m => exact .of_gf (by simp [scalarOps, Instr.op]) (by simp [errorsOf, Instr.op]) (by simp) (by simp) h
  | gfinv a m => exact .of_gf (by simp [scalarOps, Instr.op]) (by simp [errorsOf, Instr.op]) (by simp) (by simp) h
  | gfirr m => exact .of_gf (by simp [scalarOps, Instr.op]) (by simp [errorsOf, Instr.op]) (by simp) (by simp) h
  | pdiv x y => exact .of_div (by simp [scalarOps, Instr.op]) (by simp [errorsOf, Instr.op]) (by simp) (by simp) h
  | prem x y => exact .of_div (by simp [scalarOps, Instr.op]) (by simp [errorsOf, Instr.op]) (by simp) (by simp) h
  | perm rule lz =>
    rcases execPerm_next.1 h with
      ⟨h0, rfl⟩ | ⟨h0, ⟨-, rfl⟩ | ⟨-, -, rfl⟩ | ⟨-, ht, ⟨k, -, rfl⟩ | ⟨O, hO, rfl⟩⟩⟩
    · exact .ignored h0 (by simp) (by simp)
    · exact .raised h0 _ _ (by simp [errorsOf, Instr.op])
    · exact .raised h0 _ _ (by simp [errorsOf, Instr.op])
    · exact .raised h0 _ _ (by simp [errorsOf, Instr.op])
    · refine .data h0 (by simp [dataOps, Instr.op]) _ _ 0 (.inl rfl) fun hcoh => ⟨rfl, ?_⟩
      have h1 := rearrange_length hO
      have h2 := hcoh.params.2.1
      simp [State.tbl] at h1
      simp [Config.tblEntries] at ht
      omega
  | deskey =>
    rcases execDeskey_next.1 h with ⟨h0, rfl⟩ | ⟨h0, ⟨-, rfl⟩ | ⟨hk, rfl⟩⟩
    · exact .ignored h0 (by simp) (by simp)
    · exact .raised h0 _ _ (by simp [errorsOf, Instr.op])
    · exact .keyDes h0 rfl hk
  | desenc =>
    exact .of_rawBlock (valid := s.desv) (bs := 8) (f := desBytes s.desctx.keys .encrypt) (by decide) (by decide) (by simp) (by simp)
      (fun _ _ b => ⟨desBytes_length _ _ b, by decide⟩) h
  | desdec =>
    exact .of_rawBlock (valid := s.desv) (bs := 8) (f := desBytes s.desctx.keys .decrypt) (by decide) (by decide) (by simp) (by simp)
      (fun _ _ b => ⟨desBytes_length _ _ b, by decide⟩) h
  | dealkey =>
    rcases execDealkey_next.1 h with ⟨h0, rfl⟩ | ⟨h0, ⟨-, rfl⟩ | ⟨hk, rfl⟩⟩
    · exact .ignored h0 (by simp) (by simp)
    · exact .raised h0 _ _ (by simp [errorsOf, Instr.op])
    · exact .keyDeal h0 rfl hk
  | dealenc =>
    exact .of_rawBlock (valid := s.dealv) (bs := 16) (f := dealBytes s.dealctx .encrypt) (by decide) (by decide) (by simp) (by simp)
      (fun _ _ b => ⟨dealBytes_length _ _ b, by decide⟩) h
  | dealdec =>
    exact .of_rawBlock (valid := s.dealv) (bs := 16) (f := dealBytes s.dealctx .decrypt) (by decide) (by decide) (by simp) (by simp)
      (fun _ _ b => ⟨dealBytes_length _ _ b, by decide⟩) h
  | rjkey bsz md =>
    rcases execRjkey_next.1 h with
      ⟨h0, rfl⟩ | ⟨h0, ⟨-, rfl⟩ | ⟨-, -, rfl⟩ | ⟨-, -, -, rfl⟩ | ⟨-, -, -, -, rfl⟩ | ⟨hb, hk, hm, hr, rfl⟩⟩
    · exact .ignored h0 (by simp) (by simp)
    · exact .raised h0 _ _ (by simp [errorsOf, Instr.op])
    · exact .raised h0 _ _ (by simp [errorsOf, Instr.op])
    · exact .raised h0 _ _ (by simp [errorsOf, Instr.op])
    · exact .raised h0 _ _ (by simp [errorsOf, Instr.op])
    · exact .keyRj h0 _ _ rfl hb hk hm hr
  | rjenc =>
    refine .of_rawBlock (by decide) (by decide) (by simp) (by simp) (fun hcoh hv b => ?_) h
    have hl := (hcoh.rjValid hv).1
    exact ⟨rjEncrypt_length hl.columns _ _, by rcases hl.nb with h | h | h <;> omega⟩
  | rjdec =>
    refine .of_rawBlock (by decide) (by decide) (by simp) (by simp) (fun hcoh hv b => ?_) h
    have hl := (hcoh.rjValid hv).1
    exact ⟨rjDecrypt_length hl.columns _ _, by rcases hl.nb with h | h | h <;> omega⟩
  | minitEcb c => exact .of_minit (md := .ecb) h
  | minitCbc c => exact .of_minit (md := .cbc) h
  | minitPcbc c => exact .of_minit (md := .pcbc) h
  | minitCfb c => exact .of_minit (md := .cfb) h
  | minitOfb c => exact .of_minit (md := .ofb) h
  | minitCtr c => exact .of_minit (md := .ctr) h
  | minitRd c => exact .of_minit (md := .rd) h
  | menc =>
    exact .of_modeData (by decide) (by decide) (by simp) (by simp)
      (fun hcoh hv X hX => ⟨modeEncrypt_length _ _ _ _ _, modeEncrypt_blocks (hcoh.sized hv) hX⟩) h
  | mdec =>
    refine .of_modeData (by decide) (by decide) (by simp) (by simp)
      (fun hcoh hv X hX => ⟨modeDecrypt_length _ _ _ _ _, modeDecrypt_blocks (hcoh.sized hv) (fun hb => ?_) hX⟩) h
    exact hcoh.civ_length hv (by rcases hb with hb | hb <;> simp [hb])
  | padaddPkcs7 bs => exact .of_padadd (sc := .pkcs7) h
  | padaddAnsi bs => exact .of_padadd (sc := .ansi) h
  | padaddIso bs => exact .of_padadd (sc := .iso) h
  | padaddZeros bs => exact .of_padadd (sc := .zeros) h
  | padremPkcs7 bs => exact .of_padrem (sc := .pkcs7) (fun _ _ => removeDefault_length) (by simp) h
  | padremAnsi bs => exact .of_padrem (sc := .ansi) (fun _ _ => removeDefault_length) (by simp) h
  | padremIso bs => exact .of_padrem (sc := .iso) (fun _ _ => removeDefault_length) (by simp) h
  | padremZeros bs =>
    refine .of_padrem (sc := .zeros) (remove := fun Y => .ok (removeZeros Y)) (fun Y X hX => ?_) (by simp) h
    cases hX
    exact removeZeros_length Y

end Sys2Proof.Machine
end

