-- ==== Sys2Proof/Laws/PerInstr.lean ====
section
/-!
SUPPORT. What holds of every command as syntax, one lemma for each constructor: the opcode field of its word is
the opcode 30_encoding.md R102 gives its mnemonic.
-/

namespace Sys2Proof

theorem formatZ_opField (op : Op) : opField (formatZ op) = op.toByte := by
  cases op <;> decide

theorem formatG_opField (op : Op) (a b m : Byte) : opField (formatG op a b m) = op.toByte := by
  apply BitVec.eq_of_getLsbD_eq
  intro i hi
  simp only [opField, field, formatG, BitVec.getLsbD_extractLsb', BitVec.getLsbD_append]
  simp [hi, show ¬ 24 + i < 8 by omega, show ¬ 24 + i - 8 < 8 by omega, show ¬ 24 + i - 8 - 8 < 8 by omega,
    show 24 + i - 8 - 8 - 8 = i by omega]

theorem formatD_opField (op : Op) (x : BitVec 16) (y : Byte) : opField (formatD op x y) = op.toByte := by
  apply BitVec.eq_of_getLsbD_eq
  intro i hi
  simp only [opField, field, formatD, BitVec.getLsbD_extractLsb', BitVec.getLsbD_append]
  simp [hi, show ¬ 24 + i < 8 by omega, show ¬ 24 + i - 8 < 16 by omega, show 24 + i - 8 - 16 = i by omega]

theorem formatP_opField (op : Op) (rule : PermRule) (lz : BitVec 3) :
    opField (formatP op rule lz) = op.toByte := by
  apply BitVec.eq_of_getLsbD_eq
  intro i hi
  simp only [opField, field, formatP, BitVec.getLsbD_extractLsb', BitVec.getLsbD_append]
  simp [hi, show ¬ 24 + i < 19 by omega, show ¬ 24 + i - 19 < 3 by omega, show ¬ 24 + i - 19 - 3 < 2 by omega,
    show 24 + i - 19 - 3 - 2 = i by omega]

theorem formatK_opField (op : Op) (bsz md : Byte) : opField (formatK op bsz md) = op.toByte := by
  apply BitVec.eq_of_getLsbD_eq
  intro i hi
  simp only [opField, field, formatK, BitVec.getLsbD_extractLsb', BitVec.getLsbD_append]
  simp [hi, show ¬ 24 + i < 8 by omega, show ¬ 24 + i - 8 < 8 by omega, show ¬ 24 + i - 8 - 8 < 8 by omega,
    show 24 + i - 8 - 8 - 8 = i by omega]

theorem formatM_opField (op : Op) (c : Cipher) (md : Mode) : opField (formatM op c md) = op.toByte := by
  apply BitVec.eq_of_getLsbD_eq
  intro i hi
  simp only [opField, field, formatM, BitVec.getLsbD_extractLsb', BitVec.getLsbD_append]
  simp [hi, show ¬ 24 + i < 4 by omega, show ¬ 24 + i - 4 < 4 by omega, show ¬ 24 + i - 4 - 4 < 16 by omega,
    show 24 + i - 4 - 4 - 16 = i by omega]

theorem formatA_opField (op : Op) (sc : Scheme) (bs : Byte) : opField (formatA op sc bs) = op.toByte := by
  apply BitVec.eq_of_getLsbD_eq
  intro i hi
  simp only [opField, field, formatA, BitVec.getLsbD_extractLsb', BitVec.getLsbD_append]
  simp [hi, show ¬ 24 + i < 8 by omega, show ¬ 24 + i - 8 < 4 by omega, show ¬ 24 + i - 8 - 4 < 12 by omega,
    show 24 + i - 8 - 4 - 12 = i by omega]

end Sys2Proof

namespace Sys2Proof.Laws.OpcodeField

/-- The opcode field of the command's word is its opcode (30_encoding.md R90, R102). -/
def Statement (i : Instr) : Prop := opField (encode i) = i.op.toByte

theorem nop : Statement .nop := formatZ_opField _
theorem clrerr : Statement .clrerr := formatZ_opField _
theorem sreset : Statement .sreset := formatZ_opField _
theorem otoi : Statement .otoi := formatZ_opField _
theorem gfadd (a b : Byte) : Statement (.gfadd a b) := formatG_opField _ _ _ _
theorem gfmul (a b m : Byte) : Statement (.gfmul a b m) := formatG_opField _ _ _ _
theorem gfpow (a b m : Byte) : Statement (.gfpow a b m) := formatG_opField _ _ _ _
theorem gfinv (a m : Byte) : Statement (.gfinv a m) := formatG_opField _ _ _ _
theorem gfirr (m : Byte) : Statement (.gfirr m) := formatG_opField _ _ _ _
theorem pdiv (x : BitVec 16) (y : Byte) : Statement (.pdiv x y) := formatD_opField _ _ _
theorem prem (x : BitVec 16) (y : Byte) : Statement (.prem x y) := formatD_opField _ _ _
theorem perm (rule : PermRule) (lz : BitVec 3) : Statement (.perm rule lz) := formatP_opField _ _ _
theorem deskey : Statement .deskey := formatZ_opField _
theorem desenc : Statement .desenc := formatZ_opField _
theorem desdec : Statement .desdec := formatZ_opField _
theorem dealkey : Statement .dealkey := formatZ_opField _
theorem dealenc : Statement .dealenc := formatZ_opField _
theorem dealdec : Statement .dealdec := formatZ_opField _
theorem rjkey (bsz md : Byte) : Statement (.rjkey bsz md) := formatK_opField _ _ _
theorem rjenc : Statement .rjenc := formatZ_opField _
theorem rjdec : Statement .rjdec := formatZ_opField _
theorem minitEcb (c : Cipher) : Statement (.minitEcb c) := formatM_opField _ _ _
theorem minitCbc (c : Cipher) : Statement (.minitCbc c) := formatM_opField _ _ _
theorem minitPcbc (c : Cipher) : Statement (.minitPcbc c) := formatM_opField _ _ _
theorem minitCfb (c : Cipher) : Statement (.minitCfb c) := formatM_opField _ _ _
theorem minitOfb (c : Cipher) : Statement (.minitOfb c) := formatM_opField _ _ _
theorem minitCtr (c : Cipher) : Statement (.minitCtr c) := formatM_opField _ _ _
theorem minitRd (c : Cipher) : Statement (.minitRd c) := formatM_opField _ _ _
theorem menc : Statement .menc := formatZ_opField _
theorem mdec : Statement .mdec := formatZ_opField _
theorem padaddPkcs7 (bs : Byte) : Statement (.padaddPkcs7 bs) := formatA_opField _ _ _
theorem padaddAnsi (bs : Byte) : Statement (.padaddAnsi bs) := formatA_opField _ _ _
theorem padaddIso (bs : Byte) : Statement (.padaddIso bs) := formatA_opField _ _ _
theorem padaddZeros (bs : Byte) : Statement (.padaddZeros bs) := formatA_opField _ _ _
theorem padremPkcs7 (bs : Byte) : Statement (.padremPkcs7 bs) := formatA_opField _ _ _
theorem padremAnsi (bs : Byte) : Statement (.padremAnsi bs) := formatA_opField _ _ _
theorem padremIso (bs : Byte) : Statement (.padremIso bs) := formatA_opField _ _ _
theorem padremZeros (bs : Byte) : Statement (.padremZeros bs) := formatA_opField _ _ _

end Sys2Proof.Laws.OpcodeField
end

