-- ==== Sys2Proof/Laws/Views.lean ====
section
/-!
SUPPORT. The small lemmas of the terms the statements use for bits and matrices: the rows of a column, the entries of
a matrix, and `permInt` as the permutation it computes.
-/

namespace Sys2Proof.Machine

@[simp] theorem Col.row_zero (c : Col) : c.row 0 = c.b0 := rfl
@[simp] theorem Col.row_one (c : Col) : c.row 1 = c.b1 := rfl
@[simp] theorem Col.row_two (c : Col) : c.row 2 = c.b2 := rfl
@[simp] theorem Col.row_three (c : Col) : c.row 3 = c.b3 := rfl

/-- A statement about the four rows is four statements. -/
theorem forall_row {p : Nat → Prop} : (∀ r, r < 4 → p r) ↔ p 0 ∧ p 1 ∧ p 2 ∧ p 3 := by
  constructor
  · exact fun h => ⟨h 0 (by omega), h 1 (by omega), h 2 (by omega), h 3 (by omega)⟩
  · rintro ⟨h0, h1, h2, h3⟩ r hr
    rcases r with _ | _ | _ | _ | r <;> first | assumption | omega

/-- The entry of a column that the matrix has. -/
theorem cell_of_lt {s : List Col} {c : Nat} (r : Nat) (h : c < s.length) : cell s r c = (s[c]).row r := by
  rw [cell, List.getD_eq_getElem _ _ h]

/-- The bits `permInt` folds from a table: above them what stood in the accumulator, and each at its place. -/
theorem permFold_bits {w : Nat} (v : BitVec w) (T : List Nat) (acc : Nat) :
    let r := T.foldl (fun acc t => 2 * acc + (v.toNat >>> (w - t)) % 2) acc
    r / 2 ^ T.length = acc ∧
    ∀ i, i < T.length → r.testBit (T.length - 1 - i) = v.toNat.testBit (w - T.getD i 0) := by
  induction T generalizing acc with
  | nil => simp
  | cons t T ih =>
    obtain ⟨hacc, hbit⟩ := ih (2 * acc + (v.toNat >>> (w - t)) % 2)
    rw [List.foldl_cons]
    refine ⟨by rw [List.length_cons, Nat.pow_succ, ← Nat.div_div_eq_div_mul, hacc]; omega, fun i hi => ?_⟩
    rcases i with _ | i
    · rw [List.length_cons, List.getD_cons_zero, show T.length + 1 - 1 - 0 = T.length by omega,
        Nat.testBit_eq_decide_div_mod_eq, hacc, Nat.testBit_eq_decide_div_mod_eq, Nat.shiftRight_eq_div_pow]
      congr 1
      simp only [eq_iff_iff]
      omega
    · rw [List.length_cons] at hi ⊢
      rw [List.getD_cons_succ, ← hbit i (by omega)]
      congr 1
      omega

/-- What `permInt` computes, for a table of `n` positions of a `w`-bit integer (42_feistel_des.md R175). -/
theorem permInt_permutes {w n : Nat} (T : List Nat) (v : BitVec w) (hT : T.length = n) (h : ∀ e ∈ T, 1 ≤ e ∧ e ≤ w) :
    Permutes T v (permInt w n T v) := by
  subst hT
  intro i hi
  have hbit := (permFold_bits v T 0).2 i hi
  have he := h T[i] (List.getElem_mem _)
  rw [List.getD_eq_getElem _ _ hi] at hbit ⊢
  have hlt : T[i] - 1 < w := by omega
  have hlt' : T.length - 1 - i < T.length := by omega
  rw [BitVec.getMsbD_eq_getLsbD, BitVec.getMsbD_eq_getLsbD, permInt, BitVec.getLsbD_ofNat, hbit,
    BitVec.testBit_toNat, show w - 1 - (T[i] - 1) = w - T[i] by omega]
  simp [hi, hlt, hlt']

end Sys2Proof.Machine
end

