-- ==== Sys2Proof/Tests/Slice0.lean ====
section
/-!
SUPPORT. The author's own tests: the well-formedness smoke, the decoding of words written out from the spec's
formats, and small single steps whose expected results are the spec's evaluated examples (the rule is named at
each group). The states are built by the helpers below; each test looks at a few fields of the result.
-/

namespace Sys2Proof.Tests

set_option Elab.async false

open Sys2Proof Sys2Proof.Machine

/-! ### Helpers -/

/-- The bytes of a hexadecimal literal of `n` bytes, as the spec prints them (00_scope.md R12). -/
def hex (n v : Nat) : Bytes := toBe n v

/-- A state with the latch set by `GFMUL 0x57, 0x83, 0x00`. -/
def latched : State := State.reset.latchError 0x11578300#32 .arithZeroMod 0

/-- `s` with `B` staged in DIN and DLEN its length. -/
def withDin (s : State) (B : Bytes) : State :=
  { s with mem := s.mem.write dinBase B, dlen := BitVec.ofNat 16 B.length }

/-- `s` with `B` staged in KEY and KLEN its length. -/
def withKey (s : State) (B : Bytes) : State :=
  { s with mem := s.mem.write keyBase B, klen := BitVec.ofNat 6 B.length }

/-- `s` with `B` staged in IV and IVLEN its length. -/
def withIv (s : State) (B : Bytes) : State :=
  { s with mem := s.mem.write ivBase B, ivlen := BitVec.ofNat 7 B.length }

/-- `s` with a table staged in TBL and TLEN its length, each entry as its two bytes. -/
def withTbl (s : State) (T : List Nat) : State :=
  { s with mem := s.mem.write tblBase (T.flatMap (toBe 2)), tlen := BitVec.ofNat 9 T.length }

/-- The command answers a next state that passes the check. -/
def gives (i : Instr) (s : State) (check : State → Bool) : Bool :=
  match exec i s with
  | .next t => check t
  | _ => false

/-- The check that a data command succeeded with this output. -/
def outputs (B : Bytes) (t : State) : Bool := !t.err && (t.olen == BitVec.ofNat 16 B.length && t.dout == B)

/-- The check that the latch holds this code, ERRINFO and command word. -/
def raises (code : Byte) (info w : Word) (t : State) : Bool :=
  t.err && t.errCode == code && t.errInfo == info && t.errCmd == w

/-- The check that RES holds this value. -/
def result (v : Word) (t : State) : Bool := !t.err && t.res == v

/-! ### Well-formedness: each ill-formed term is refused (30_encoding.md R101) -/

theorem test_wf_padaddPkcs7 : (Instr.padaddPkcs7 0).wellFormed = false := by decide
theorem test_wf_padaddAnsi : (Instr.padaddAnsi 0).wellFormed = false := by decide
theorem test_wf_padaddIso : (Instr.padaddIso 0).wellFormed = false := by decide
theorem test_wf_padaddZeros : (Instr.padaddZeros 0).wellFormed = false := by decide
theorem test_wf_padremPkcs7 : (Instr.padremPkcs7 0).wellFormed = false := by decide
theorem test_wf_padremAnsi : (Instr.padremAnsi 0).wellFormed = false := by decide
theorem test_wf_padremIso : (Instr.padremIso 0).wellFormed = false := by decide
theorem test_wf_padremZeros : (Instr.padremZeros 0).wellFormed = false := by decide

/-! ### Decoding: words written out from the formats of 30_encoding.md R94 to R102 -/

theorem test_decode_nop : decode 0x00000000#32 = .ok .nop := by rfl
theorem test_decode_clrerr : decode 0x01000000#32 = .ok .clrerr := by rfl
theorem test_decode_sreset : decode 0x02000000#32 = .ok .sreset := by rfl
theorem test_decode_otoi : decode 0x03000000#32 = .ok .otoi := by rfl
theorem test_decode_gfadd : decode 0x10578300#32 = .ok (.gfadd 0x57 0x83) := by rfl
theorem test_decode_gfmul : decode 0x1157831B#32 = .ok (.gfmul 0x57 0x83 0x1B) := by rfl
theorem test_decode_gfpow : decode 0x1202081B#32 = .ok (.gfpow 0x02 0x08 0x1B) := by rfl
theorem test_decode_gfinv : decode 0x1353001B#32 = .ok (.gfinv 0x53 0x1B) := by rfl
theorem test_decode_gfirr : decode 0x1400001B#32 = .ok (.gfirr 0x1B) := by rfl
theorem test_decode_pdiv : decode 0x15011B03#32 = .ok (.pdiv 0x011B 0x03) := by rfl
theorem test_decode_prem : decode 0x16011B03#32 = .ok (.prem 0x011B 0x03) := by rfl
/-- `rule = 2` in [23:22], `lz = 5` in [21:19]. -/
theorem test_decode_perm : decode 0b00100000101010000000000000000000#32 = .ok (.perm .r0 5) := by rfl
theorem test_decode_deskey : decode 0x30000000#32 = .ok .deskey := by rfl
theorem test_decode_desenc : decode 0x31000000#32 = .ok .desenc := by rfl
theorem test_decode_desdec : decode 0x32000000#32 = .ok .desdec := by rfl
theorem test_decode_dealkey : decode 0x38000000#32 = .ok .dealkey := by rfl
theorem test_decode_dealenc : decode 0x39000000#32 = .ok .dealenc := by rfl
theorem test_decode_dealdec : decode 0x3A000000#32 = .ok .dealdec := by rfl
theorem test_decode_rjkey : decode 0x4000101B#32 = .ok (.rjkey 16 0x1B) := by rfl
theorem test_decode_rjenc : decode 0x41000000#32 = .ok .rjenc := by rfl
theorem test_decode_rjdec : decode 0x42000000#32 = .ok .rjdec := by rfl
theorem test_decode_minitEcb : decode 0x50000010#32 = .ok (.minitEcb .deal) := by rfl
theorem test_decode_minitCbc : decode 0x50000021#32 = .ok (.minitCbc .rj) := by rfl
theorem test_decode_minitPcbc : decode 0x50000002#32 = .ok (.minitPcbc .des) := by rfl
theorem test_decode_minitCfb : decode 0x50000023#32 = .ok (.minitCfb .rj) := by rfl
theorem test_decode_minitOfb : decode 0x50000014#32 = .ok (.minitOfb .deal) := by rfl
theorem test_decode_minitCtr : decode 0x50000005#32 = .ok (.minitCtr .des) := by rfl
theorem test_decode_minitRd : decode 0x50000026#32 = .ok (.minitRd .rj) := by rfl
theorem test_decode_menc : decode 0x51000000#32 = .ok .menc := by rfl
theorem test_decode_mdec : decode 0x52000000#32 = .ok .mdec := by rfl
theorem test_decode_padaddPkcs7 : decode 0x60000010#32 = .ok (.padaddPkcs7 16) := by rfl
theorem test_decode_padaddAnsi : decode 0x60000108#32 = .ok (.padaddAnsi 8) := by rfl
theorem test_decode_padaddIso : decode 0x600002FF#32 = .ok (.padaddIso 255) := by rfl
theorem test_decode_padaddZeros : decode 0x60000301#32 = .ok (.padaddZeros 1) := by rfl
theorem test_decode_padremPkcs7 : decode 0x61000008#32 = .ok (.padremPkcs7 8) := by rfl
theorem test_decode_padremAnsi : decode 0x61000108#32 = .ok (.padremAnsi 8) := by rfl
theorem test_decode_padremIso : decode 0x61000208#32 = .ok (.padremIso 8) := by rfl
theorem test_decode_padremZeros : decode 0x61000308#32 = .ok (.padremZeros 8) := by rfl

/-- R103: an unassigned opcode. -/
theorem test_refuse_opcode : decode 0x04000000#32 = .error .unknownOpcode := by rfl
/-- R94: a bit of `W[23:0]`. -/
theorem test_refuse_z : decode 0x31000001#32 = .error .mustBeZero := by rfl
/-- R95: GFADD with `m`, GFINV with `b`, GFIRR with `a`. -/
theorem test_refuse_gfadd : decode 0x10578301#32 = .error .mustBeZero := by rfl
theorem test_refuse_gfinv : decode 0x1353011B#32 = .error .mustBeZero := by rfl
theorem test_refuse_gfirr : decode 0x1401001B#32 = .error .mustBeZero := by rfl
/-- R97, R98: the lowest bit above and below the fields. -/
theorem test_refuse_perm : decode 0x20040000#32 = .error .mustBeZero := by rfl
theorem test_refuse_rjkey : decode 0x4001101B#32 = .error .mustBeZero := by rfl
/-- R99: cipher 3, mode 7, and a bit of `W[23:8]`. -/
theorem test_refuse_minit_cipher : decode 0x50000030#32 = .error .illegalField := by rfl
theorem test_refuse_minit_mode : decode 0x50000007#32 = .error .illegalField := by rfl
theorem test_refuse_minit_zero : decode 0x50000100#32 = .error .mustBeZero := by rfl
/-- R101: scheme 4, block size 0, and a bit of `W[23:12]`. -/
theorem test_refuse_pad_scheme : decode 0x60000408#32 = .error .illegalField := by rfl
theorem test_refuse_pad_size : decode 0x61000000#32 = .error .illegalField := by rfl
theorem test_refuse_pad_zero : decode 0x60001008#32 = .error .mustBeZero := by rfl

/-- No word belongs to two rows of the opcode table. -/
theorem test_opcode_rows_disjoint :
    opcodeRows.Pairwise (fun r q => r.pattern &&& q.mask ≠ q.pattern &&& r.mask) := by decide

/-! ### The port and the sequencer -/

/-- R22, R62: a read of ID. -/
theorem test_read_id :
    step { State.reset with host := [.read 0x0000#16 4] } =
      .next { State.reset with resp := some (.data 0x4E504301#32) } := by rfl
/-- R64: the key literal `0x13345779` as one word lands byte by byte. -/
theorem test_write_key :
    step { State.reset with host := [.write 0x0100#16 4 0x13345779#32] } =
      .next { State.reset with
        mem := [(0x100, 0x13#8), (0x101, 0x34#8), (0x102, 0x57#8), (0x103, 0x79#8)], resp := some .written } := by
  rfl
/-- R68: misaligned, and the first unmapped word after IV. -/
theorem test_bus_misaligned :
    step { State.reset with host := [.read 0x0002#16 4] } =
      .next { State.reset with resp := some .busError } := by rfl
theorem test_bus_unmapped :
    step { State.reset with host := [.write 0x0180#16 4 1] } =
      .next { State.reset with resp := some .busError } := by rfl
/-- R368: a command behind an error is ignored; R367: a malformed CLRERR overwrites the latch. -/
theorem test_gate :
    step (latched.issueNext (.write cmdOffset 4 0x10578300#32)) =
      .next { latched with resp := some .written } := by rfl
theorem test_malformed_clrerr :
    step (latched.issueNext (.write cmdOffset 4 0x01000001#32)) =
      .next { latched.latchError 0x01000001#32 .illegalCmd 0 with resp := some .written } := by rfl
/-- The host's own question: the word runs as the first instruction after reset. -/
theorem test_withFetchWord :
    step (State.reset.withFetchWord 32 0x1157831B) =
      .next { State.reset with res := 0xC1#32, resp := some .written } := by rfl

/-! ### System commands: the examples of 47_system.md R350 to R353 -/

theorem test_nop : exec .nop State.reset = .next State.reset := by rfl
theorem test_clrerr : exec .clrerr latched = .next State.reset := by rfl
theorem test_sreset : exec .sreset (withKey latched [1, 2, 3]) = .next State.reset := by rfl
/-- R353: DOUT = `AA BB 02 02`, OLEN = 4. -/
theorem test_otoi :
    gives .otoi { State.reset with mem := Memory.write [] doutBase (hex 4 0xAABB0202), olen := 4 }
      (fun t => t.dlen == 4 && t.din == hex 4 0xAABB0202 && t.dout == hex 4 0xAABB0202) = true := by decide

/-! ### GF unit: the examples of 40_gf.md R121 to R127 -/

theorem test_gfadd : gives (.gfadd 0x57 0x83) State.reset (result 0xD4) = true := by decide +kernel
theorem test_gfmul : gives (.gfmul 0x57 0x83 0x1B) State.reset (result 0xC1) = true := by decide +kernel
/-- R122: the modulus check comes first, also when an operand is 0. -/
theorem test_gfmul_zero_modulus :
    gives (.gfmul 0x00 0x83 0x00) State.reset (raises 0x21 0 0x11008300) = true := by decide +kernel
theorem test_gfpow : gives (.gfpow 0x02 0x08 0x1B) State.reset (result 0x1B) = true := by decide +kernel
/-- R123: the empty product. -/
theorem test_gfpow_zero_zero : gives (.gfpow 0 0 0x1B) State.reset (result 1) = true := by decide +kernel
theorem test_gfinv : gives (.gfinv 0x53 0x1B) State.reset (result 0xCA) = true := by decide +kernel
/-- R134: under a reducible modulus the power 254 is still the result. -/
theorem test_gfinv_reducible : gives (.gfinv 0x02 0x06) State.reset (result 0x82) = true := by decide +kernel
theorem test_gfirr : gives (.gfirr 0x1B) State.reset (result 1) = true := by decide +kernel
theorem test_gfirr_reducible : gives (.gfirr 0x85) State.reset (result 0) = true := by decide +kernel
theorem test_pdiv : gives (.pdiv 0x011B 0x03) State.reset (result 0xF6) = true := by decide +kernel
theorem test_pdiv_zero :
    gives (.pdiv 0x011B 0) State.reset (raises 0x22 0 0x15011B00) = true := by decide +kernel
theorem test_prem : gives (.prem 0x3F7E 0x83) State.reset (result 0x7F) = true := by decide +kernel

/-! ### PERM: the examples of 41_perm.md R151 and R158 -/

theorem test_perm :
    gives (.perm .l1 0) (withTbl (withDin State.reset (hex 2 0xA5C3)) [1, 9, 2, 10, 3, 11, 4, 12, 5, 13])
      (outputs (hex 2 0x0360)) = true := by decide +kernel
theorem test_perm_range :
    gives (.perm .l1 4) (withTbl (withDin State.reset (hex 2 0x0ABC)) [1, 2, 3, 4, 13])
      (raises 0x23 4 0x20600000) = true := by decide +kernel

/-! ### 64-bit cipher: the known answer of 42_feistel_des.md R193 and the round keys of R194 -/

/-- After the DESKEY of R190. -/
def desReady : State := { State.reset with desctx := { keys := desKs 0x133457799BBCDFF1#64 }, desv := true }

theorem test_deskey :
    gives .deskey (withKey State.reset (hex 8 0x133457799BBCDFF1))
      (fun t => t.desv && t.desctx.keys.getD 0 0 == 0x1B02EFFC7072#48 &&
        t.desctx.keys.getD 15 0 == 0xCB3D8B0E17F5#48) = true := by decide +kernel
theorem test_desenc :
    gives .desenc (withDin desReady (hex 8 0x0123456789ABCDEF)) (outputs (hex 8 0x85E813540F0AB405)) = true := by
  decide +kernel
theorem test_desdec :
    gives .desdec (withDin desReady (hex 8 0x85E813540F0AB405)) (outputs (hex 8 0x0123456789ABCDEF)) = true := by
  decide +kernel
/-- R191: no context, no data looked at. -/
theorem test_desenc_not_ready : gives .desenc State.reset (raises 0x32 0 0x31000000) = true := by decide +kernel

/-! ### 128-bit cipher: 43_deal.md R221 -/

/-- After DEALKEY with the key `00 01 ... 0F`: the round keys the spec prints. -/
def dealReady : State :=
  let rk := [0x3260266C2CF202E2#64, 0x79CF70CD1DAC09A5#64, 0x9349EBE83F5712F2#64, 0xC900E613A6787C8A#64,
    0xAC25775940031086#64, 0xB439842351ADBD76#64]
  { State.reset with dealctx := { n := 6, rk := rk }, dealv := true }

theorem test_dealkey :
    gives .dealkey (withKey State.reset (hex 16 0x000102030405060708090A0B0C0D0E0F))
      (fun t => t.dealctx == dealReady.dealctx) = true := by decide +kernel
theorem test_dealenc :
    gives .dealenc (withDin dealReady (hex 16 0x00112233445566778899AABBCCDDEEFF))
      (outputs (hex 16 0x9793581182A09E6AE616E99282EEB4AA)) = true := by decide +kernel
theorem test_dealdec :
    gives .dealdec (withDin dealReady (hex 16 0x9793581182A09E6AE616E99282EEB4AA))
      (outputs (hex 16 0x00112233445566778899AABBCCDDEEFF)) = true := by decide +kernel

/-! ### Rijndael: 44_rijndael.md R250, R255 -/

/-- The context of R255. -/
def aesContext : RjCtx := rjContext (hex 16 0x000102030405060708090A0B0C0D0E0F) 16 0x1B

/-- R250: RJCFG, and the first bytes of the two tables (R256 for the modulus `0x1D`). -/
theorem test_rjkey :
    gives (.rjkey 16 0x1B) (withKey State.reset (hex 16 0x000102030405060708090A0B0C0D0E0F))
      (fun t => t.rjcfg == 0x000A441B#32) = true := by decide +kernel
theorem test_rjkey_tables :
    (sboxTable 0x1B).take 4 = hex 4 0x637C777B ∧ (isboxTable 0x1D).take 4 = hex 4 0xA793DF78 := by decide +kernel
/-- R255: the document's known answer, and back. -/
theorem test_rjEncrypt :
    rjEncrypt aesContext (sboxEntry 0x1B) (hex 16 0x00112233445566778899AABBCCDDEEFF) =
      hex 16 0x69C4E0D86A7B0430D8CDB78070B4C55A := by decide +kernel
theorem test_rjDecrypt :
    rjDecrypt aesContext (isboxEntry 0x1B) (hex 16 0x69C4E0D86A7B0430D8CDB78070B4C55A) =
      hex 16 0x00112233445566778899AABBCCDDEEFF := by decide +kernel
/-- R251, R252: DLEN is compared with the block size. -/
theorem test_rjenc_length :
    gives .rjenc { State.reset with rjv := true, rjctx := { State.reset.rjctx with nb := 6 }, dlen := 16 }
      (raises 0x25 16 0x41000000) = true := by decide +kernel
theorem test_rjdec_not_ready : gives .rjdec State.reset (raises 0x32 0 0x42000000) = true := by decide +kernel

/-! ### Modes: MCFG by the layout of 10_state.md R35, data by 45_modes.md R320 -/

/-- The IV `12 34 56 78 90 AB CD EF` of R320, its first `n` bytes staged. -/
def desIv (n : Nat) : State := withIv desReady ((hex 8 0x1234567890ABCDEF).take n)

theorem test_minitEcb : gives (.minitEcb .des) (desIv 8) (fun t => t.mcfg == 0x00000800#32) = true := by
  decide +kernel
theorem test_minitCbc : gives (.minitCbc .des) (desIv 8) (fun t => t.mcfg == 0x00080801#32) = true := by
  decide +kernel
theorem test_minitPcbc : gives (.minitPcbc .des) (desIv 8) (fun t => t.mcfg == 0x00080802#32) = true := by
  decide +kernel
theorem test_minitCfb : gives (.minitCfb .des) (desIv 8) (fun t => t.mcfg == 0x00080803#32) = true := by
  decide +kernel
theorem test_minitOfb : gives (.minitOfb .des) (desIv 7) (raises 0x15 7 0x50000004) = true := by decide +kernel
theorem test_minitCtr : gives (.minitCtr .des) (desIv 4) (fun t => t.mcfg == 0x00040805#32) = true := by
  decide +kernel
theorem test_minitCtr_full : gives (.minitCtr .des) (desIv 8) (raises 0x15 8 0x50000005) = true := by
  decide +kernel
theorem test_minitRd : gives (.minitRd .des) (desIv 6) (fun t => t.mcfg == 0x00060806#32) = true := by
  decide +kernel
theorem test_minitRd_missing : gives (.minitRd .des) (desIv 0) (raises 0x14 0 0x50000006) = true := by
  decide +kernel

/-- A mode over the 64-bit cipher with the IV of R320. -/
def desMode (md : Mode) : State :=
  { desReady with modectx := { mode := md, cipher := .des, bs := 8, civ := hex 8 0x1234567890ABCDEF }, modev := true }

/-- R320: CBC of two blocks, and CFB back. -/
theorem test_menc :
    gives .menc (withDin (desMode .cbc) (hex 16 0x0123456789ABCDEF4E6F772069732074))
      (outputs (hex 16 0xF02B595EB219AB9795C3643365B136D1)) = true := by decide +kernel
theorem test_menc_unaligned :
    gives .menc (withDin (desMode .cbc) (hex 3 0x010203)) (raises 0x24 3 0x51000000) = true := by decide +kernel
theorem test_mdec :
    gives .mdec (withDin (desMode .cfb) (hex 16 0x08BAFAF562DD77E1EE3BA1AC368EE19E))
      (outputs (hex 16 0x0123456789ABCDEF4E6F772069732074)) = true := by decide +kernel
/-- R297: a term of RD that wraps, and one of a long IV. -/
theorem test_rdTerm :
    rdTerm 8 (hex 16 0xFFFFFFFFFFFFFFFF0000000000000001) 1 = hex 8 0 ∧
    rdTerm 16 (hex 4 0xFFFF0003) 2 = hex 16 0x010005 := by decide +kernel

/-! ### Padding: the examples of 46_padding.md R331 to R341 -/

theorem test_padaddPkcs7 :
    gives (.padaddPkcs7 8) (withDin State.reset (hex 5 0x0011223344)) (outputs (hex 8 0x0011223344030303)) = true := by
  decide +kernel
theorem test_padaddAnsi :
    gives (.padaddAnsi 8) (withDin State.reset (hex 5 0x0011223344)) (outputs (hex 8 0x0011223344000003)) = true := by
  decide +kernel
/-- R345: `bs = 1` draws nothing. -/
theorem test_padaddIso :
    gives (.padaddIso 1) (withDin State.reset (hex 5 0x0011223344))
      (fun t => outputs (hex 6 0x001122334401) t && t.draws == 0) = true := by decide +kernel
/-- R334: `n = 3` draws two bytes. -/
theorem test_padaddIso_draws :
    gives (.padaddIso 8) (withDin State.reset (hex 5 0x0011223344))
      (fun t => t.draws == 2 && t.olen == 8) = true := by decide +kernel
theorem test_padaddZeros :
    gives (.padaddZeros 8) (withDin State.reset (hex 8 0x0011223344556677))
      (outputs (hex 8 0x0011223344556677)) = true := by decide +kernel
theorem test_padremPkcs7 :
    gives (.padremPkcs7 8) (withDin State.reset (hex 8 0x0011223344030303)) (outputs (hex 5 0x0011223344)) = true := by
  decide +kernel
theorem test_padremAnsi :
    gives (.padremAnsi 8) (withDin State.reset (hex 4 0x00112209)) (raises 0x26 9 0x61000108) = true := by
  decide +kernel
theorem test_padremIso :
    gives (.padremIso 8) (withDin State.reset (hex 4 0x00112200)) (outputs (hex 4 0x00112200)) = true := by
  decide +kernel
theorem test_padremZeros :
    gives (.padremZeros 8) (withDin State.reset (hex 8 0xAABB000000000000)) (outputs (hex 2 0xAABB)) = true := by
  decide +kernel

/-! ### Witnesses: concrete states and operands that meet the hypotheses of each statement, clause by clause -/

/-- A state with an empty memory, a clear latch and no Rijndael context is coherent when its other contexts are. -/
theorem coherent_of_empty {s : State} (hp : s.params = Params.standard) (hm : s.mem = [])
    (he : s.err = false ∧ s.errCode = 0 ∧ s.errInfo = 0 ∧ s.errCmd = 0) (ho : s.olen = 0)
    (hk : s.desctx.keys.length = 16) (hd : s.desv = false → s.desctx = State.reset.desctx)
    (hdv : s.dealv = true → (s.dealctx.n = 6 ∨ s.dealctx.n = 8) ∧ s.dealctx.rk.length = s.dealctx.n)
    (hdi : s.dealv = false → s.dealctx = State.reset.dealctx)
    (hr : s.rjv = false ∧ s.rjctx = State.reset.rjctx)
    (hmv : s.modev = true → s.cipherValid s.modectx.cipher = true ∧ s.modectx.bs = s.blockSize s.modectx.cipher ∧
      (s.modectx.mode = .ecb → s.modectx.civ = []) ∧
      (s.modectx.mode ≠ .ecb → s.modectx.civ ≠ [] ∧
        ivLenBad s.modectx.mode s.modectx.civ.length s.modectx.bs = false)) : s.Coherent where
  params := by rw [hp]; decide
  memWf := by rw [hm]; exact ⟨List.Pairwise.nil, by simp⟩
  memMapped := by rw [hm]; simp
  latchClear := fun _ => he.2
  latchSet := fun h => by rw [he.1] at h; cases h
  olenFits := by rw [ho]; exact Nat.zero_le _
  desKeys := hk
  desInvalid := hd
  dealValid := hdv
  dealInvalid := hdi
  rjValid := fun h => by rw [hr.1] at h; cases h
  rjInvalid := fun _ => ⟨hr.2, fun v => by simp [State.sbox, State.isbox, hm, unlistedByte]⟩
  modeValid := hmv

/-- The 64-bit cipher's state of R190 with a CBC mode over it and `n` zero bytes of input. -/
def desCbc (n : Nat) : State := { desMode .cbc with dlen := BitVec.ofNat 16 n }

theorem desCbc_coherent (n : Nat) : (desCbc n).Coherent :=
  coherent_of_empty rfl rfl ⟨rfl, rfl, rfl, rfl⟩ rfl (desKs_length _) (fun h => by cases h) (fun h => by cases h)
    (fun _ => rfl) ⟨rfl, rfl⟩ fun _ => ⟨rfl, rfl, (fun h => by cases h), fun _ => ⟨by simp [desCbc, desMode, hex, toBe], rfl⟩⟩

/-- The 128-bit cipher's state of R218 with 16 zero bytes of input. -/
def dealBlockReady : State := { dealReady with dlen := 16 }

theorem dealBlockReady_coherent : dealBlockReady.Coherent :=
  coherent_of_empty rfl rfl ⟨rfl, rfl, rfl, rfl⟩ rfl (by decide) (fun _ => rfl) (fun _ => ⟨.inl rfl, rfl⟩)
    (fun h => by cases h) ⟨rfl, rfl⟩ fun h => by cases h

theorem aesContext_legal : RjLegal aesContext where
  nb := .inl rfl
  nk := .inl rfl
  nr := rfl
  modulus := ⟨by decide, by decide⟩
  offsets := ⟨rfl, rfl, rfl⟩
  columns := rjExpand_length _ _ (by decide)

/-- A Rijndael state of R250 with 16 zero bytes of input. -/
def rjBlockReady : State :=
  { State.reset with rjctx := aesContext, rjv := true, dlen := 16,
                     mem := (Memory.write [] sboxBase (sboxTable 0x1B)).write isboxBase (isboxTable 0x1B) }

theorem rjBlockReady_coherent : rjBlockReady.Coherent where
  params := by decide
  memWf := Memory.write_wf (Memory.write_wf ⟨List.Pairwise.nil, by simp⟩ _ _) _ _
  memMapped := by
    intro c hc
    rcases Memory.mem_write hc with hc | hc
    · rcases Memory.mem_write hc with hc | hc
      · cases hc
      · rw [sboxTable_length] at hc
        exact ⟨.sbox, by rw [Buf.holds, Bool.and_eq_true, decide_eq_true_eq, decide_eq_true_eq]; exact hc⟩
    · rw [isboxTable_length] at hc
      exact ⟨.isbox, by rw [Buf.holds, Bool.and_eq_true, decide_eq_true_eq, decide_eq_true_eq]; exact hc⟩
  latchClear := fun _ => ⟨rfl, rfl, rfl⟩
  latchSet := fun h => by cases h
  olenFits := Nat.zero_le _
  desKeys := by decide
  desInvalid := fun _ => rfl
  dealValid := fun h => by cases h
  dealInvalid := fun _ => rfl
  rjValid := by
    refine fun _ => ⟨aesContext_legal, fun v => ⟨?_, ?_⟩⟩
    · have hv := v.isLt
      simp only [State.sbox, rjBlockReady]
      rw [Memory.read_write_outside (by simp only [sboxBase, isboxBase]; omega),
        Memory.read_write_inside (by simpa using hv)]
      simp [sboxTable, hv, aesContext, rjContext]
    · have hv := v.isLt
      simp only [State.isbox, rjBlockReady]
      rw [Memory.read_write_inside (by simpa using hv)]
      simp [isboxTable, hv, aesContext, rjContext]
  rjInvalid := fun h => by cases h
  modeValid := fun h => by cases h

/-- The machine after reset with one transaction pending. -/
def hostIs (x : HostTxn) : State := { State.reset with host := [x] }

theorem witness_DecodeOfEncode : (Instr.padaddPkcs7 1).wellFormed = true ∧ (Instr.padremZeros 255).wellFormed = true := by
  decide
theorem witness_DecodesExactlyTableWords :
    decode 0x1157831B#32 = .ok (.gfmul 0x57 0x83 0x1B) ∧
    Instr.row (.gfmul 0 0 0) ∈ opcodeRows ∧ (Instr.row (.gfmul 0 0 0)).accepts 0x1157831B#32 = true := by
  exact ⟨rfl, by decide, by decide⟩
theorem witness_StepRunsDecodedCommand :
    (State.reset.withFetchWord 32 0x31000000).host = [.write cmdOffset 4 0x31000000#32] ∧
    decode 0x31000000#32 = .ok .desenc := by exact ⟨rfl, rfl⟩
/-- An illegal word with the latch clear, and a malformed CLRERR and SRESET with the latch set. -/
theorem witness_IllegalWordLatched :
    ((State.reset.withFetchWord 32 0x04000000).host = [.write cmdOffset 4 0x04000000#32] ∧
      (∀ i, decode 0x04000000#32 ≠ .ok i) ∧ (State.reset.withFetchWord 32 0x04000000).err = false) ∧
    ((∀ i, decode 0x01000001#32 ≠ .ok i) ∧ (0x01000001#32).extractLsb' 24 8 = 0x01#8) ∧
    ((∀ i, decode 0x02800000#32 ≠ .ok i) ∧ (0x02800000#32).extractLsb' 24 8 = 0x02#8) := by
  refine ⟨⟨rfl, ?_, rfl⟩, ⟨?_, by decide⟩, ⟨?_, by decide⟩⟩ <;> intro i h <;> cases h
theorem witness_GateIgnoresCommands :
    ((latched.withFetchWord 32 0x03000000).host = [.write cmdOffset 4 0x03000000#32] ∧
      (latched.withFetchWord 32 0x03000000).err = true ∧ (0x03000000#32).extractLsb' 24 8 ≠ 0x01#8 ∧
      (0x03000000#32).extractLsb' 24 8 ≠ 0x02#8) ∧
    (latched.err = true ∧ Instr.nop ≠ .clrerr ∧ Instr.nop ≠ .sreset) := by
  exact ⟨⟨rfl, rfl, by decide, by decide⟩, rfl, by decide, by decide⟩
theorem witness_EveryStepEnds :
    State.reset.host = [] ∧ (State.reset.withFetchWord 32 0).host = [.write cmdOffset 4 0#32] ∧
    HostTxn.write cmdOffset 4 0#32 ≠ .reset := by exact ⟨rfl, rfl, by decide⟩
/-- The three transactions that clear a set latch. -/
theorem witness_LatchClearedOnlyByAcknowledge :
    ((latched.withFetchWord 32 0x01000000).host = [.write cmdOffset 4 0x01000000#32] ∧
      (latched.withFetchWord 32 0x01000000).err = true ∧
      ∃ t, step (latched.withFetchWord 32 0x01000000) = .next t ∧ t.err = false) ∧
    ((latched.withFetchWord 32 0x02000000).host = [.write cmdOffset 4 0x02000000#32] ∧
      (latched.withFetchWord 32 0x02000000).err = true ∧
      ∃ t, step (latched.withFetchWord 32 0x02000000) = .next t ∧ t.err = false) ∧
    ((latched.issueNext .reset).host = [.reset] ∧ (latched.issueNext .reset).err = true ∧
      ∃ t, step (latched.issueNext .reset) = .next t ∧ t.err = false) := by
  exact ⟨⟨rfl, rfl, _, rfl, rfl⟩, ⟨rfl, rfl, _, rfl, rfl⟩, rfl, rfl, _, rfl, rfl⟩
/-- A wrong width, a misaligned address, and the addresses on both sides of each mapped range of the default
machine. -/
theorem witness_BadTransactionsRefused :
    ((hostIs (.read 0x0000#16 2)).host = [.read 0x0000#16 2] ∧ 2 ≠ 4) ∧
    ((hostIs (.write 0x0019#16 4 7)).host = [.write 0x0019#16 4 7] ∧ (0x0019#16).toNat % 4 ≠ 0) ∧
    ∀ a ∈ [0x0034, 0x00FC, 0x0120, 0x013C, 0x0180, 0x01FC, 0x0600, 0x3FFC, 0x5000, 0x7FFC, 0x9000, 0xFFFC],
      let addr := BitVec.ofNat 16 a
      let s := hostIs (.read addr 4)
      s.host = [.read addr 4] ∧
      ¬ (addr.toNat < 0x0034 ∨ (0x0100 ≤ addr.toNat ∧ addr.toNat < 0x0120) ∨
         (0x0140 ≤ addr.toNat ∧ addr.toNat < 0x0180) ∨ (0x0200 ≤ addr.toNat ∧ addr.toNat < 0x0600) ∨
         (0x4000 ≤ addr.toNat ∧ addr.toNat < 0x4000 + s.params.bufBytes) ∨
         (0x8000 ≤ addr.toNat ∧ addr.toNat < 0x8000 + s.params.bufBytes)) := by decide +kernel
theorem witness_RegisterReads :
    let s : State := { State.reset with host := [.read 0x0000#16 4] }
    let s' : State := { State.reset with host := [.read 0x0030#16 4] }
    s.host = [.read 0x0000#16 4] ∧ (0x0000#16, 0x4E504301#32) ∈ [(0x0000#16, 0x4E504301#32)] ∧
    s'.host = [.read 0x0030#16 4] ∧ (0x0030#16, s'.mcfg) ∈ [(0x002C#16, s'.rjcfg), (0x0030#16, s'.mcfg)] := by
  decide
theorem witness_ReadbackLayout :
    State.reset.rjv = false ∧ State.reset.modev = false ∧ (rjBlockReady.rjv = true ∧ RjLegal rjBlockReady.rjctx) ∧
    ((desMode .cbc).modev = true ∧ (desMode .cbc).modectx.bs < 256 ∧ (desMode .cbc).modectx.civ.length ≤ 64) := by
  exact ⟨rfl, rfl, ⟨rfl, aesContext_legal⟩, rfl, by decide, by decide⟩
theorem witness_LengthRegisterWrites :
    let v := 0xFFFFFFFF#32
    let s := fun a : BitVec 16 => { State.reset with host := [.write a 4 v, .read a 4] }
    (s 0x0018).host = [.write 0x0018#16 4 v, .read 0x0018#16 4] ∧
    (0x0018#16, 0x3F#32, { s 0x0018 with klen := v.setWidth 6 }) ∈
      [(0x0018#16, 0x3F#32, { s 0x0018 with klen := v.setWidth 6 })] ∧
    (s 0x0028).host = [.write 0x0028#16 4 v, .read 0x0028#16 4] ∧
    (0x0028#16, 0x1FF#32, { s 0x0028 with tlen := v.setWidth 9 }) ∈
      [(0x0028#16, 0x1FF#32, { s 0x0028 with tlen := v.setWidth 9 })] := by
  exact ⟨rfl, List.mem_singleton.2 rfl, rfl, List.mem_singleton.2 rfl⟩
/-- The first and the last word of every buffer of the default machine, RW and RO, and the RO registers. -/
theorem witness_HostBufferAccess :
    (hostIs (.read 0x8FFC#16 4)).host = [.read 0x8FFC#16 4] ∧ (hostIs (.read 0x8FFC#16 4)).params.Valid ∧
    (∀ a ∈ [0x0100, 0x011C, 0x0140, 0x017C, 0x0200, 0x03FC, 0x4000, 0x4FFC],
      let addr := BitVec.ofNat 16 a
      let s := hostIs (.write addr 4 7)
      s.host = [.write addr 4 7] ∧ s.params.Valid ∧ addr.toNat % 4 = 0 ∧ ((0x0100 ≤ addr.toNat ∧ addr.toNat < 0x0120) ∨
        (0x0140 ≤ addr.toNat ∧ addr.toNat < 0x0180) ∨ (0x0200 ≤ addr.toNat ∧ addr.toNat < 0x0400) ∨
        (0x4000 ≤ addr.toNat ∧ addr.toNat < 0x4000 + s.params.bufBytes))) ∧
    (∀ a ∈ [0x0000, 0x0008, 0x0014, 0x0024, 0x002C, 0x0030, 0x0400, 0x05FC, 0x8000, 0x8FFC],
      let addr := BitVec.ofNat 16 a
      let s := hostIs (.write addr 4 7)
      s.host = [.write addr 4 7] ∧ s.params.Valid ∧ addr.toNat % 4 = 0 ∧ (addr.toNat = 0x0000 ∨ (0x0008 ≤ addr.toNat ∧ addr.toNat < 0x0018) ∨
        addr.toNat = 0x0024 ∨ (0x002C ≤ addr.toNat ∧ addr.toNat < 0x0034) ∨
        (0x0400 ≤ addr.toNat ∧ addr.toNat < 0x0600) ∨
        (0x8000 ≤ addr.toNat ∧ addr.toNat < 0x8000 + s.params.bufBytes))) := by decide +kernel
theorem witness_StepKeepsCoherent : (desCbc 8).Coherent ∧ ∃ t, step (desCbc 8) = .next t :=
  ⟨desCbc_coherent 8, _, rfl⟩
theorem witness_ErrorsArePrecise :
    State.reset.err = false ∧ exec (.gfmul 0x57 0x83 0) State.reset = .next latched ∧ latched.err = true := by
  exact ⟨rfl, rfl, rfl⟩
theorem witness_ErrorsOfEachCommand :
    (Instr.gfmul 0x57 0x83 0).wellFormed = true ∧ State.reset.err = false ∧
    exec (.gfmul 0x57 0x83 0) State.reset = .next latched ∧ latched.err = true := by exact ⟨rfl, rfl, rfl, rfl⟩
theorem witness_CommandFootprints :
    State.reset.params.Valid ∧ State.reset.olen.toNat ≤ State.reset.params.bufBytes ∧ Instr.otoi ≠ .sreset ∧
    ∃ t, exec .otoi State.reset = .next t := by exact ⟨by decide, by decide, by decide, _, rfl⟩
/-- The bound cipher re-keyed, and each of the other two. -/
theorem witness_RekeyInvalidatesMode :
    let s : State := { desCbc 0 with klen := 8 }
    let s' : State := { desCbc 0 with klen := 32 }
    s.err = false ∧ s.modev = true ∧ s.modectx.cipher = .des ∧ s'.err = false ∧ s'.modev = true ∧
    (∃ t, exec .deskey s = .next t ∧ t.err = false) ∧ (∃ t, exec .dealkey s' = .next t ∧ t.err = false) ∧
    (∃ t, exec (.rjkey 16 0x1B) s' = .next t ∧ t.err = false) :=
  ⟨rfl, rfl, rfl, rfl, rfl, ⟨_, rfl, rfl⟩, ⟨_, rfl, rfl⟩,
    ⟨_, by rw [exec, execRjkey, gated]; rfl, rfl⟩⟩
theorem witness_SystemCommandResults : State.reset.err = false := rfl
theorem witness_PolynomialArithmetic :
    (1 : Nat) ≠ 0 ∧ (5 : Nat) = pmul 1 2 ^^^ 7 ∧ (0 : Nat) = pmul 0 1 ^^^ 0 ∧ pdeg 0 < pdeg 1 := by decide
theorem witness_GfLaws : (0x01#8 : Byte) ≠ 0 ∧ (0xFF#8 : Byte) ≠ 0 := by decide
theorem witness_GfInvIsInverse : (0x1B#8 : Byte) ≠ 0 ∧ gfIrr 0x1B = true ∧ (0x01#8 : Byte) ≠ 0 := by decide
theorem witness_GfIrrIsIrreducible : (0x01#8 : Byte) ≠ 0 ∧ pmul 1 (0x100 ||| 1) = 0x100 ||| 1 := by decide
theorem witness_GfCommandResults : State.reset.err = false ∧ (0x01#8 : Byte) ≠ 0 ∧ (0xFF#8 : Byte) ≠ 0 := by decide
theorem witness_GfCommandErrors :
    State.reset.err = false ∧ (∃ a b, Instr.gfmul 1 2 0 = .gfmul a b 0) ∧ (∃ x, Instr.pdiv 7 0 = .pdiv x 0) :=
  ⟨rfl, ⟨_, _, rfl⟩, ⟨_, rfl⟩⟩
/-- Two bytes and a table of the first and the last usable bit, under a left rule with `lz = 4` and a right one. -/
theorem witness_PermResult :
    let s := withTbl (withDin State.reset (hex 2 0x0ABC)) [1, 12]
    let s' := withTbl (withDin State.reset (hex 2 0x0ABC)) [0, 15]
    (s.err = false ∧ s.dlen.toNat ≤ s.params.bufBytes ∧ s.tlen.toNat ≤ 256 ∧
      ∀ i, i < s.tlen.toNat → 0 ≤ s.tblEntry i - 1 ∧ s.tblEntry i - 1 < 12) ∧
    (s'.err = false ∧ s'.dlen.toNat ≤ s'.params.bufBytes ∧ s'.tlen.toNat ≤ 256 ∧
      ∀ i, i < s'.tlen.toNat → 0 ≤ s'.tblEntry i - 0 ∧ s'.tblEntry i - 0 < 16) := by decide
/-- DLEN and TLEN one above their limits; an entry one above the usable bits, and one below zero. -/
theorem witness_PermErrors :
    let s : State := { State.reset with dlen := 4097 }
    let s' : State := { State.reset with dlen := 4096, tlen := 257 }
    let s2 := withTbl (withDin State.reset (hex 2 0x0ABC)) [13]
    let s3 := withTbl (withDin State.reset (hex 2 0x0ABC)) [0]
    (s.err = false ∧ s.params.bufBytes < s.dlen.toNat) ∧
    (s'.dlen.toNat ≤ s'.params.bufBytes ∧ 256 < s'.tlen.toNat) ∧
    (s2.dlen.toNat ≤ s2.params.bufBytes ∧ s2.tlen.toNat ≤ 256 ∧ 0 < s2.tlen.toNat ∧
      ¬ (0 ≤ s2.tblEntry 0 - 1 ∧ s2.tblEntry 0 - 1 < 12)) ∧
    (0 < s3.tlen.toNat ∧ ¬ (0 ≤ s3.tblEntry 0 - 1 ∧ s3.tblEntry 0 - 1 < 12)) := by decide
theorem witness_PermIntIsRearrange : ∀ e ∈ [1, 8, 9, 16], 1 ≤ e ∧ e ≤ 8 * (hex 2 0).length := by decide
theorem witness_FeistelInverse : 1 ≤ 1 := by decide
/-- The least round count, the first and the last round and group, in both directions. -/
theorem witness_FeistelCipherFormulas :
    (1 ≤ 1 ∧ 0 < 2 - 1) ∧ (∀ r ∈ [1, 16], 1 ≤ r ∧ r ≤ 16) ∧ (∀ j ∈ [0, 7], j < 8) := by decide
theorem witness_DesDealRoundTrip : (hex 8 0).length = 8 ∧ (hex 16 0).length = 16 := by decide
theorem witness_LowKeyBitsIgnored :
    0x133457799BBCDFF1#64 &&& 0xFEFEFEFEFEFEFEFE#64 = 0x123456789ABCDEF0#64 &&& 0xFEFEFEFEFEFEFEFE#64 := by decide
theorem witness_DealKeySchedule :
    (hex 16 0).length = 16 ∧ (hex 24 0).length = 24 ∧ (hex 32 0).length = 32 := by decide
theorem witness_DesDealKeyResults :
    State.reset.err = false ∧ (withKey State.reset (hex 8 0)).klen.toNat = 8 ∧
    ∀ n ∈ [16, 24, 32], (withKey State.reset (hex n 0)).klen.toNat = n := by decide
theorem witness_RawCipherResults :
    ((desCbc 8).err = false ∧ (desCbc 8).desv = true ∧ (desCbc 8).dlen.toNat = 8) ∧
    (dealBlockReady.err = false ∧ dealBlockReady.dealv = true ∧ dealBlockReady.dlen.toNat = 16) ∧
    (rjBlockReady.err = false ∧ rjBlockReady.rjv = true ∧ RjLegal rjBlockReady.rjctx ∧
      rjBlockReady.dlen.toNat = 4 * rjBlockReady.rjctx.nb) :=
  ⟨⟨rfl, rfl, rfl⟩, ⟨rfl, rfl, rfl⟩, rfl, rfl, aesContext_legal, rfl⟩
theorem witness_RawCipherErrors :
    (State.reset.err = false ∧ State.reset.desv = false ∧ State.reset.dealv = false ∧ State.reset.rjv = false) ∧
    ((desCbc 7).err = false ∧ (desCbc 7).desv = true ∧ (desCbc 7).dlen.toNat ≠ 8) ∧
    ((desCbc 9).dlen.toNat ≠ 8) := by exact ⟨⟨rfl, rfl, rfl, rfl⟩, ⟨rfl, rfl, by decide⟩, by decide⟩
theorem witness_RawCipherRoundTrip :
    ((desCbc 8).Coherent ∧ (desCbc 8).err = false ∧ (desCbc 8).desv = true ∧ (desCbc 8).dlen.toNat = 8) ∧
    (dealBlockReady.Coherent ∧ dealBlockReady.err = false ∧ dealBlockReady.dealv = true ∧
      dealBlockReady.dlen.toNat = 16) ∧
    (rjBlockReady.Coherent ∧ rjBlockReady.err = false ∧ rjBlockReady.rjv = true ∧
      rjBlockReady.dlen.toNat = 4 * rjBlockReady.rjctx.nb) :=
  ⟨⟨desCbc_coherent 8, rfl, rfl, rfl⟩, ⟨dealBlockReady_coherent, rfl, rfl, rfl⟩, rjBlockReady_coherent, rfl, rfl, rfl⟩
theorem witness_SboxInverse : (0x1B#8 : Byte) ≠ 0 ∧ gfIrr 0x1B = true := by decide
theorem witness_InverseTransforms :
    ((hex 32 0).length = 4 * 8 ∧ ∀ r ∈ [0, 3], r < 4 ∧ ∀ c ∈ [0, 7], c < (List.replicate 8 Col.zero).length) ∧
    (0x06#8 : Byte) ≠ 0 ∧ (List.replicate 4 Col.zero).length = aesContext.nb ∧
    (10 + 1) * aesContext.nb ≤ aesContext.w.length ∧ gfIrr 0xF9 = true :=
  ⟨by decide, by decide, rfl, by rw [aesContext_legal.columns]; decide, by decide⟩
theorem witness_RijndaelKeySchedule : 0 < 8 ∧ 8 ≤ 4 * (14 + 1) := by decide
theorem witness_RijndaelRoundTrip :
    RjLegal aesContext ∧ (hex 16 0).length = 4 * aesContext.nb ∧ 1 ≤ aesContext.nr ∧
    ∀ rnd ∈ [1, 9], 1 ≤ rnd ∧ rnd < aesContext.nr := ⟨aesContext_legal, rfl, by decide, by decide⟩
theorem witness_RjkeyResult :
    ∀ n ∈ [16, 24, 32], (withKey State.reset (hex n 0)).err = false ∧ (withKey State.reset (hex n 0)).klen.toNat = n ∧
      (BitVec.ofNat 8 n).toNat = n ∧ (0x1B#8 : Byte) ≠ 0 ∧ gfIrr 0x1B = true := by decide
theorem witness_KeyCommandErrors :
    State.reset.err = false ∧ State.reset.klen.toNat ≠ 8 ∧
    (∀ n ∈ [0, 15, 17, 33], ¬ (n = 16 ∨ n = 24 ∨ n = 32)) ∧ (0 : Byte).toNat ≠ 16 ∧
    (withKey State.reset (hex 16 0)).klen.toNat = 16 ∧ gfIrr 0x06 = false ∧ (0x06#8 : Byte) ≠ 0 := by decide
/-- Each mode over the 64-bit cipher with an IV at an end of what it takes. -/
theorem witness_MinitResults :
    (∀ n ∈ [0, 1, 6, 7, 8], (desIv n).err = false ∧ (desIv n).desv = true ∧ (desIv n).ivlen.toNat = n) ∧
    (8 ≠ 0 ∧ 8 ≤ 64 ∧ 8 = 8) ∧ (7 ≠ 0 ∧ 7 ≤ 64 ∧ 7 < 8) ∧
    (withIv desReady (hex 64 0)).ivlen.toNat = 64 ∧ 64 % 2 = 0 := by decide
theorem witness_MinitErrors :
    State.reset.err = false ∧ State.reset.desv = false ∧ Mode.cbc ≠ .ecb ∧
    (desIv 0).desv = true ∧ (desIv 0).ivlen.toNat = 0 ∧ (desIv 7).ivlen.toNat ≠ 8 ∧ 8 ≤ (desIv 8).ivlen.toNat ∧
    (desIv 7).ivlen.toNat % 2 = 1 ∧ 64 < (withIv desReady (hex 66 0)).ivlen.toNat := by decide
theorem witness_ModeDataResults :
    ∀ n ∈ [0, 8, 4096], (desCbc n).Coherent ∧ (desCbc n).err = false ∧ (desCbc n).modev = true ∧
      (desCbc n).dlen.toNat ≤ (desCbc n).params.bufBytes ∧ (desCbc n).dlen.toNat % (desCbc n).modectx.bs = 0 := by
  intro n hn
  refine ⟨desCbc_coherent n, rfl, rfl, ?_⟩
  revert n
  decide
/-- One block, and a full buffer. -/
theorem witness_ModeRoundTrip :
    ∀ n ∈ [8, 4096], (desCbc n).Coherent ∧ (desCbc n).err = false ∧ (desCbc n).modev = true ∧
      (desCbc n).dlen.toNat ≤ (desCbc n).params.bufBytes ∧ (desCbc n).dlen.toNat % (desCbc n).modectx.bs = 0 :=
  fun n hn => witness_ModeDataResults n (List.mem_cons_of_mem 0 hn)
theorem witness_ModeDataErrors :
    (State.reset.err = false ∧ State.reset.modev = false) ∧
    ((desCbc 4097).err = false ∧ (desCbc 4097).modev = true ∧ (desCbc 4097).params.bufBytes < (desCbc 4097).dlen.toNat) ∧
    ((desCbc 7).dlen.toNat ≤ (desCbc 7).params.bufBytes ∧ (desCbc 7).dlen.toNat % (desCbc 7).modectx.bs ≠ 0) := by
  exact ⟨⟨rfl, rfl⟩, ⟨rfl, rfl, by decide⟩, by decide, by decide⟩
theorem witness_ModeDataDependence :
    (desCbc 8).Coherent ∧ (desCbc 8).err = false ∧ (desCbc 8).modev = true ∧
    ∃ t, exec .menc (desCbc 8) = .next t ∧ t.err = false :=
  ⟨desCbc_coherent 8, rfl, rfl, _, by rw [exec, execMenc, modeData, gated]; rfl, rfl⟩
/-- An input with room for its padding, and for ZEROS a full buffer. -/
theorem witness_PadaddResults :
    let s : State := { State.reset with dlen := 4080 }
    let s' : State := { State.reset with dlen := 4096 }
    (s.err = false ∧ (16#8 : Byte) ≠ 0 ∧ s.dlen.toNat ≤ s.params.bufBytes ∧
      s.dlen.toNat + (16 - s.dlen.toNat % 16) ≤ s.params.bufBytes) ∧
    (s'.dlen.toNat % 16 = 0 ∧ s'.dlen.toNat ≤ s'.params.bufBytes) := by decide
theorem witness_PadremResults :
    let s := withDin State.reset (hex 4 0x00112204)
    s.err = false ∧ (1#8 : Byte) ≠ 0 ∧ s.dlen.toNat ≤ s.params.bufBytes ∧ s.din ≠ [] ∧
      (s.din.getD (s.din.length - 1) 0).toNat ≤ s.din.length := by decide
theorem witness_PaddingErrors :
    let s : State := { State.reset with dlen := 4097 }
    let s' : State := { State.reset with dlen := 4096 }
    let s2 := withDin State.reset (hex 4 0x00112205)
    (State.reset.err = false ∧ State.reset.dlen.toNat = 0) ∧ (s.params.bufBytes < s.dlen.toNat) ∧
    (s'.dlen.toNat ≤ s'.params.bufBytes ∧ s'.params.bufBytes < s'.dlen.toNat + (255 - s'.dlen.toNat % 255)) ∧
    (s2.dlen.toNat ≠ 0 ∧ s2.dlen.toNat < (s2.din.getD (s2.dlen.toNat - 1) 0).toNat) := by decide
theorem witness_PaddingRoundTrip : (1 ≤ 1 ∧ 1 ≤ 255) ∧ (1 ≤ 255 ∧ 255 ≤ 255) := by decide
theorem witness_CompositeRoundTrip :
    (desCbc 4088).Coherent ∧ (desCbc 4088).err = false ∧ (desCbc 4088).modev = true ∧ Scheme.iso ≠ .zeros ∧
    (8#8 : Byte).toNat = (desCbc 4088).modectx.bs ∧
    (desCbc 4088).dlen.toNat + ((desCbc 4088).modectx.bs - (desCbc 4088).dlen.toNat % (desCbc 4088).modectx.bs) ≤
      (desCbc 4088).params.bufBytes :=
  ⟨desCbc_coherent _, rfl, rfl, by decide, rfl, by decide⟩

end Sys2Proof.Tests
end

section
/-!
Polynomials over GF(2) (00_scope.md R14): what `pmul`, `pdeg`, `pdiv` and `prem` compute.

A polynomial is the natural number of its coefficients, so every law of `pmul` is read off the coefficients of the
product (`testBit_pmul`). A remainder modulo `q` is a number below `2 ^ q.log2` (`pdeg_lt_pdeg_iff`), and a multiple
of `q` below that bound is 0 (`eq_zero_of_pmul_lt`), which is why quotient and remainder are unique.
-/

namespace Sys2Proof.Machine

/-! ### Degrees -/

theorem pdeg_of_ne_zero {p : Nat} (hp : p ≠ 0) : pdeg p = (p.log2 : Int) := if_neg hp

theorem pdeg_lt_pdeg_iff {b q : Nat} (hq : q ≠ 0) : pdeg b < pdeg q ↔ b < 2 ^ q.log2 := by
  rw [pdeg_of_ne_zero hq]
  by_cases hb : b = 0
  · subst hb
    simp only [pdeg, if_true, Nat.two_pow_pos, iff_true]
    omega
  · rw [pdeg_of_ne_zero hb, Int.ofNat_lt, Nat.log2_lt hb]

theorem testBit_pdeg {p : Nat} (hp : p ≠ 0) : p.testBit (pdeg p).toNat = true := by
  rw [pdeg_of_ne_zero hp, Int.toNat_natCast]
  exact Nat.testBit_log2 hp

theorem testBit_eq_false_of_pdeg_lt {p k : Nat} (hp : p ≠ 0) (hk : pdeg p < (k : Int)) : p.testBit k = false := by
  rw [pdeg_of_ne_zero hp, Int.ofNat_lt, Nat.log2_lt hp] at hk
  exact Nat.testBit_lt_two_pow hk

/-! ### Coefficients of a product -/

/-- The sum over GF(2) of `f 0`, …, `f (n - 1)`. -/
def xorSum (f : Nat → Bool) (n : Nat) : Bool := (List.range n).foldl (fun acc i => xor acc (f i)) false

theorem xorSum_succ (f : Nat → Bool) (n : Nat) : xorSum f (n + 1) = xor (xorSum f n) (f n) := by
  simp [xorSum, List.range_succ]

theorem xorSum_succ' (f : Nat → Bool) (n : Nat) :
    xorSum f (n + 1) = xor (f 0) (xorSum (fun i => f (i + 1)) n) := by
  induction n with
  | zero => simp [xorSum]
  | succ n ih => rw [xorSum_succ, ih, xorSum_succ, Bool.xor_assoc]

theorem xorSum_congr {f g : Nat → Bool} {n : Nat} (h : ∀ i < n, f i = g i) : xorSum f n = xorSum g n := by
  induction n with
  | zero => rfl
  | succ n ih => rw [xorSum_succ, xorSum_succ, ih fun i hi => h i (by omega), h n (by omega)]

theorem xorSum_xor (f g : Nat → Bool) (n : Nat) :
    xorSum (fun i => xor (f i) (g i)) n = xor (xorSum f n) (xorSum g n) := by
  induction n with
  | zero => rfl
  | succ n ih =>
    simp only [xorSum_succ, ih, Bool.xor_assoc, Bool.xor_left_comm (xorSum g n)]

/-- Coefficient `k` of the product of `p` and `q`, as R14 gives it. -/
def pmulCoeff (p q k : Nat) : Bool := xorSum (fun i => p.testBit i && q.testBit (k - i)) (k + 1)

theorem pmulCoeff_zero (p q : Nat) : pmulCoeff p q 0 = (p.testBit 0 && q.testBit 0) := by
  simp [pmulCoeff, xorSum]

theorem pmulCoeff_succ_left (p q k : Nat) :
    pmulCoeff p q (k + 1) = xor (p.testBit 0 && q.testBit (k + 1)) (pmulCoeff (p / 2) q k) := by
  simp only [pmulCoeff, xorSum_succ' _ (k + 1), Nat.testBit_succ, Nat.add_sub_add_right, Nat.sub_zero]

theorem pmulCoeff_succ_right (p q k : Nat) :
    pmulCoeff p q (k + 1) = xor (pmulCoeff p (q / 2) k) (p.testBit (k + 1) && q.testBit 0) := by
  have shift : ∀ i < k + 1, (p.testBit i && q.testBit (k + 1 - i)) = (p.testBit i && (q / 2).testBit (k - i)) := by
    intro i hi
    rw [← Nat.testBit_succ, Nat.succ_sub (by omega)]
  rw [pmulCoeff, xorSum_succ, xorSum_congr shift, Nat.sub_self, pmulCoeff]

theorem pmulCoeff_comm (p q k : Nat) : pmulCoeff p q k = pmulCoeff q p k := by
  induction k generalizing p q with
  | zero => rw [pmulCoeff_zero, pmulCoeff_zero, Bool.and_comm]
  | succ k ih => rw [pmulCoeff_succ_right, ih, pmulCoeff_succ_left, Bool.xor_comm, Bool.and_comm]

theorem pmulCoeff_xor_left (a b q k : Nat) : pmulCoeff (a ^^^ b) q k = xor (pmulCoeff a q k) (pmulCoeff b q k) := by
  simp only [pmulCoeff, ← xorSum_xor, Nat.testBit_xor, Bool.and_xor_distrib_right]

theorem pmulCoeff_zero_right (p k : Nat) : pmulCoeff p 0 k = false := by
  induction k with
  | zero => simp [pmulCoeff_zero]
  | succ k ih => simp [pmulCoeff_succ_right, ih]

theorem testBit_mod_two_mul (c x k : Nat) : (c % 2 * x).testBit k = (c.testBit 0 && x.testBit k) := by
  rcases Nat.mod_two_eq_zero_or_one c with h | h <;> simp [h]

/-- The step of `pmulSteps`, on coefficients. -/
theorem pmulCoeff_eq_xor_two_mul (p q k : Nat) :
    pmulCoeff p q k = xor ((q % 2 * p).testBit k) (pmulCoeff (2 * p) (q / 2) k) := by
  rw [testBit_mod_two_mul]
  cases k with
  | zero => simp [pmulCoeff_zero, Bool.and_comm]
  | succ k =>
    rw [pmulCoeff_succ_right, pmulCoeff_succ_left (2 * p), Nat.mul_div_cancel_left p two_pos]
    simp [Bool.xor_comm, Bool.and_comm]

theorem testBit_pmulSteps {n q : Nat} (p k : Nat) (hq : q < 2 ^ n) :
    (pmulSteps n p q).testBit k = pmulCoeff p q k := by
  induction n generalizing p q with
  | zero =>
    obtain rfl : q = 0 := by omega
    rw [pmulCoeff_zero_right, pmulSteps, Nat.zero_testBit]
  | succ n ih =>
    have hq2 : q / 2 < 2 ^ n := by omega
    rw [pmulSteps, Nat.testBit_xor, ih (2 * p) hq2, ← pmulCoeff_eq_xor_two_mul]

theorem testBit_pmul (p q k : Nat) : (pmul p q).testBit k = pmulCoeff p q k :=
  testBit_pmulSteps p k Nat.lt_log2_self

/-! ### Laws of the product -/

theorem pmul_comm (p q : Nat) : pmul p q = pmul q p :=
  Nat.eq_of_testBit_eq fun k => by rw [testBit_pmul, testBit_pmul, pmulCoeff_comm]

theorem pmul_xor_left (a b q : Nat) : pmul (a ^^^ b) q = pmul a q ^^^ pmul b q :=
  Nat.eq_of_testBit_eq fun k => by
    rw [Nat.testBit_xor, testBit_pmul, testBit_pmul, testBit_pmul, pmulCoeff_xor_left]

@[simp] theorem pmul_zero_left (q : Nat) : pmul 0 q = 0 := by
  rw [pmul_comm]
  simp [pmul, pmulSteps]

@[simp] theorem pmul_one_left (q : Nat) : pmul 1 q = q := by
  have log2_one : Nat.log2 1 = 0 := by decide
  rw [pmul_comm]
  simp [pmul, pmulSteps, log2_one]

theorem pmul_two_mul_left (p q : Nat) : pmul (2 * p) q = 2 * pmul p q := by
  refine Nat.eq_of_testBit_eq fun k => ?_
  rw [testBit_pmul]
  cases k with
  | zero => simp [pmulCoeff_zero]
  | succ k => simp [pmulCoeff_succ_left, Nat.testBit_succ (2 * pmul p q), testBit_pmul]

theorem pmul_shiftLeft_left (p q k : Nat) : pmul (p <<< k) q = pmul p q <<< k := by
  induction k with
  | zero => rfl
  | succ k ih => rw [Nat.shiftLeft_succ, Nat.shiftLeft_succ, pmul_two_mul_left, ih]

/-- Horner's step of the product, on the lowest coefficient of the left factor. -/
theorem pmul_eq_xor_two_mul (p q : Nat) : pmul p q = (p % 2 * q) ^^^ 2 * pmul (p / 2) q := by
  have split : p = (p % 2) ^^^ 2 * (p / 2) := by
    refine Nat.eq_of_testBit_eq fun k => ?_
    cases k <;> simp [Nat.testBit_succ, Nat.xor_div_two]
  conv_lhs => rw [split, pmul_xor_left, pmul_two_mul_left]
  rcases Nat.mod_two_eq_zero_or_one p with h | h <;> simp [h]

/-- The leading coefficients of two polynomials that are not 0 multiply to the leading one of the product. -/
theorem testBit_pmul_log2_add {p q : Nat} (hp : p ≠ 0) (hq : q ≠ 0) :
    (pmul p q).testBit (p.log2 + q.log2) = true := by
  induction p using Nat.strongRecOn with
  | ind p ih =>
    rw [Nat.log2_def]
    split
    case isFalse small =>
      obtain rfl : p = 1 := by omega
      rw [pmul_one_left, Nat.zero_add, Nat.testBit_log2 hq]
    case isTrue large =>
      have top : (p % 2 * q).testBit ((p / 2).log2 + q.log2 + 1) = false := by
        have bound : p % 2 * q < 2 ^ (q.log2 + 1) :=
          lt_of_le_of_lt (mul_le_of_le_one_left q.zero_le (by omega)) Nat.lt_log2_self
        exact Nat.testBit_lt_two_pow (bound.trans_le (Nat.pow_le_pow_right two_pos (by omega)))
      rw [pmul_eq_xor_two_mul, Nat.add_right_comm, Nat.testBit_xor, top, Nat.testBit_succ,
        Nat.mul_div_cancel_left _ two_pos, ih (p / 2) (by omega) (by omega), Bool.false_xor]

theorem eq_zero_of_pmul_lt {p q : Nat} (hq : q ≠ 0) (h : pmul p q < 2 ^ q.log2) : p = 0 := by
  by_contra hp
  have lower : 2 ^ (p.log2 + q.log2) ≤ pmul p q := Nat.ge_two_pow_of_testBit (testBit_pmul_log2_add hp hq)
  have mono : 2 ^ q.log2 ≤ 2 ^ (p.log2 + q.log2) := Nat.pow_le_pow_right two_pos (by omega)
  omega

/-! ### Division -/

theorem pmul_bit_shiftLeft {c : Nat} (hc : c < 2) (q k : Nat) : pmul (c <<< k) q = c * (q <<< k) := by
  rw [pmul_shiftLeft_left]
  obtain rfl | rfl : c = 0 ∨ c = 1 := by omega
  · simp
  · simp

theorem pdivSteps_eq (q dq n r : Nat) :
    r = pmul (pdivSteps q dq n r).1 q ^^^ (pdivSteps q dq n r).2 := by
  induction n generalizing r with
  | zero => simp [pdivSteps]
  | succ n ih =>
    simp only [pdivSteps]
    rw [pmul_xor_left, Nat.xor_assoc, ← ih, pmul_bit_shiftLeft (Nat.mod_lt _ two_pos), Nat.xor_comm r,
      Nat.xor_xor_cancel_left]

/-- One step of long division removes the leading coefficient of `r`. -/
theorem xor_mul_shiftLeft_lt {q r n : Nat} (hq : q ≠ 0) (hr : r < 2 ^ (n + 1 + q.log2)) :
    r ^^^ ((r >>> (n + q.log2)) % 2 * (q <<< n)) < 2 ^ (n + q.log2) := by
  have bound : q <<< n < 2 ^ (n + 1 + q.log2) := by
    have split : 2 ^ (n + 1 + q.log2) = 2 ^ (q.log2 + 1) * 2 ^ n := by rw [← Nat.pow_add]; congr 1; omega
    rw [Nat.shiftLeft_eq, split]
    exact Nat.mul_lt_mul_of_pos_right Nat.lt_log2_self (Nat.two_pow_pos n)
  have lead : (q <<< n).testBit (n + q.log2) = true := by simp [Nat.testBit_log2 hq]
  refine Nat.lt_pow_two_of_testBit _ fun i hi => ?_
  rw [Nat.testBit_xor, testBit_mod_two_mul]
  obtain rfl | above : i = n + q.log2 ∨ n + 1 + q.log2 ≤ i := by omega
  · simp [lead]
  · have pow_le : 2 ^ (n + 1 + q.log2) ≤ 2 ^ i := Nat.pow_le_pow_right two_pos above
    rw [Nat.testBit_lt_two_pow (hr.trans_le pow_le), Nat.testBit_lt_two_pow (bound.trans_le pow_le),
      Bool.and_false, Bool.xor_false]

theorem pdivSteps_snd_lt {q : Nat} (hq : q ≠ 0) {n r : Nat} (hr : r < 2 ^ (n + q.log2)) :
    (pdivSteps q q.log2 n r).2 < 2 ^ q.log2 := by
  induction n generalizing r with
  | zero => simpa [pdivSteps] using hr
  | succ n ih => exact ih (xor_mul_shiftLeft_lt hq hr)

theorem eq_pmul_pdiv_xor_prem (p q : Nat) : p = pmul (pdiv p q) q ^^^ prem p q := pdivSteps_eq q q.log2 _ p

theorem prem_lt {q : Nat} (hq : q ≠ 0) (p : Nat) : prem p q < 2 ^ q.log2 :=
  pdivSteps_snd_lt hq (Nat.lt_log2_self.trans_le (Nat.pow_le_pow_right two_pos (by omega)))

/-- Two divisions with remainder of the same polynomial agree: the difference of the remainders is a multiple of
`q` of lower degree than `q`. -/
theorem divMod_unique {a a' b b' q : Nat} (hq : q ≠ 0) (h : pmul a q ^^^ b = pmul a' q ^^^ b')
    (hb : b < 2 ^ q.log2) (hb' : b' < 2 ^ q.log2) : a = a' ∧ b = b' := by
  have diff : pmul (a ^^^ a') q = b ^^^ b' := by
    have rem : b' = pmul a' q ^^^ pmul a q ^^^ b := by rw [Nat.xor_assoc, h, Nat.xor_xor_cancel_left]
    rw [pmul_xor_left, rem, Nat.xor_comm b, Nat.xor_xor_cancel_right, Nat.xor_comm]
  have quot : a = a' := Nat.xor_eq_zero_iff.mp (eq_zero_of_pmul_lt hq (diff ▸ Nat.xor_lt_two_pow hb hb'))
  subst quot
  exact ⟨rfl, Nat.xor_right_injective h⟩

/-- Settles O22: the coefficients of the product are read off `pmulSteps`, and division is an invariant of
`pdivSteps` whose uniqueness rests on the degree of a multiple of `q`. -/
theorem polynomialArithmetic : Obligations.PolynomialArithmetic := by
  refine ⟨⟨rfl, fun p hp => ⟨testBit_pdeg hp, fun k => testBit_eq_false_of_pdeg_lt hp⟩⟩, testBit_pmul, ?_⟩
  intro p q hq
  refine ⟨eq_pmul_pdiv_xor_prem p q, (pdeg_lt_pdeg_iff hq).mpr (prem_lt hq p), fun a b h hb => ?_⟩
  exact divMod_unique hq (h.symm.trans (eq_pmul_pdiv_xor_prem p q)) ((pdeg_lt_pdeg_iff hq).mp hb) (prem_lt hq p)

end Sys2Proof.Machine
end

section
/-!
The GF(2^8) unit (40_gf.md section 3): `gf_mul` is the residue of the product, `gf_irr` decides irreducibility, and
`gf_inv` inverts under an irreducible modulus.

`q` divides `p` exactly when `prem p q = 0` (`prem_eq_zero_iff`), and `gf_mul` is associative because a remainder may
be taken before a product (`prem_pmul_prem_left`). An irreducible polynomial is prime (`eq_zero_of_prem_pmul_eq_zero`),
so under an irreducible modulus the residues are a finite monoid in which every element but 0 cancels: a group of 255
elements, in which Lagrange's theorem gives `x^255 = 1`.
-/

namespace Sys2Proof.Machine

/-! ### Products: associativity and size -/

theorem pmul_assoc (a b c : Nat) : pmul (pmul a b) c = pmul a (pmul b c) := by
  induction a using Nat.strongRecOn with
  | ind a ih =>
    rcases Nat.eq_zero_or_pos a with rfl | pos
    · simp
    · have low : pmul (a % 2 * b) c = a % 2 * pmul b c := by
        rcases Nat.mod_two_eq_zero_or_one a with h | h <;> simp [h]
      rw [pmul_eq_xor_two_mul a b, pmul_xor_left, pmul_two_mul_left, ih (a / 2) (by omega), low,
        ← pmul_eq_xor_two_mul]

theorem pmul_lt_two_pow {p q a b : Nat} (hp : p < 2 ^ a) (hq : q < 2 ^ (b + 1)) : pmul p q < 2 ^ (a + b) := by
  induction a generalizing p with
  | zero =>
    obtain rfl : p = 0 := by omega
    simp
  | succ a ih =>
    have low : p % 2 * q < 2 ^ (a + 1 + b) :=
      (mul_le_of_le_one_left q.zero_le (by omega)).trans_lt
        (hq.trans_le (Nat.pow_le_pow_right two_pos (by omega)))
    have high : 2 * pmul (p / 2) q < 2 ^ (a + 1 + b) := by
      have half := ih (p := p / 2) (by omega)
      rw [Nat.add_right_comm, Nat.pow_succ]
      omega
    rw [pmul_eq_xor_two_mul]
    exact Nat.xor_lt_two_pow low high

theorem log2_pmul {p q : Nat} (hp : p ≠ 0) (hq : q ≠ 0) : (pmul p q).log2 = p.log2 + q.log2 := by
  have lower : 2 ^ (p.log2 + q.log2) ≤ pmul p q := Nat.ge_two_pow_of_testBit (testBit_pmul_log2_add hp hq)
  have upper : pmul p q < 2 ^ (p.log2 + 1 + q.log2) := pmul_lt_two_pow Nat.lt_log2_self Nat.lt_log2_self
  rw [Nat.add_right_comm] at upper
  exact (Nat.log2_eq_iff ((Nat.two_pow_pos _).trans_le lower).ne').mpr ⟨lower, upper⟩

/-! ### Remainders -/

theorem prem_pmul_xor {q b : Nat} (hq : q ≠ 0) (a : Nat) (hb : b < 2 ^ q.log2) : prem (pmul a q ^^^ b) q = b :=
  (divMod_unique hq (eq_pmul_pdiv_xor_prem (pmul a q ^^^ b) q).symm (prem_lt hq _) hb).2

theorem prem_of_lt {q b : Nat} (hq : q ≠ 0) (hb : b < 2 ^ q.log2) : prem b q = b := by
  simpa using prem_pmul_xor hq 0 hb

theorem prem_pmul_self {q : Nat} (hq : q ≠ 0) (a : Nat) : prem (pmul a q) q = 0 := by
  simpa using prem_pmul_xor hq a (Nat.two_pow_pos q.log2)

theorem prem_xor {q : Nat} (hq : q ≠ 0) (a b : Nat) : prem (a ^^^ b) q = prem a q ^^^ prem b q := by
  have sum : a ^^^ b = pmul (pdiv a q ^^^ pdiv b q) q ^^^ (prem a q ^^^ prem b q) := by
    conv_lhs => rw [eq_pmul_pdiv_xor_prem a q, eq_pmul_pdiv_xor_prem b q]
    rw [pmul_xor_left]
    ac_rfl
  rw [sum, prem_pmul_xor hq _ (Nat.xor_lt_two_pow (prem_lt hq a) (prem_lt hq b))]

/-- `q` divides `p` exactly when the remainder is 0, and the quotient is a factor. -/
theorem prem_eq_zero_iff {p q : Nat} (hq : q ≠ 0) : prem p q = 0 ↔ p = pmul (pdiv p q) q := by
  constructor
  · intro h
    simpa [h] using eq_pmul_pdiv_xor_prem p q
  · intro h
    rw [h, prem_pmul_self hq]

/-- A remainder may be taken before a product. -/
theorem prem_pmul_prem_left {q : Nat} (hq : q ≠ 0) (a b : Nat) : prem (pmul (prem a q) b) q = prem (pmul a b) q := by
  have multiple : pmul (pmul (pdiv a q) q) b = pmul (pmul (pdiv a q) b) q := by
    rw [pmul_assoc, pmul_comm q b, pmul_assoc]
  conv_rhs => rw [eq_pmul_pdiv_xor_prem a q, pmul_xor_left, multiple, prem_xor hq, prem_pmul_self hq, Nat.zero_xor]

/-- A multiple of a multiple of `q` is a multiple of `q`. -/
theorem prem_pmul_of_prem_eq_zero {q b : Nat} (hq : q ≠ 0) (a : Nat) (h : prem b q = 0) : prem (pmul a b) q = 0 := by
  rw [pmul_comm, ← prem_pmul_prem_left hq, h, pmul_zero_left, prem_of_lt hq (Nat.two_pow_pos _)]

/-! ### Irreducible polynomials -/

/-- `q` has no factor but 1 and itself. -/
def PIrreducible (q : Nat) : Prop := ∀ a b : Nat, pmul a b = q → a = 1 ∨ b = 1

/-- An irreducible polynomial is prime: of two residues whose product it divides one is 0. The proof takes the least
`d > 0` with `d * y` a multiple of `q`; dividing `q` by `d` leaves a smaller such polynomial, hence 0. -/
theorem eq_zero_of_prem_pmul_eq_zero {q x y : Nat} (hirr : PIrreducible q) (hx : x < 2 ^ q.log2) (hy : y < 2 ^ q.log2)
    (hq : q ≠ 0) (hx0 : x ≠ 0) (h : prem (pmul x y) q = 0) : y = 0 := by
  have ex : ∃ d, d ≠ 0 ∧ prem (pmul d y) q = 0 := ⟨x, hx0, h⟩
  obtain ⟨hd0, hd⟩ := Nat.find_spec ex
  have hdq : Nat.find ex < q := ((Nat.find_min' ex ⟨hx0, h⟩).trans_lt hx).trans_le (Nat.log2_self_le hq)
  have minimal : ∀ r < Nat.find ex, prem (pmul r y) q = 0 → r = 0 := fun r hr hry =>
    by_contra fun hr0 => Nat.find_min ex hr ⟨hr0, hry⟩
  generalize Nat.find ex = d at *
  have rem_lt : prem q d < d := (prem_lt hd0 q).trans_le (Nat.log2_self_le hd0)
  have rem_multiple : prem (pmul (prem q d) y) q = 0 := by
    have split : pmul q y = pmul (pdiv q d) (pmul d y) ^^^ pmul (prem q d) y := by
      rw [← pmul_assoc, ← pmul_xor_left, ← eq_pmul_pdiv_xor_prem]
    have zero := prem_pmul_self hq y
    rwa [pmul_comm y, split, prem_xor hq, prem_pmul_of_prem_eq_zero hq _ hd, Nat.zero_xor] at zero
  have factor : q = pmul (pdiv q d) d := (prem_eq_zero_iff hd0).mp (minimal _ rem_lt rem_multiple)
  rcases hirr _ _ factor.symm with one | rfl
  · rw [one, pmul_one_left] at factor
    omega
  · rwa [pmul_one_left, prem_of_lt hq hy] at hd

/-! ### The modulus -/

theorem modPoly_lt (m : Byte) : modPoly m < 2 ^ 9 := Nat.or_lt_two_pow (by decide) (by omega)

theorem le_modPoly (m : Byte) : 2 ^ 8 ≤ modPoly m := Nat.left_le_or

theorem modPoly_ne_zero (m : Byte) : modPoly m ≠ 0 := by
  have := le_modPoly m
  omega

@[simp] theorem log2_modPoly (m : Byte) : (modPoly m).log2 = 8 :=
  (Nat.log2_eq_iff (modPoly_ne_zero m)).mpr ⟨le_modPoly m, modPoly_lt m⟩

theorem toNat_lt_two_pow_log2_modPoly (x m : Byte) : x.toNat < 2 ^ (modPoly m).log2 := by
  rw [log2_modPoly]
  exact x.isLt

theorem prem_modPoly_lt (p : Nat) (m : Byte) : prem p (modPoly m) < 2 ^ 8 := by
  simpa using prem_lt (modPoly_ne_zero m) p

theorem gfIrr_iff_forall_prem_ne_zero (m : Byte) :
    gfIrr m = true ↔ ∀ d, 2 ≤ d → d ≤ 31 → prem (modPoly m) d ≠ 0 := by
  simp only [gfIrr, List.all_eq_true, List.mem_range'_1, bne_iff_ne, and_imp]
  exact forall₂_congr fun d _ => ⟨fun h hd => h (by omega), fun h hd => h (by omega)⟩

/-- Two factors of a polynomial of degree 8 are not both above degree 4, so the trial divisors 2 to 31 are enough. -/
theorem gfIrr_iff_pIrreducible (m : Byte) : gfIrr m = true ↔ PIrreducible (modPoly m) := by
  rw [gfIrr_iff_forall_prem_ne_zero]
  constructor
  · intro h
    have small_factor : ∀ {a b : Nat}, pmul a b = modPoly m → b ≠ 0 → b.log2 ≤ 4 → b = 1 := by
      intro a b hab hb0 hb
      by_contra hb1
      have hb32 : b < 2 ^ 5 := (Nat.log2_lt hb0).mp (by omega)
      exact h b (by omega) (by omega) (hab ▸ prem_pmul_self hb0 a)
    intro a b hab
    have ha0 : a ≠ 0 := by
      rintro rfl
      exact modPoly_ne_zero m (by rw [← hab, pmul_zero_left])
    have hb0 : b ≠ 0 := by
      rintro rfl
      exact modPoly_ne_zero m (by rw [← hab, pmul_comm, pmul_zero_left])
    have degrees : a.log2 + b.log2 = 8 := by rw [← log2_pmul ha0 hb0, hab, log2_modPoly]
    rcases Nat.le_total b.log2 4 with hb | hb
    · exact .inr (small_factor hab hb0 hb)
    · exact .inl (small_factor ((pmul_comm b a).trans hab) ha0 (by omega))
  · intro hirr d hd2 hd31 hd
    have factor := (prem_eq_zero_iff (by omega : d ≠ 0)).mp hd
    have large := le_modPoly m
    rcases hirr _ _ factor.symm with one | one
    · rw [one, pmul_one_left] at factor
      omega
    · omega

/-! ### `gf_mul` (R128, R132) -/

theorem toNat_gfMul (x y m : Byte) : (gfMul x y m).toNat = prem (pmul x.toNat y.toNat) (modPoly m) := by
  rw [gfMul, BitVec.toNat_ofNat, Nat.mod_eq_of_lt (prem_modPoly_lt _ m)]

/-- Settles O23: the degrees of the factors add up to at most 14, and a remainder modulo a polynomial of degree 8 is
a byte. -/
theorem gfMulIsRemainder : Obligations.GfMulIsRemainder := fun x y m _ =>
  ⟨pmul_lt_two_pow (a := 8) (b := 7) x.isLt y.isLt, prem_modPoly_lt _ m, toNat_gfMul x y m⟩

theorem gfMul_comm (x y m : Byte) : gfMul x y m = gfMul y x m := by
  rw [gfMul, pmul_comm, gfMul]

theorem gfMul_assoc (x y z m : Byte) : gfMul (gfMul x y m) z m = gfMul x (gfMul y z m) m := by
  apply BitVec.eq_of_toNat_eq
  have hm := modPoly_ne_zero m
  simp only [toNat_gfMul]
  rw [prem_pmul_prem_left hm, pmul_comm x.toNat (prem _ _), prem_pmul_prem_left hm, pmul_assoc, pmul_comm x.toNat]

theorem gfMul_xor (x y z m : Byte) : gfMul x (y ^^^ z) m = gfMul x y m ^^^ gfMul x z m := by
  apply BitVec.eq_of_toNat_eq
  simp only [toNat_gfMul, BitVec.toNat_xor, pmul_comm x.toNat, pmul_xor_left, prem_xor (modPoly_ne_zero m)]

theorem gfMul_one_left (x m : Byte) : gfMul 1 x m = x := by
  apply BitVec.eq_of_toNat_eq
  rw [toNat_gfMul, show (1 : Byte).toNat = 1 from rfl, pmul_one_left,
    prem_of_lt (modPoly_ne_zero m) (toNat_lt_two_pow_log2_modPoly x m)]

theorem gfMul_one_right (x m : Byte) : gfMul x 1 m = x := (gfMul_comm x 1 m).trans (gfMul_one_left x m)

theorem gfMul_zero_left (x m : Byte) : gfMul 0 x m = 0 := by
  apply BitVec.eq_of_toNat_eq
  rw [toNat_gfMul, show (0 : Byte).toNat = 0 from rfl, pmul_zero_left,
    prem_of_lt (modPoly_ne_zero m) (Nat.two_pow_pos _)]

theorem eq_zero_of_gfMul_eq_zero {x y m : Byte} (hirr : gfIrr m = true) (hx : x ≠ 0) (h : gfMul x y m = 0) :
    y = 0 := by
  have hx0 : x.toNat ≠ 0 := fun hx0 => hx (BitVec.eq_of_toNat_eq hx0)
  have product : prem (pmul x.toNat y.toNat) (modPoly m) = 0 := by
    rw [← toNat_gfMul, h]
    rfl
  exact BitVec.eq_of_toNat_eq (eq_zero_of_prem_pmul_eq_zero ((gfIrr_iff_pIrreducible m).mp hirr)
    (toNat_lt_two_pow_log2_modPoly x m) (toNat_lt_two_pow_log2_modPoly y m) (modPoly_ne_zero m) hx0 product)

theorem gfMul_left_cancel {x y z m : Byte} (hirr : gfIrr m = true) (hx : x ≠ 0) (h : gfMul x y m = gfMul x z m) :
    y = z := by
  have product : gfMul x (y ^^^ z) m = 0 := by
    rw [gfMul_xor, h]
    exact BitVec.xor_self
  exact BitVec.xor_eq_zero_iff.mp (eq_zero_of_gfMul_eq_zero hirr hx product)

/-- Settles O26: the trial divisors are read off `gfIrr`, and they decide irreducibility by the degrees of two
factors. -/
theorem gfIrrIsIrreducible : Obligations.GfIrrIsIrreducible := fun m _ =>
  ⟨gfIrr_iff_forall_prem_ne_zero m, gfIrr_iff_pIrreducible m⟩

/-! ### The monoid of residues, and `gf_pow` as its power (R129) -/

/-- The bytes as residues modulo `modPoly m`. -/
def Residue (_m : Byte) : Type := Byte

/-- The residues under `gf_mul`. -/
@[reducible] def residueMonoid (m : Byte) : CommMonoidWithZero (Residue m) where
  mul x y := gfMul x y m
  one := (1 : Byte)
  zero := (0 : Byte)
  mul_assoc x y z := gfMul_assoc x y z m
  mul_comm x y := gfMul_comm x y m
  one_mul x := gfMul_one_left x m
  mul_one x := gfMul_one_right x m
  zero_mul x := gfMul_zero_left x m
  mul_zero x := (gfMul_comm x 0 m).trans (gfMul_zero_left x m)

/-- The power in the monoid of residues. -/
def residuePow (m x : Byte) (e : Nat) : Byte := (residueMonoid m).npow e x

theorem residuePow_zero (m x : Byte) : residuePow m x 0 = 1 := (residueMonoid m).npow_zero x

theorem residuePow_succ (m x : Byte) (e : Nat) : residuePow m x (e + 1) = gfMul (residuePow m x e) x m :=
  (residueMonoid m).npow_succ e x

theorem residuePow_square (m x : Byte) (e : Nat) :
    residuePow m (gfMul x x m) e = residuePow m x (2 * e) := by
  let _ := residueMonoid m
  have square (y : Residue m) : (y * y) ^ e = y ^ (2 * e) := by rw [pow_mul, pow_two]
  exact square x

/-- Square and multiply keeps `r * b ^ e`. -/
theorem gfPowSteps_eq {n e : Nat} (m r b : Byte) (he : e < 2 ^ n) :
    gfPowSteps m n r b e = gfMul r (residuePow m b e) m := by
  induction n generalizing r b e with
  | zero =>
    obtain rfl : e = 0 := by omega
    rw [gfPowSteps, residuePow_zero, gfMul_one_right]
  | succ n ih =>
    rw [gfPowSteps]
    split
    case isTrue zero => rw [zero, residuePow_zero, gfMul_one_right]
    case isFalse =>
      rw [ih _ _ (by omega), residuePow_square]
      split
      case isTrue odd =>
        have e_eq : e = 2 * (e / 2) + 1 := by omega
        conv_rhs => rw [e_eq, residuePow_succ, gfMul_comm _ b, ← gfMul_assoc]
      case isFalse even => rw [show 2 * (e / 2) = e by omega]

theorem gfPow_eq_residuePow (m x : Byte) (e : Nat) : gfPow x e m = residuePow m x e := by
  rw [gfPow, gfPowSteps_eq _ _ _ Nat.lt_log2_self, gfMul_one_left]

theorem gfPow_succ (x m : Byte) (e : Nat) : gfPow x (e + 1) m = gfMul (gfPow x e m) x m := by
  rw [gfPow_eq_residuePow m, gfPow_eq_residuePow m, residuePow_succ]

/-! ### The group of an irreducible modulus, and `gf_inv` (R130) -/

/-- Under an irreducible modulus every residue but 0 cancels, and a finite monoid with cancellation is a group. -/
@[reducible] noncomputable def residueGroup {m : Byte} (hirr : gfIrr m = true) : GroupWithZero (Residue m) :=
  let _ := residueMonoid m
  have : IsLeftCancelMulZero (Residue m) := ⟨fun hx _ _ h => gfMul_left_cancel hirr hx h⟩
  have : Nontrivial (Residue m) := ⟨(0 : Byte), (1 : Byte), (by decide : (0 : Byte) ≠ 1)⟩
  let _ : Fintype (Residue m) := inferInstanceAs (Fintype Byte)
  let _ : DecidableEq (Residue m) := inferInstanceAs (DecidableEq Byte)
  Fintype.groupWithZeroOfCancel (Residue m)

theorem gfPow_255 {x m : Byte} (hirr : gfIrr m = true) (hx : x ≠ 0) : gfPow x 255 m = 1 := by
  let _ := residueGroup hirr
  let _ : Fintype (Residue m) := inferInstanceAs (Fintype Byte)
  have card : Fintype.card (Residue m) = 256 := (FinEnum.card_eq_fintypeCard (α := Byte)).symm
  have lagrange := FiniteField.pow_card_sub_one_eq_one (K := Residue m) x hx
  rw [card] at lagrange
  exact (gfPow_eq_residuePow m x 255).trans lagrange

/-- Settles O25: `gf_inv` is 0 and the power 254 by definition, and `x * x^254` is the power 255. -/
theorem gfInvIsInverse : Obligations.GfInvIsInverse := by
  intro x m _
  have inv (hx : x ≠ 0) : gfInv x m = gfPow x 254 m := if_neg hx
  refine ⟨if_pos rfl, inv, fun hirr hx => ⟨gfPow_255 hirr hx, ?_⟩⟩
  rw [inv hx, gfMul_comm, ← gfPow_succ, gfPow_255 hirr hx]

end Sys2Proof.Machine
end

section
/-!
The identity table of the bit-permutation network (41_perm.md R157).

Packing the bits of a byte sequence gives the sequence back (`packBits_bitsOf`), and the reversed bits of a byte
sequence are the bits of its bit-reversed bytes in reverse order (`bitsOf_reverse_map_reverse`). A rule enters only
through the adjusted indices of the table (`rearrange_eq_of_adjusted`) and the end they count from: the indices
0, 1, 2, … select the bits of the input in order from the left end, and backwards from the right end.
-/

namespace Sys2Proof.Machine

/-! ### Bits and bytes (00_scope.md R13) -/

@[simp] theorem bitsOfByte_length (b : Byte) : (bitsOfByte b).length = 8 := by simp [bitsOfByte]

@[simp] theorem bitsOf_length (B : Bytes) : (bitsOf B).length = 8 * B.length := by
  simp [bitsOf, Nat.mul_comm]

@[simp] theorem bitsOf_append (A B : Bytes) : bitsOf (A ++ B) = bitsOf A ++ bitsOf B := List.flatMap_append

@[simp] theorem bitsOf_singleton (b : Byte) : bitsOf [b] = bitsOfByte b := List.flatMap_singleton ..

theorem natOfBits_concat (a : List Bool) (x : Bool) : natOfBits (a ++ [x]) = 2 * natOfBits a + x.toNat := by
  simp [natOfBits]

theorem natOfBits_append (a b : List Bool) : natOfBits (a ++ b) = natOfBits a * 2 ^ b.length + natOfBits b := by
  induction b using List.reverseRecOn with
  | nil => simp [natOfBits]
  | append_singleton b x ih =>
    rw [← List.append_assoc, natOfBits_concat, natOfBits_concat, ih, List.length_append, List.length_singleton]
    ring

theorem natOfBits_bitsOfByte (b : Byte) : natOfBits (bitsOfByte b) = b.toNat := by
  revert b
  decide +kernel

theorem toBe_succ_concat (n v : Nat) (b : Byte) : toBe (n + 1) (v * 256 + b.toNat) = toBe n v ++ [b] := by
  have high : (v * 256 + b.toNat) / 256 = v := by omega
  have low : BitVec.ofNat 8 (v * 256 + b.toNat) = b := by bv_omega
  rw [toBe, high, low]

theorem packBits_append_byte (a : List Bool) (b : Byte) : packBits (a ++ bitsOfByte b) = packBits a ++ [b] := by
  have length : ((a ++ bitsOfByte b).length + 7) / 8 = (a.length + 7) / 8 + 1 := by simp; omega
  rw [packBits, length, natOfBits_append, natOfBits_bitsOfByte, bitsOfByte_length]
  exact toBe_succ_concat _ _ b

theorem packBits_bitsOf (B : Bytes) : packBits (bitsOf B) = B := by
  induction B using List.reverseRecOn with
  | nil => rfl
  | append_singleton B b ih => rw [bitsOf_append, bitsOf_singleton, packBits_append_byte, ih]

theorem bitsOfByte_reverse (b : Byte) : bitsOfByte b.reverse = (bitsOfByte b).reverse := by
  refine List.ext_getElem (by simp) fun k hk _ => ?_
  rw [bitsOfByte_length] at hk
  simp [bitsOfByte, BitVec.getMsbD_reverse, BitVec.getLsbD_eq_getMsbD, hk]

theorem bitsOf_reverse_map_reverse (B : Bytes) : bitsOf (B.map BitVec.reverse).reverse = (bitsOf B).reverse := by
  induction B with
  | nil => rfl
  | cons b B ih =>
    rw [List.map_cons, List.reverse_cons, bitsOf_append, bitsOf_singleton, ih, bitsOfByte_reverse,
      ← List.reverse_append]
    rfl

/-! ### `rearrange` on a table in range (R152 to R156) -/

@[simp] theorem usableBits_zero (rule : PermRule) (len : Nat) : usableBits rule 0 len = 8 * len := by
  unfold usableBits
  split
  · split <;> omega
  · rfl

theorem entryInRange_of_adjustedIndex_eq {rule : PermRule} {lz len a : Nat} {t : Int}
    (ha : adjustedIndex rule t = a) : entryInRange rule lz len t = true ↔ a < usableBits rule lz len := by
  simp [entryInRange, ha]

/-- When the adjusted indices of the table are the naturals `A`, all in range, the output packs the source bits
of `A`. -/
theorem rearrange_eq_of_adjusted {I : Bytes} {lz : Nat} {T : List Int} {rule : PermRule} {A : List Nat}
    (hT : T.map (adjustedIndex rule) = A.map Nat.cast)
    (hA : ∀ a ∈ A, a < usableBits rule lz I.length) :
    rearrange I lz T rule = .ok (packBits (A.map (sourceBit rule lz I))) := by
  have inRange : T.findIdx? (fun t => !entryInRange rule lz I.length t) = none := by
    rw [List.findIdx?_eq_none_iff]
    intro t ht
    have mem : adjustedIndex rule t ∈ A.map Nat.cast := hT ▸ List.mem_map_of_mem ht
    obtain ⟨a, ha, eq⟩ := List.mem_map.1 mem
    rw [(entryInRange_of_adjustedIndex_eq eq.symm).2 (hA a ha), Bool.not_true]
  have indices : T.map (fun t => (adjustedIndex rule t).toNat) = A := by
    have := congrArg (List.map Int.toNat) hT
    simpa [Function.comp_def] using this
  have bits : T.map (fun t => sourceBit rule lz I (adjustedIndex rule t).toNat) = A.map (sourceBit rule lz I) := by
    rw [← indices, List.map_map]
    rfl
  rw [rearrange, inRange, bits]

/-! ### The adjusted indices 0, 1, 2, … (R154, R157) -/

theorem map_sourceBit_range_of_left {rule : PermRule} (hr : ruleIsLeft rule = true) (I : Bytes) :
    (List.range (8 * I.length)).map (sourceBit rule 0 I) = bitsOf I := by
  refine List.ext_getElem (by simp) fun i _ hi => ?_
  simp [sourceBit, hr, List.getElem?_eq_getElem hi]

theorem map_sourceBit_range_of_right {rule : PermRule} (hr : ruleIsLeft rule = false) (I : Bytes) :
    (List.range (8 * I.length)).map (sourceBit rule 0 I) = (bitsOf I).reverse := by
  refine List.ext_getElem (by simp) fun i _ hi => ?_
  have source : 8 * I.length - 1 - i < (bitsOf I).length := by
    rw [List.length_reverse, bitsOf_length] at hi
    rw [bitsOf_length]
    omega
  simp [sourceBit, hr, List.getElem?_eq_getElem source]

section IdentityTable

variable {I : Bytes} {T : List Int} {rule : PermRule}

theorem rearrange_identity_of_left (hr : ruleIsLeft rule = true)
    (hT : T.map (adjustedIndex rule) = (List.range (8 * I.length)).map Nat.cast) :
    rearrange I 0 T rule = .ok I := by
  rw [rearrange_eq_of_adjusted hT (by simp), map_sourceBit_range_of_left hr, packBits_bitsOf]

theorem rearrange_identity_of_right (hr : ruleIsLeft rule = false)
    (hT : T.map (adjustedIndex rule) = (List.range (8 * I.length)).map Nat.cast) :
    rearrange I 0 T rule = .ok (I.map BitVec.reverse).reverse := by
  rw [rearrange_eq_of_adjusted hT (by simp), map_sourceBit_range_of_right hr, ← bitsOf_reverse_map_reverse,
    packBits_bitsOf]

end IdentityTable

/-- The coercion in the tables below casts the list, by way of the list monad, before the `map`. -/
theorem coe_list_eq_map (A : List Nat) : (A : List Int) = A.map Nat.cast := List.flatMap_pure_eq_map ..

theorem map_adjustedIndex_of_one {rule : PermRule} (hr : ruleFirstIsOne rule = true) (A : List Nat) :
    (A.map fun i => (i : Int) + 1).map (adjustedIndex rule) = A.map Nat.cast := by
  rw [coe_list_eq_map, List.map_map, List.map_map]
  refine List.map_congr_left fun i _ => ?_
  simp [adjustedIndex, hr]

theorem map_adjustedIndex_of_zero {rule : PermRule} (hr : ruleFirstIsOne rule = false) (A : List Nat) :
    (A.map fun i => (i : Int)).map (adjustedIndex rule) = A.map Nat.cast := by
  rw [coe_list_eq_map, List.map_map, List.map_map]
  refine List.map_congr_left fun i _ => ?_
  simp [adjustedIndex, hr]

/-- Settles O31: the identity table of a rule has the adjusted indices 0, 1, 2, …, which select the bits of the
input in order under a left rule and in reverse order under a right rule. -/
theorem permIdentity : Obligations.PermIdentity := by
  intro I
  have reversed := bitsOf_reverse_map_reverse I
  exact ⟨rearrange_identity_of_left rfl (map_adjustedIndex_of_one rfl _),
    rearrange_identity_of_left rfl (map_adjustedIndex_of_zero rfl _),
    ⟨_, rearrange_identity_of_right rfl (map_adjustedIndex_of_one rfl _), reversed⟩,
    ⟨_, rearrange_identity_of_right rfl (map_adjustedIndex_of_zero rfl _), reversed⟩⟩

end Sys2Proof.Machine
end

section
/-!
The Feistel engine (42_feistel_des.md R171, R172).

The final step is a loop step whose halves are then swapped (`feistel_eq_swap_feistelLoop`), and a swap turns a loop
step into its own inverse (`feistelRound_swap_feistelRound`). So decrypting walks back through the swapped halves of
the encryption, one loop step at a time (`feistelLoop_mirrored`), whatever the round function.
-/

namespace Sys2Proof.Machine

section Feistel

variable {h : Nat} {κ : Type} (F : BitVec h → κ → BitVec h)

theorem feistelRound_swap_feistelRound (k : κ) (B : BitVec h × BitVec h) :
    feistelRound F k (feistelRound F k B).swap = B.swap := by
  obtain ⟨L, R⟩ := B
  have cancel : (L ^^^ F R k) ^^^ F R k = L := by rw [BitVec.xor_assoc, BitVec.xor_self, BitVec.xor_zero]
  simp only [feistelRound, Prod.swap, cancel]

theorem feistelLoop_succ (k : Nat → κ) (n : Nat) (B : BitVec h × BitVec h) :
    feistelLoop F k (n + 1) B = feistelRound F (k n) (feistelLoop F k n B) := rfl

/-- After `j` loop steps, the mirrored run stands where the forward run of `N` steps stood `j` steps before its
end. -/
theorem feistelLoop_mirrored (k : Nat → κ) (B : BitVec h × BitVec h) {N j : Nat} (hj : j ≤ N) :
    feistelLoop F (fun i => k (N - 1 - i)) j (feistelLoop F k N B).swap = (feistelLoop F k (N - j) B).swap := by
  induction j with
  | zero => rfl
  | succ j ih =>
    have last : N - j = (N - 1 - j) + 1 := by omega
    have rest : N - (j + 1) = N - 1 - j := by omega
    rw [feistelLoop_succ, ih (by omega), last, feistelLoop_succ, feistelRound_swap_feistelRound, rest]

theorem feistel_eq_swap_feistelLoop {N : Nat} (hN : 1 ≤ N) (K : Nat → κ) (dir : Dir) (B : BitVec h × BitVec h) :
    feistel F N K dir B = (feistelLoop F (fun i => K (roundIndex dir N i)) N B).swap := by
  obtain ⟨n, rfl⟩ := Nat.exists_eq_add_of_le' hN
  rw [feistelLoop_succ]
  simp only [feistel, feistelRound, Prod.swap, Nat.add_sub_cancel, BitVec.xor_comm]

end Feistel

/-- Settles O34: both directions are a loop and a swap, the swaps between them cancel, and the mirrored loop walks
the encryption back to its first step. -/
theorem feistelInverse : Obligations.FeistelInverse := by
  intro h κ F N K B hN
  calc feistel F N K .decrypt (feistel F N K .encrypt B)
      = (feistelLoop F (fun i => K (N - 1 - i)) N (feistelLoop F K N B).swap).swap := by
        rw [feistel_eq_swap_feistelLoop F hN, feistel_eq_swap_feistelLoop F hN]
        rfl
    _ = (feistelLoop F K (N - N) B).swap.swap := by rw [feistelLoop_mirrored F K B le_rfl]
    _ = B := by rw [Nat.sub_self, Prod.swap_swap, feistelLoop]

end Sys2Proof.Machine
end

section
/-!
SBOX and ISBOX (44_rijndael.md R233, R234).

Both affine parts are sums of rotations of a byte. Rotations add up (`rotateLeft_rotateLeft`), so the rotations by
1, 3 and 6 of the rotations by 0 to 4 are fifteen rotations of one byte, and every amount but 0 occurs twice modulo 8:
the sum is the byte again (`isboxAffine_sboxAffine`). Under an irreducible modulus `gf_inv` is an involution
(`gfInv_gfInv`), so ISBOX undoes SBOX, and a left inverse among the 256 bytes is a two-sided one.
-/

namespace Sys2Proof.Machine

/-! ### Rotations of a word -/

theorem rotateLeft_xor {w : Nat} (x y : BitVec w) (k : Nat) :
    (x ^^^ y).rotateLeft k = x.rotateLeft k ^^^ y.rotateLeft k := by
  ext i
  simp only [BitVec.getElem_rotateLeft, BitVec.getElem_xor]
  split <;> rfl

theorem rotateLeft_rotateLeft {w : Nat} (x : BitVec w) (j k : Nat) :
    (x.rotateLeft j).rotateLeft k = x.rotateLeft (j + k) := by
  ext i hi
  have hj : j % w < w := Nat.mod_lt _ (by omega)
  have hk : k % w < w := Nat.mod_lt _ (by omega)
  simp only [BitVec.getElem_rotateLeft, Nat.add_mod_eq_ite]
  split_ifs <;> (congr 1; omega)

theorem rotateLeft_add_width {w : Nat} (x : BitVec w) (k : Nat) : x.rotateLeft (k + w) = x.rotateLeft k := by
  rw [← BitVec.rotateLeft_mod_eq_rotateLeft, Nat.add_mod_right, BitVec.rotateLeft_mod_eq_rotateLeft]

theorem rotateLeft_zero {w : Nat} (x : BitVec w) : x.rotateLeft 0 = x := by
  ext i
  simp [BitVec.getElem_rotateLeft]

/-! ### The affine parts and the inverse -/

/-- The amounts 0 to 4 of R233, each with 1, 3 and 6 of R234 added: modulo 8, 0 comes once and each of 1 to 7 twice. -/
theorem xor_rotateLeft_cancel (t : Byte) :
    (t.rotateLeft 1 ^^^ t.rotateLeft 2 ^^^ t.rotateLeft 3 ^^^ t.rotateLeft 4 ^^^ t.rotateLeft 5) ^^^
      (t.rotateLeft 3 ^^^ t.rotateLeft 4 ^^^ t.rotateLeft 5 ^^^ t.rotateLeft 6 ^^^ t.rotateLeft 7) ^^^
      (t.rotateLeft 6 ^^^ t.rotateLeft 7 ^^^ t.rotateLeft 8 ^^^ t.rotateLeft 9 ^^^ t.rotateLeft 10) = t := by
  rw [rotateLeft_add_width t 0, rotateLeft_add_width t 1, rotateLeft_add_width t 2, rotateLeft_zero]
  generalize t.rotateLeft 1 = r₁, t.rotateLeft 2 = r₂, t.rotateLeft 3 = r₃, t.rotateLeft 4 = r₄,
    t.rotateLeft 5 = r₅, t.rotateLeft 6 = r₆, t.rotateLeft 7 = r₇
  calc (r₁ ^^^ r₂ ^^^ r₃ ^^^ r₄ ^^^ r₅) ^^^ (r₃ ^^^ r₄ ^^^ r₅ ^^^ r₆ ^^^ r₇) ^^^ (r₆ ^^^ r₇ ^^^ t ^^^ r₁ ^^^ r₂)
      = t ^^^ (r₁ ^^^ r₁) ^^^ (r₂ ^^^ r₂) ^^^ (r₃ ^^^ r₃) ^^^ (r₄ ^^^ r₄) ^^^ (r₅ ^^^ r₅) ^^^ (r₆ ^^^ r₆) ^^^
          (r₇ ^^^ r₇) := by ac_rfl
    _ = t := by simp only [BitVec.xor_self, BitVec.xor_zero]

theorem isboxAffine_sboxAffine (t : Byte) : isboxAffine (sboxAffine t) = t := by
  have constants : (0x63#8).rotateLeft 1 ^^^ (0x63#8).rotateLeft 3 ^^^ (0x63#8).rotateLeft 6 ^^^ 0x05#8 = 0#8 := by
    decide
  refine Eq.trans ?_ (xor_rotateLeft_cancel t)
  rw [← BitVec.xor_zero (x := _ ^^^ _ ^^^ _), ← constants]
  simp only [isboxAffine, sboxAffine, rotateLeft_xor, rotateLeft_rotateLeft, Nat.reduceAdd]
  ac_rfl

theorem gfInv_zero (m : Byte) : gfInv 0 m = 0 := if_pos rfl

theorem gfMul_gfInv {x m : Byte} (hm : m ≠ 0) (hirr : gfIrr m = true) (hx : x ≠ 0) : gfMul x (gfInv x m) m = 1 := by
  obtain ⟨-, -, inverse⟩ := gfInvIsInverse x m hm
  exact (inverse hirr hx).2

theorem gfInv_gfInv {m : Byte} (hm : m ≠ 0) (hirr : gfIrr m = true) (x : Byte) : gfInv (gfInv x m) m = x := by
  by_cases hx : x = 0
  · rw [hx, gfInv_zero, gfInv_zero]
  have product : gfMul x (gfInv x m) m = 1 := gfMul_gfInv hm hirr hx
  have inv_ne_zero : gfInv x m ≠ 0 := by
    intro h
    rw [h, gfMul_comm, gfMul_zero_left] at product
    exact absurd product (by decide)
  apply gfMul_left_cancel hirr inv_ne_zero
  rw [gfMul_gfInv hm hirr inv_ne_zero, gfMul_comm, product]

/-! ### The entries of the two tables -/

theorem isboxEntry_sboxEntry {md : Byte} (hm : md ≠ 0) (hirr : gfIrr md = true) :
    Function.LeftInverse (isboxEntry md) (sboxEntry md) := by
  intro v
  rw [isboxEntry, sboxEntry, isboxAffine_sboxAffine, gfInv_gfInv hm hirr]

theorem sboxEntry_isboxEntry {md : Byte} (hm : md ≠ 0) (hirr : gfIrr md = true) :
    Function.RightInverse (isboxEntry md) (sboxEntry md) :=
  (isboxEntry_sboxEntry hm hirr).rightInverse_of_card_le le_rfl

/-- Settles O42: `rotateLeft` by less than 8 is the two joined shifts, `gf_inv` keeps 0, and under an irreducible
modulus both factors of an entry have their inverses. -/
theorem sboxInverse : Obligations.SboxInverse := by
  intro md hm
  have sboxAffine_zero : sboxAffine 0 = 0x63 := by decide
  have isboxAffine_root : isboxAffine 0x63 = 0 := by decide
  refine ⟨fun v => ⟨?_, ?_⟩, ?_, ?_, fun hirr v => ⟨isboxEntry_sboxEntry hm hirr v, sboxEntry_isboxEntry hm hirr v⟩⟩
  · simp [sboxEntry, sboxAffine, BitVec.rotateLeft_def]
  · simp [isboxEntry, isboxAffine, BitVec.rotateLeft_def]
  · rw [sboxEntry, gfInv_zero, sboxAffine_zero]
  · rw [isboxEntry, isboxAffine_root, gfInv_zero]

end Sys2Proof.Machine
end

section
/-!
The 64-bit and the 128-bit cipher undo themselves (42_feistel_des.md R187, 43_deal.md R216).

Eight bytes and the integer they stand for determine each other (`bytes64_be64`, `be64_bytes64`), and two tables that
are inverse permutations permute the bits of an integer back (`permInt_permInt_of_inverse`). Between `IP` and `FP`
stands the Feistel engine, whose two directions are inverse (`feistelInverse`).
-/

namespace Sys2Proof.Machine

/-! ### Bytes and the integers they stand for (00_scope.md R12) -/

theorem beNat_concat (B : Bytes) (b : Byte) : beNat (B ++ [b]) = beNat B * 256 + b.toNat := by
  simp [beNat, Nat.mul_comm]

theorem toBe_beNat (B : Bytes) : toBe B.length (beNat B) = B := by
  induction B using List.reverseRecOn with
  | nil => rfl
  | append_singleton B b ih => rw [beNat_concat, List.length_append, List.length_singleton, toBe_succ_concat, ih]

theorem beNat_lt (B : Bytes) : beNat B < 256 ^ B.length := by
  induction B using List.reverseRecOn with
  | nil => simp [beNat]
  | append_singleton B b ih =>
    rw [beNat_concat, List.length_append, List.length_singleton, Nat.pow_succ]
    omega

theorem beNat_toBe {n v : Nat} (h : v < 256 ^ n) : beNat (toBe n v) = v := by
  induction n generalizing v with
  | zero =>
    have : v = 0 := by simpa using h
    exact this.symm
  | succ n ih =>
    rw [toBe, beNat_concat, ih (by rw [Nat.pow_succ] at h; omega), BitVec.toNat_ofNat]
    omega

theorem be64_bytes64 (v : BitVec 64) : be64 (bytes64 v) = v := by
  rw [be64, bytes64, beNat_toBe v.isLt, BitVec.ofNat_toNat, BitVec.setWidth_eq]

theorem bytes64_be64 {B : Bytes} (h : B.length = 8) : bytes64 (be64 B) = B := by
  have fits : beNat B < 2 ^ 64 := by simpa [h] using beNat_lt B
  rw [bytes64, be64, BitVec.toNat_ofNat, Nat.mod_eq_of_lt fits, ← h, toBe_beNat]

/-! ### Permuted bits (R175) -/

theorem testBit_natOfBits (b : List Bool) (k : Nat) : (natOfBits b).testBit k = b.reverse.getD k false := by
  induction b using List.reverseRecOn generalizing k with
  | nil => simp [natOfBits]
  | append_singleton b x ih =>
    rw [natOfBits_concat, List.reverse_append, List.reverse_singleton, List.singleton_append]
    cases k with
    | zero => cases x <;> simp [Nat.testBit_zero, Nat.add_mod]
    | succ k =>
      have half : (2 * natOfBits b + x.toNat) / 2 = natOfBits b := by
        have := x.toNat_lt
        omega
      rw [Nat.testBit_succ, half, ih, List.getD_cons_succ]

theorem getMsbD_ofNat_natOfBits {n : Nat} {b : List Bool} (hn : b.length = n) {i : Nat} (hi : i < n) :
    (BitVec.ofNat n (natOfBits b)).getMsbD i = b.getD i false := by
  subst hn
  have from_end : b.length - 1 - (b.length - 1 - i) = i := by omega
  have low : b.length - 1 - i < b.length := by omega
  rw [BitVec.getMsbD_eq_getLsbD, BitVec.getLsbD_ofNat, testBit_natOfBits, List.getD_eq_getElem?_getD,
    List.getElem?_reverse low, from_end, List.getD_eq_getElem?_getD]
  simp [hi, low]

theorem permInt_eq_natOfBits {w n : Nat} (T : List Nat) (v : BitVec w) :
    permInt w n T v = BitVec.ofNat n (natOfBits (T.map fun t => v.getLsbD (w - t))) := by
  simp only [permInt, natOfBits, List.foldl_map, BitVec.getLsbD, Nat.toNat_testBit, Nat.shiftRight_eq_div_pow]

theorem permutes_permInt {w n : Nat} {T : List Nat} (hn : T.length = n) (hT : ∀ t ∈ T, 1 ≤ t ∧ t ≤ w) (v : BitVec w) :
    Permutes T v (permInt w n T v) := by
  intro i hi
  have hiT : i < T.length := hn ▸ hi
  obtain ⟨pos, le⟩ := hT T[i] (List.getElem_mem hiT)
  have source : w - 1 - (T[i] - 1) = w - T[i] := by omega
  have inside : T[i] - 1 < w := by omega
  rw [permInt_eq_natOfBits, getMsbD_ofNat_natOfBits (by rw [List.length_map, hn]) hi, BitVec.getMsbD_eq_getLsbD,
    List.getD_eq_getElem _ _ hiT, source]
  simp [hiT, inside]

/-- Two tables of inverse permutations, numbered from 1, undo each other. -/
theorem permInt_permInt_of_inverse {w : Nat} {T U : List Nat} (hT : T.length = w) (hU : U.length = w)
    (rangeT : ∀ t ∈ T, 1 ≤ t ∧ t ≤ w) (rangeU : ∀ u ∈ U, 1 ≤ u ∧ u ≤ w)
    (inverse : ∀ i < w, U.getD (T.getD i 0 - 1) 0 = i + 1) (v : BitVec w) :
    permInt w w T (permInt w w U v) = v := by
  refine BitVec.eq_of_getMsbD_eq fun i hi => ?_
  have hiT : i < T.length := hT ▸ hi
  have range := rangeT T[i] (List.getElem_mem hiT)
  have source : T.getD i 0 - 1 < w := by
    rw [List.getD_eq_getElem _ _ hiT]
    omega
  rw [permutes_permInt hT rangeT _ i hi, permutes_permInt hU rangeU _ _ source, inverse i hi, Nat.add_sub_cancel]

theorem permInt_desIP_desFP (v : BitVec 64) : permInt 64 64 desIP (permInt 64 64 desFP v) = v :=
  permInt_permInt_of_inverse (T := desIP) (U := desFP) (by decide) (by decide) (by decide) (by decide) (by decide) v

theorem permInt_desFP_desIP (v : BitVec 64) : permInt 64 64 desFP (permInt 64 64 desIP v) = v :=
  permInt_permInt_of_inverse (T := desFP) (U := desIP) (by decide) (by decide) (by decide) (by decide) (by decide) v

/-! ### The two ciphers -/

theorem halves64_append (L R : BitVec 32) : halves64 (L ++ R) = (L, R) := by
  rw [halves64, BitVec.extractLsb'_append_eq_left, BitVec.extractLsb'_append_eq_right]

theorem append_halves64 (v : BitVec 64) : (halves64 v).1 ++ (halves64 v).2 = v := by
  exact (BitVec.extractLsb'_append_extractLsb'_eq_extractLsb' rfl).trans BitVec.extractLsb'_eq_self

theorem desBlock_decrypt_encrypt (K : List (BitVec 48)) (B : BitVec 64) :
    desBlock K .decrypt (desBlock K .encrypt B) = B := by
  have inner := feistelInverse 32 _ desF 16 (fun i => K.getD i 0) (halves64 (permInt 64 64 desIP B)) (by decide)
  simp only [desBlock, permInt_desIP_desFP, halves64_append, Prod.mk.eta, inner, append_halves64, permInt_desFP_desIP]

theorem desBytes_decrypt_encrypt (K : List (BitVec 48)) {B : Bytes} (h : B.length = 8) :
    desBytes K .decrypt (desBytes K .encrypt B) = B := by
  rw [desBytes, desBytes, be64_bytes64, desBlock_decrypt_encrypt, bytes64_be64 h]

/-- Without a round the engine runs its final step all the same, with key 0 in both directions. -/
theorem feistel_zero {h : Nat} {κ : Type} (F : BitVec h → κ → BitVec h) (K : Nat → κ) (dir : Dir)
    (B : BitVec h × BitVec h) : feistel F 0 K dir B = feistel F 1 K dir B := by
  cases dir <;> rfl

theorem dealBlock_decrypt_encrypt (ctx : DealCtx) (B : BitVec 64 × BitVec 64) :
    dealBlock ctx .decrypt (dealBlock ctx .encrypt B) = B := by
  simp only [dealBlock]
  rcases Nat.eq_zero_or_pos ctx.n with hn | hn
  · rw [hn, feistel_zero, feistel_zero, feistelInverse _ _ _ _ _ _ le_rfl]
  · exact feistelInverse _ _ _ _ _ _ hn

theorem dealBytes_decrypt_encrypt (ctx : DealCtx) {B : Bytes} (h : B.length = 16) :
    dealBytes ctx .decrypt (dealBytes ctx .encrypt B) = B := by
  have left : (B.take 8).length = 8 := by simp [h]
  have right : (B.drop 8).length = 8 := by simp [h]
  simp only [dealBytes, List.take_left' (bytes64_length _), List.drop_left' (bytes64_length _), be64_bytes64,
    Prod.mk.eta, dealBlock_decrypt_encrypt, bytes64_be64 left, bytes64_be64 right, List.take_append_drop]

end Sys2Proof.Machine
end

section
/-!
Rijndael undoes itself (44_rijndael.md R238 to R241, R246).

Each inverse transform undoes its transform. Two shifts of the rows are one shift by the sums of their offsets
(`shiftRows_shiftRows`), and two circulant products of a column are one product with the coefficients
`mixCol md d0 d1 d2 d3 ⟨c0, c1, c2, c3⟩` (`mixCol_mixCol`): with those of R240 it is the identity, and no modulus enters,
because the products of so small coefficients need no reduction. Decryption then meets after each of its rounds the
matrix that encryption had before its ShiftRows and SubBytes (`rjInvRound_foldl_reverse`).
-/

namespace Sys2Proof.Machine

/-! ### Blocks and their columns (R236) -/

theorem bytesOf_colsOf {nb : Nat} {B : Bytes} (h : B.length = 4 * nb) : bytesOf (colsOf nb B) = B := by
  induction nb generalizing B with
  | zero => exact (List.length_eq_zero_iff.mp h).symm
  | succ nb ih =>
    match B, h with
    | b0 :: b1 :: b2 :: b3 :: B, h =>
      have rest : B.length = 4 * nb := by
        simp only [List.length_cons] at h
        omega
      calc bytesOf (colsOf (nb + 1) (b0 :: b1 :: b2 :: b3 :: B))
          = b0 :: b1 :: b2 :: b3 :: bytesOf (colsOf nb B) := rfl
        _ = b0 :: b1 :: b2 :: b3 :: B := by rw [ih rest]

theorem colsOf_bytesOf (M : List Col) : colsOf M.length (bytesOf M) = M := by
  induction M with
  | nil => rfl
  | cons c M ih =>
    calc colsOf (c :: M).length (bytesOf (c :: M))
        = c :: colsOf M.length (bytesOf M) := rfl
      _ = c :: M := by rw [ih]

/-! ### AddRoundKey (R241) -/

theorem Col.xor_xor_cancel (c d : Col) : Col.xor (Col.xor c d) d = c := by
  simp [Col.xor]

theorem zipWith_xor_cancel {M N : List Col} (h : M.length ≤ N.length) :
    List.zipWith Col.xor (List.zipWith Col.xor M N) N = M := by
  induction M generalizing N with
  | nil => rfl
  | cons c M ih =>
    cases N with
    | nil => simp at h
    | cons d N =>
      rw [List.zipWith_cons_cons, List.zipWith_cons_cons, Col.xor_xor_cancel, ih (Nat.le_of_succ_le_succ h)]

theorem addRoundKey_addRoundKey {ctx : RjCtx} {rnd : Nat} {M : List Col} (h : M.length ≤ (roundKey ctx rnd).length) :
    addRoundKey ctx rnd (addRoundKey ctx rnd M) = M := zipWith_xor_cancel h

/-! ### ShiftRows (R238) -/

theorem shiftedCol_shiftRows {o1 o2 o3 : Nat} {M : List Col} {c : Nat} (hc : c < M.length) (p : Nat) :
    shiftedCol (shiftRows o1 o2 o3 M) c p =
      { b0 := (shiftedCol M c p).b0, b1 := (shiftedCol M c (p + o1)).b1,
        b2 := (shiftedCol M c (p + o2)).b2, b3 := (shiftedCol M c (p + o3)).b3 } := by
  have inside : (c + p) % M.length < M.length := Nat.mod_lt _ (by omega)
  have source (o : Nat) : shiftedCol M ((c + p) % M.length) o = shiftedCol M c (p + o) := by
    rw [shiftedCol, shiftedCol, Nat.mod_add_mod, Nat.add_assoc]
  rw [shiftedCol, shiftRows_length, shiftRows, List.getD_eq_getElem _ _ (by simpa using inside)]
  simp only [List.getElem_map, List.getElem_range, source, Nat.add_zero]

theorem shiftRows_shiftRows (p1 p2 p3 o1 o2 o3 : Nat) (M : List Col) :
    shiftRows p1 p2 p3 (shiftRows o1 o2 o3 M) = shiftRows (p1 + o1) (p2 + o2) (p3 + o3) M := by
  rw [shiftRows, shiftRows_length]
  refine List.map_congr_left fun c hc => ?_
  simp only [shiftedCol_shiftRows (List.mem_range.mp hc)]

theorem shiftedCol_of_dvd {M : List Col} {c o : Nat} (hc : c < M.length) (ho : M.length ∣ o) :
    shiftedCol M c o = M[c] := by
  obtain ⟨k, rfl⟩ := ho
  rw [shiftedCol, Nat.add_mul_mod_self_left, Nat.mod_eq_of_lt hc, List.getD_eq_getElem _ _ hc]

theorem shiftRows_of_dvd {o1 o2 o3 : Nat} {M : List Col} (h1 : M.length ∣ o1) (h2 : M.length ∣ o2)
    (h3 : M.length ∣ o3) : shiftRows o1 o2 o3 M = M := by
  refine List.ext_getElem (shiftRows_length _ _ _ M) fun c _ hc => ?_
  simp [shiftRows, shiftedCol_of_dvd hc, h1, h2, h3]

theorem dvd_backShift_add {nb : Nat} (hnb : 0 < nb) (o : Nat) : nb ∣ backShift nb o + o := by
  have := Nat.mod_lt o hnb
  have whole : backShift nb o + o = nb * (1 + o / nb) := by
    have := Nat.div_add_mod o nb
    rw [backShift, Nat.mul_add]
    omega
  exact ⟨_, whole⟩

theorem invShiftRows_shiftRows (o1 o2 o3 : Nat) (M : List Col) :
    invShiftRows o1 o2 o3 (shiftRows o1 o2 o3 M) = M := by
  rcases Nat.eq_zero_or_pos M.length with hM | hM
  · rw [List.length_eq_zero_iff.mp hM]
    rfl
  · rw [invShiftRows, shiftRows_length, shiftRows_shiftRows]
    exact shiftRows_of_dvd (dvd_backShift_add hM o1) (dvd_backShift_add hM o2) (dvd_backShift_add hM o3)

/-! ### SubBytes (R239) -/

theorem subBytes_subBytes {f g : Byte → Byte} (h : Function.LeftInverse g f) (M : List Col) :
    subBytes g (subBytes f M) = M := by
  have column : Function.LeftInverse (Col.mapBytes g) (Col.mapBytes f) := fun c => by
    simp only [Col.mapBytes, h _]
  rw [subBytes, subBytes, List.map_map, column.comp_eq_id, List.map_id]

/-! ### MixColumns (R240) -/

theorem gfMul_xor_left (x y z m : Byte) : gfMul (x ^^^ y) z m = gfMul x z m ^^^ gfMul y z m := by
  rw [gfMul_comm, gfMul_xor, gfMul_comm z x, gfMul_comm z y]

/-- A product of degree below 8 needs no reduction, whatever the modulus. -/
theorem gfMul_eq_ofNat_pmul {x y : Byte} (h : pmul x.toNat y.toNat < 2 ^ 8) (m : Byte) :
    gfMul x y m = BitVec.ofNat 8 (pmul x.toNat y.toNat) := by
  rw [gfMul, prem_of_lt (modPoly_ne_zero m) (by rwa [log2_modPoly])]

theorem mixByte_mixCol (md k0 k1 k2 k3 c0 c1 c2 c3 : Byte) (a : Col) :
    mixByte md k0 k1 k2 k3 (mixCol md c0 c1 c2 c3 a) =
      mixByte md (mixByte md k0 k1 k2 k3 ⟨c0, c1, c2, c3⟩) (mixByte md k1 k2 k3 k0 ⟨c0, c1, c2, c3⟩)
        (mixByte md k2 k3 k0 k1 ⟨c0, c1, c2, c3⟩) (mixByte md k3 k0 k1 k2 ⟨c0, c1, c2, c3⟩) a := by
  simp only [mixByte, mixCol, gfMul_xor, gfMul_xor_left, gfMul_assoc]
  ac_rfl

theorem mixCol_mixCol (md d0 d1 d2 d3 c0 c1 c2 c3 : Byte) (a : Col) :
    mixCol md d0 d1 d2 d3 (mixCol md c0 c1 c2 c3 a) =
      let f := mixCol md d0 d1 d2 d3 ⟨c0, c1, c2, c3⟩
      mixCol md f.b0 f.b1 f.b2 f.b3 a := by
  rw [mixCol, mixByte_mixCol, mixByte_mixCol, mixByte_mixCol, mixByte_mixCol]
  rfl

theorem mixCol_one (md : Byte) (a : Col) : mixCol md 1 0 0 0 a = a := by
  simp only [mixCol, mixByte, gfMul_one_left, gfMul_zero_left]
  simp

theorem mixCol_inverse_coefficients (md : Byte) :
    mixCol md 0x0E 0x09 0x0D 0x0B ⟨0x02, 0x01, 0x01, 0x03⟩ = ⟨1, 0, 0, 0⟩ := by
  simp (disch := decide) only [mixCol, mixByte, gfMul_eq_ofNat_pmul]
  decide

theorem invMixColumns_mixColumns (md : Byte) (M : List Col) : invMixColumns md (mixColumns md M) = M := by
  have column : mixCol md 0x0E 0x09 0x0D 0x0B ∘ mixCol md 0x02 0x01 0x01 0x03 = id := by
    funext a
    rw [Function.comp_apply, mixCol_mixCol, mixCol_inverse_coefficients, mixCol_one, id]
  rw [invMixColumns, mixColumns, List.map_map, column, List.map_id]

/-! ### The rounds (R244 to R246) -/

/-- What a round of encryption does to the matrix before it mixes and adds the key. -/
def shiftSub (ctx : RjCtx) (sb : Byte → Byte) (M : List Col) : List Col :=
  shiftRows ctx.off1 ctx.off2 ctx.off3 (subBytes sb M)

@[simp] theorem shiftSub_length (ctx : RjCtx) (sb : Byte → Byte) (M : List Col) :
    (shiftSub ctx sb M).length = M.length := by simp [shiftSub]

section Rounds

variable {ctx : RjCtx} {sb isb : Byte → Byte} {M : List Col}

theorem subBytes_invShiftRows_shiftSub (hs : Function.LeftInverse isb sb) (M : List Col) :
    subBytes isb (invShiftRows ctx.off1 ctx.off2 ctx.off3 (shiftSub ctx sb M)) = M := by
  rw [shiftSub, invShiftRows_shiftRows, subBytes_subBytes hs]

theorem rjRound_eq (ctx : RjCtx) (sb : Byte → Byte) (M : List Col) (rnd : Nat) :
    rjRound ctx sb M rnd = addRoundKey ctx rnd (mixColumns ctx.md (shiftSub ctx sb M)) := rfl

theorem rjEncryptCols_eq (ctx : RjCtx) (sb : Byte → Byte) (M : List Col) :
    rjEncryptCols ctx sb M = addRoundKey ctx ctx.nr
      (shiftSub ctx sb ((List.range' 1 (ctx.nr - 1)).foldl (rjRound ctx sb) (addRoundKey ctx 0 M))) := rfl

theorem rjInvRound_shiftSub_rjRound (hs : Function.LeftInverse isb sb) {rnd : Nat}
    (h : M.length ≤ (roundKey ctx rnd).length) :
    rjInvRound ctx isb (shiftSub ctx sb (rjRound ctx sb M rnd)) rnd = shiftSub ctx sb M := by
  rw [rjInvRound, subBytes_invShiftRows_shiftSub hs, rjRound_eq, addRoundKey_addRoundKey (by simpa using h),
    invMixColumns_mixColumns]

theorem rjInvRound_foldl_reverse (hs : Function.LeftInverse isb sb) (hw : ctx.w.length = ctx.nb * (ctx.nr + 1))
    {rounds : List Nat} (hr : ∀ r ∈ rounds, r ≤ ctx.nr) (hM : M.length = ctx.nb) :
    rounds.reverse.foldl (rjInvRound ctx isb) (shiftSub ctx sb (rounds.foldl (rjRound ctx sb) M)) =
      shiftSub ctx sb M := by
  induction rounds generalizing M with
  | nil => rfl
  | cons r rounds ih =>
    have hr0 : r ≤ ctx.nr := hr r List.mem_cons_self
    have round_length : (rjRound ctx sb M r).length = ctx.nb := by
      rw [rjRound_eq, addRoundKey_length hw hr0 (by simpa using hM)]
    rw [List.reverse_cons, List.foldl_concat, List.foldl_cons,
      ih (fun x hx => hr x (List.mem_cons_of_mem r hx)) round_length]
    exact rjInvRound_shiftSub_rjRound hs (by rw [hM, roundKey_length hw hr0])

theorem rjDecryptCols_rjEncryptCols (hs : Function.LeftInverse isb sb) (hw : ctx.w.length = ctx.nb * (ctx.nr + 1))
    (hM : M.length = ctx.nb) : rjDecryptCols ctx isb (rjEncryptCols ctx sb M) = M := by
  have rounds : ∀ r ∈ List.range' 1 (ctx.nr - 1), r ≤ ctx.nr := fun r hr => by
    rw [List.mem_range'_1] at hr
    omega
  have key {rnd : Nat} (h : rnd ≤ ctx.nr) : M.length ≤ (roundKey ctx rnd).length := by rw [hM, roundKey_length hw h]
  have first : (addRoundKey ctx 0 M).length = ctx.nb := addRoundKey_length hw (Nat.zero_le _) hM
  have last : (shiftSub ctx sb ((List.range' 1 (ctx.nr - 1)).foldl (rjRound ctx sb) (addRoundKey ctx 0 M))).length ≤
      (roundKey ctx ctx.nr).length := by
    rw [shiftSub_length, rjRounds_length hw _ rounds first, roundKey_length hw le_rfl]
  rw [rjDecryptCols, rjEncryptCols_eq, addRoundKey_addRoundKey last, rjInvRound_foldl_reverse hs hw rounds first,
    subBytes_invShiftRows_shiftSub hs,
    addRoundKey_addRoundKey (key (Nat.zero_le _))]

end Rounds

theorem rjEncryptCols_length {ctx : RjCtx} (hw : ctx.w.length = ctx.nb * (ctx.nr + 1)) (sb : Byte → Byte) (B : Bytes) :
    (rjEncryptCols ctx sb (colsOf ctx.nb B)).length = ctx.nb := by
  have := rjEncrypt_length hw sb B
  rw [rjEncrypt, bytesOf_length] at this
  omega

theorem rjDecrypt_rjEncrypt {ctx : RjCtx} (h : RjLegal ctx) {B : Bytes} (hB : B.length = 4 * ctx.nb) :
    rjDecrypt ctx (isboxEntry ctx.md) (rjEncrypt ctx (sboxEntry ctx.md) B) = B := by
  have hw := h.columns
  obtain ⟨hm, hirr⟩ := h.modulus
  have matrix : colsOf ctx.nb (rjEncrypt ctx (sboxEntry ctx.md) B) =
      rjEncryptCols ctx (sboxEntry ctx.md) (colsOf ctx.nb B) := by
    have := colsOf_bytesOf (rjEncryptCols ctx (sboxEntry ctx.md) (colsOf ctx.nb B))
    rwa [rjEncryptCols_length hw] at this
  rw [rjDecrypt, matrix, rjDecryptCols_rjEncryptCols (isboxEntry_sboxEntry hm hirr) hw (colsOf_length _ _),
    bytesOf_colsOf hB]

end Sys2Proof.Machine
end

section
/-!
The round trip of the modes (45_modes.md R298), on the machine.

MENC cuts DIN into blocks and MDEC cuts what MENC joined into the same blocks (`blocksOf_flatten`), and each mode gives
back the blocks it was given when its cipher does (`modeDecrypt_modeEncrypt`). Between the two commands OTOI puts DOUT
into DIN and touches nothing the bound cipher reads (`blockCipher_afterOtoi`).
-/

namespace Sys2Proof.Machine

/-! ### A message and its blocks (R288) -/

theorem blocksOf_succ (bs n : Nat) (B : Bytes) : blocksOf bs (n + 1) B = B.take bs :: blocksOf bs n (B.drop bs) := by
  simp [blocksOf, List.range_succ_eq_map, Nat.succ_mul, Nat.add_comm]

theorem flatten_blocksOf {bs n : Nat} {B : Bytes} (h : B.length = n * bs) : (blocksOf bs n B).flatten = B := by
  induction n generalizing B with
  | zero =>
    rw [Nat.zero_mul, List.length_eq_zero_iff] at h
    rw [h]
    rfl
  | succ n ih =>
    have rest : (B.drop bs).length = n * bs := by rw [List.length_drop, h, Nat.succ_mul, Nat.add_sub_cancel]
    rw [blocksOf_succ, List.flatten_cons, ih rest, List.take_append_drop]

theorem blocksOf_flatten {bs : Nat} {X : List Bytes} (h : ∀ b ∈ X, b.length = bs) :
    blocksOf bs X.length X.flatten = X := by
  induction X with
  | nil => rfl
  | cons x X ih =>
    obtain ⟨hx, hX⟩ := List.forall_mem_cons.mp h
    rw [List.length_cons, List.flatten_cons, blocksOf_succ, List.take_left' hx, List.drop_left' hx, ih hX]

/-! ### Each mode undoes itself (R291 to R297) -/

/-- `D` undoes `E` on blocks of `bs` bytes. -/
def BlockCipher.RoundTrips (c : BlockCipher) (bs : Nat) : Prop := ∀ b : Bytes, b.length = bs → c.D (c.E b) = b

theorem xorBytes_cancel_left {A B : Bytes} (h : B.length = A.length) : xorBytes A (xorBytes A B) = B := by
  rw [xorBytes_comm A B, xorBytes_comm A, xorBytes_cancel h]

theorem mapBlocks_mapBlocks {f g : Nat → Bytes → Bytes} {X : List Bytes} (h : ∀ i, ∀ b ∈ X, g i (f i b) = b) :
    mapBlocks g (mapBlocks f X) = X := by
  refine List.ext_getElem (by simp [mapBlocks]) fun i _ hi => ?_
  simp [mapBlocks, h i _ (List.getElem_mem hi)]

section Chains

variable {c : BlockCipher} {bs : Nat} {iv : Bytes} {X : List Bytes}

theorem cbcDec_cbcEnc (hc : c.Sized bs) (hr : c.RoundTrips bs) (hiv : iv.length = bs) (hX : ∀ b ∈ X, b.length = bs) :
    cbcDec c iv (cbcEnc c iv X) = X := by
  induction X generalizing iv with
  | nil => rfl
  | cons x X ih =>
    obtain ⟨hx, hX⟩ := List.forall_mem_cons.mp hX
    have masked : (xorBytes x iv).length = bs := by simp [hx, hiv]
    rw [cbcEnc, cbcDec, hr _ masked, xorBytes_cancel (hx.trans hiv.symm), ih (hc.enc _) hX]

theorem pcbcDec_pcbcEnc (hc : c.Sized bs) (hr : c.RoundTrips bs) (hiv : iv.length = bs) (hX : ∀ b ∈ X, b.length = bs) :
    pcbcDec c iv (pcbcEnc c iv X) = X := by
  induction X generalizing iv with
  | nil => rfl
  | cons x X ih =>
    obtain ⟨hx, hX⟩ := List.forall_mem_cons.mp hX
    have masked : (xorBytes x iv).length = bs := by simp [hx, hiv]
    have chained : (xorBytes x (c.E (xorBytes x iv))).length = bs := by simp [hx, hc.enc]
    rw [pcbcEnc, pcbcDec, hr _ masked, xorBytes_cancel (hx.trans hiv.symm), ih chained hX]

theorem cfbDec_cfbEnc (hc : c.Sized bs) (hX : ∀ b ∈ X, b.length = bs) : cfbDec c iv (cfbEnc c iv X) = X := by
  induction X generalizing iv with
  | nil => rfl
  | cons x X ih =>
    obtain ⟨hx, hX⟩ := List.forall_mem_cons.mp hX
    rw [cfbEnc, cfbDec, xorBytes_cancel_left (hx.trans (hc.enc iv).symm), ih hX]

theorem ofbCrypt_ofbCrypt (hc : c.Sized bs) (hX : ∀ b ∈ X, b.length = bs) : ofbCrypt c iv (ofbCrypt c iv X) = X := by
  induction X generalizing iv with
  | nil => rfl
  | cons x X ih =>
    obtain ⟨hx, hX⟩ := List.forall_mem_cons.mp hX
    rw [ofbCrypt, ofbCrypt, xorBytes_cancel (hx.trans (hc.enc iv).symm), ih hX]

theorem modeDecrypt_modeEncrypt {md : Mode} (hc : c.Sized bs) (hr : c.RoundTrips bs)
    (hiv : md = .cbc ∨ md = .pcbc → iv.length = bs) (hX : ∀ b ∈ X, b.length = bs) :
    modeDecrypt md c bs iv (modeEncrypt md c bs iv X) = X := by
  cases md with
  | ecb => exact mapBlocks_mapBlocks fun _ b hb => hr b (hX b hb)
  | cbc => exact cbcDec_cbcEnc hc hr (hiv (.inl rfl)) hX
  | pcbc => exact pcbcDec_pcbcEnc hc hr (hiv (.inr rfl)) hX
  | cfb => exact cfbDec_cfbEnc hc hX
  | ofb => exact ofbCrypt_ofbCrypt hc hX
  | ctr => exact mapBlocks_mapBlocks fun i b hb => xorBytes_cancel ((hX b hb).trans (hc.enc _).symm)
  | rd =>
    refine mapBlocks_mapBlocks fun i b hb => ?_
    have term : (rdTerm bs iv i).length = bs := toBe_length _ _
    have masked : (xorBytes b (rdTerm bs iv i)).length = bs := by simp [hX b hb, term]
    rw [hr _ masked, xorBytes_cancel ((hX b hb).trans term.symm)]

end Chains

/-! ### The cipher a valid mode is bound to (R280) -/

/-- The bound cipher of a valid mode undoes itself: SBOX and ISBOX are the tables of the context's modulus. -/
theorem State.Coherent.roundTrips {s : State} (h : s.Coherent) (hm : s.modev = true) :
    (s.blockCipher s.modectx.cipher).RoundTrips s.modectx.bs := by
  obtain ⟨valid, size, -⟩ := h.modeValid hm
  intro b hb
  rw [size] at hb
  cases hc : s.modectx.cipher with
  | des => exact desBytes_decrypt_encrypt _ (by rwa [hc] at hb)
  | deal => exact dealBytes_decrypt_encrypt _ (by rwa [hc] at hb)
  | rj =>
    rw [hc] at valid hb
    obtain ⟨legal, tables⟩ := h.rjValid valid
    have sbox : s.sbox = sboxEntry s.rjctx.md := funext fun v => (tables v).1
    have isbox : s.isbox = isboxEntry s.rjctx.md := funext fun v => (tables v).2
    have := rjDecrypt_rjEncrypt legal hb
    rwa [← sbox, ← isbox] at this

/-! ### MENC, OTOI, MDEC -/

/-- The blocks of `DIN[0..DLEN)` (R288). -/
def State.dinBlocks (s : State) : List Bytes := blocksOf s.modectx.bs (s.dlen.toNat / s.modectx.bs) s.din

/-- What MENC makes of blocks in the mode of `s`. -/
def State.encryptBlocks (s : State) : List Bytes → List Bytes :=
  modeEncrypt s.modectx.mode (s.blockCipher s.modectx.cipher) s.modectx.bs s.modectx.civ

/-- What MDEC makes of blocks in the mode of `s`. -/
def State.decryptBlocks (s : State) : List Bytes → List Bytes :=
  modeDecrypt s.modectx.mode (s.blockCipher s.modectx.cipher) s.modectx.bs s.modectx.civ

/-- MENC and MDEC pass all their checks in `s` (R288, R289). -/
structure State.ModeReady (s : State) : Prop where
  clear : s.err = false
  valid : s.modev = true
  fits : s.dlen.toNat ≤ s.params.bufBytes
  aligned : s.dlen.toNat % s.modectx.bs = 0

section Commands

variable {s : State}

theorem State.ModeReady.exec_menc (h : s.ModeReady) :
    exec .menc s = .next (s.emit s.dlen.toNat (s.encryptBlocks s.dinBlocks).flatten) :=
  modeData_next.mpr (.inr ⟨h.clear, .inr (.inr (.inr ⟨h.valid, h.fits, h.aligned, rfl⟩))⟩)

theorem State.ModeReady.exec_mdec (h : s.ModeReady) :
    exec .mdec s = .next (s.emit s.dlen.toNat (s.decryptBlocks s.dinBlocks).flatten) :=
  modeData_next.mpr (.inr ⟨h.clear, .inr (.inr (.inr ⟨h.valid, h.fits, h.aligned, rfl⟩))⟩)

theorem exec_otoi (h : s.err = false) : exec .otoi s = .next s.copyOutToIn := gated_open h

theorem dinBlocks_length (s : State) : s.dinBlocks.length = s.dlen.toNat / s.modectx.bs := blocksOf_length _ _ _

theorem State.ModeReady.dinBlocks_sized (h : s.ModeReady) : ∀ b ∈ s.dinBlocks, b.length = s.modectx.bs :=
  din_blocks h.aligned

theorem State.ModeReady.flatten_dinBlocks (h : s.ModeReady) : s.dinBlocks.flatten = s.din := by
  refine flatten_blocksOf ?_
  rw [State.din, Memory.readRange_length, Nat.div_mul_cancel (Nat.dvd_of_mod_eq_zero h.aligned)]

theorem State.Coherent.encryptBlocks_sized (hs : s.Coherent) (h : s.ModeReady) :
    ∀ b ∈ s.encryptBlocks s.dinBlocks, b.length = s.modectx.bs :=
  modeEncrypt_blocks (hs.sized h.valid) h.dinBlocks_sized

theorem State.Coherent.decryptBlocks_encryptBlocks (hs : s.Coherent) (h : s.ModeReady) :
    s.decryptBlocks (s.encryptBlocks s.dinBlocks) = s.dinBlocks := by
  refine modeDecrypt_modeEncrypt (hs.sized h.valid) (hs.roundTrips h.valid) (fun chained => ?_) h.dinBlocks_sized
  exact hs.civ_length h.valid (chained.imp_right .inl)

/-- The state after a data command with the output `O` of DLEN bytes, and OTOI. -/
def State.afterOtoi (s : State) (O : Bytes) : State := (s.emit s.dlen.toNat O).copyOutToIn

variable {O : Bytes}

theorem dlen_afterOtoi (s : State) (O : Bytes) : (s.afterOtoi O).dlen = s.dlen := by
  simp [State.afterOtoi]

theorem din_afterOtoi (h : O.length = s.dlen.toNat) : (s.afterOtoi O).din = O := by
  have copied : (s.emit s.dlen.toNat O).mem.readRange doutBase s.dlen.toNat = O := by
    rw [State.emit_mem, ← h, Memory.readRange_write]
  have olen : (s.emit s.dlen.toNat O).olen = s.dlen := by simp
  rw [State.din, dlen_afterOtoi, State.afterOtoi, State.copyOutToIn_mem, olen, copied, ← h, Memory.readRange_write]

theorem read_afterOtoi_below {a : Nat} (ha : a < dinBase) : (s.afterOtoi O).mem.read a = s.mem.read a := by
  have below : a < doutBase := ha.trans (by decide)
  rw [State.afterOtoi, State.copyOutToIn_mem, Memory.read_write_outside (.inl ha), State.emit_mem,
    Memory.read_write_outside (.inl below)]

theorem blockCipher_afterOtoi (s : State) (O : Bytes) : (s.afterOtoi O).blockCipher = s.blockCipher := by
  have sbox : (s.afterOtoi O).sbox = s.sbox := funext fun v =>
    read_afterOtoi_below (by have := v.isLt; simp only [sboxBase, dinBase]; omega)
  have isbox : (s.afterOtoi O).isbox = s.isbox := funext fun v =>
    read_afterOtoi_below (by have := v.isLt; simp only [isboxBase, dinBase]; omega)
  funext c
  cases c with
  | des => rfl
  | deal => rfl
  | rj =>
    rw [State.blockCipher, sbox, isbox]
    rfl

theorem decryptBlocks_afterOtoi (s : State) (O : Bytes) : (s.afterOtoi O).decryptBlocks = s.decryptBlocks := by
  rw [State.decryptBlocks, blockCipher_afterOtoi]
  rfl

theorem State.ModeReady.afterOtoi (h : s.ModeReady) : (s.afterOtoi O).ModeReady :=
  ⟨h.clear, h.valid, by rw [dlen_afterOtoi]; exact h.fits, by rw [dlen_afterOtoi]; exact h.aligned⟩

/-- MDEC after MENC and OTOI cuts DIN into the blocks that MENC joined. -/
theorem State.Coherent.dinBlocks_afterOtoi (hs : s.Coherent) (h : s.ModeReady) :
    (s.afterOtoi (s.encryptBlocks s.dinBlocks).flatten).dinBlocks = s.encryptBlocks s.dinBlocks := by
  have sized := hs.encryptBlocks_sized h
  have count : (s.encryptBlocks s.dinBlocks).length = s.dlen.toNat / s.modectx.bs := by
    rw [State.encryptBlocks, modeEncrypt_length, dinBlocks_length]
  have length : (s.encryptBlocks s.dinBlocks).flatten.length = s.dlen.toNat := by
    rw [flatten_length sized, count, Nat.div_mul_cancel (Nat.dvd_of_mod_eq_zero h.aligned)]
  rw [State.dinBlocks, dlen_afterOtoi, din_afterOtoi length]
  exact count ▸ blocksOf_flatten sized

end Commands

/-- Settles O53: OTOI hands the blocks of MENC to MDEC under the same mode and cipher, and every mode undoes itself
over a cipher that does. -/
theorem modeRoundTrip : Obligations.ModeRoundTrip := by
  intro s hs err modev fits aligned
  have ready : s.ModeReady := ⟨err, modev, fits, aligned⟩
  have output : ((s.afterOtoi (s.encryptBlocks s.dinBlocks).flatten).decryptBlocks
      (s.afterOtoi (s.encryptBlocks s.dinBlocks).flatten).dinBlocks).flatten = s.din := by
    rw [hs.dinBlocks_afterOtoi ready, decryptBlocks_afterOtoi, hs.decryptBlocks_encryptBlocks ready,
      ready.flatten_dinBlocks]
  refine ⟨_, s.afterOtoi _, _, ready.exec_menc, exec_otoi err, ready.afterOtoi.exec_mdec, err, ?_, ?_⟩
  · rw [State.emit_olen, dlen_afterOtoi, BitVec.ofNat_toNat, BitVec.setWidth_eq]
  · intro k hk
    have inside : k < s.din.length := by rwa [State.din, Memory.readRange_length]
    rw [output, State.emit_mem, Memory.read_write_inside inside, State.din, Memory.readRange]
    simp [hk]

end Sys2Proof.Machine
end

section
/-!
Removing padding (46_padding.md R343).

PKCS7, ANSI and ISO differ in the `n - 1` filler bytes only: all three append a filler and then the count `n`, and the
default removal reads nothing but that count (`removeDefault_append_count`), which one byte holds because
`1 ≤ n ≤ bs ≤ 255`. ZEROS appends zero bytes only, and the removal strips those with any the input itself ends in
(`removeZeros_padAdd_zeros`), so it gives the input back exactly when the input does not end in a zero byte.
-/

namespace Sys2Proof.Machine

/-! ### A filler that ends in its count (R330, R332 to R334, R337) -/

theorem padCount_pos {bs : Nat} (h : 1 ≤ bs) (len : Nat) : 1 ≤ padCount len bs := Nat.sub_pos_of_lt (Nat.mod_lt len h)

theorem padCount_le (len bs : Nat) : padCount len bs ≤ bs := Nat.sub_le _ _

@[simp] theorem rngBytes_length (start k : Nat) : (rngBytes start k).length = k := by simp [rngBytes]

theorem removeDefault_concat (Y : Bytes) (k : Byte) :
    removeDefault (Y ++ [k]) =
      if Y.length + 1 < k.toNat then .error k.toNat else .ok ((Y ++ [k]).take (Y.length + 1 - k.toNat)) := by
  rw [removeDefault, List.getLast?_concat, List.length_append, List.length_singleton]

/-- The default removal takes off any filler whose last byte counts it, whatever the bytes before that one are. -/
theorem removeDefault_append_count {F : Bytes} {n : Nat} (X : Bytes) (hF : F.length + 1 = n) (hn : n < 256) :
    removeDefault (X ++ F ++ [BitVec.ofNat 8 n]) = .ok X := by
  have count : (BitVec.ofNat 8 n).toNat = n := (BitVec.toNat_ofNat n 8).trans (Nat.mod_eq_of_lt hn)
  have length : (X ++ F).length + 1 = X.length + n := by rw [List.length_append, Nat.add_assoc, hF]
  rw [removeDefault_concat, count, length, if_neg (Nat.not_lt.2 (Nat.le_add_left n _)), Nat.add_sub_cancel,
    List.append_assoc, List.take_left]

/-- The filler of PKCS7 is `n - 1` bytes and then the count, as in the other two schemes. -/
theorem padAdd_pkcs7_eq {bs : Nat} (h : 1 ≤ bs) (X : Bytes) (start : Nat) :
    padAdd .pkcs7 X bs start =
      X ++ List.replicate (padCount X.length bs - 1) (BitVec.ofNat 8 (padCount X.length bs)) ++
        [BitVec.ofNat 8 (padCount X.length bs)] := by
  rw [List.append_assoc, ← List.replicate_succ', Nat.sub_add_cancel (padCount_pos h _)]
  rfl

theorem removeDefault_padAdd {sc : Scheme} {bs : Nat} (hsc : sc ≠ .zeros) (hpos : 1 ≤ bs) (hle : bs ≤ 255) (X : Bytes)
    (start : Nat) : removeDefault (padAdd sc X bs start) = .ok X := by
  have fits : padCount X.length bs < 256 := (padCount_le _ bs).trans_lt (Nat.lt_succ_of_le hle)
  have counted : padCount X.length bs - 1 + 1 = padCount X.length bs := Nat.sub_add_cancel (padCount_pos hpos _)
  cases sc with
  | pkcs7 =>
    rw [padAdd_pkcs7_eq hpos]
    exact removeDefault_append_count X (by rwa [List.length_replicate]) fits
  | ansi => exact removeDefault_append_count X (by rwa [List.length_replicate]) fits
  | iso => exact removeDefault_append_count X (by rwa [rngBytes_length]) fits
  | zeros => exact absurd rfl hsc

/-! ### Trailing zero bytes (R340, R341) -/

theorem removeZeros_append_replicate (X : Bytes) (n : Nat) : removeZeros (X ++ List.replicate n 0) = removeZeros X := by
  rw [removeZeros, List.reverse_append, List.reverse_replicate,
    List.dropWhile_append_of_pos fun b hb => beq_iff_eq.2 (List.eq_of_mem_replicate hb), removeZeros]

theorem removeZeros_padAdd_zeros (X : Bytes) (bs start : Nat) :
    removeZeros (padAdd .zeros X bs start) = removeZeros X := by
  by_cases aligned : X.length % bs = 0
  · rw [padAdd, if_pos aligned]
  · rw [padAdd, if_neg aligned, removeZeros_append_replicate]

theorem removeZeros_eq_self_iff (X : Bytes) : removeZeros X = X ↔ X = [] ∨ X.getD (X.length - 1) 0 ≠ 0 := by
  have strips : removeZeros X = X.rdropWhile (· == 0) := rfl
  rw [strips, List.rdropWhile_eq_self_iff]
  by_cases empty : X = []
  · simp [empty]
  · have last : X.getD (X.length - 1) 0 = X.getLast empty := by
      rw [List.getLast_eq_getElem, List.getD_eq_getElem]
    rw [last]
    simp [empty]

/-- Settles O58: the three counted schemes are one argument about the count, and ZEROS removes exactly the trailing
zero bytes of the input. -/
theorem paddingRoundTrip : Obligations.PaddingRoundTrip := by
  intro X bs start hpos hle
  refine ⟨removeDefault_padAdd (by decide) hpos hle X start, removeDefault_padAdd (by decide) hpos hle X start,
    removeDefault_padAdd (by decide) hpos hle X start, ?_⟩
  rw [removeZeros_padAdd_zeros]
  exact removeZeros_eq_self_iff X

end Sys2Proof.Machine
end

section
/-!
Command words (30_encoding.md R90 to R104): the decoder and the encoder are inverse to each other on the legal
commands, and the decoder reads exactly the words of the opcode table.

A format cuts a word into fields. So there are two facts for each format: what the fields of its word are
(`fields_formatG`), and that a word with its opcode is put together again from its fields (`formatG_fields`). A mask of
the opcode table picks whole fields of a word (`field_of_masked`), so a row of the table says what the decoder asks of
the fields.
-/

namespace Sys2Proof

/-! ### Opcodes and codes -/

@[simp] theorem Op.ofByte_toByte (op : Op) : Op.ofByte op.toByte = some op := by
  cases op <;> rfl

theorem Op.toByte_of_ofByte {b : Byte} {op : Op} (h : Op.ofByte b = some op) : op.toByte = b := by
  simpa using List.find?_some h

@[simp] theorem Cipher.ofCode_code (c : Cipher) : Cipher.ofCode c.code = some c := by
  cases c <;> rfl

theorem Cipher.code_of_ofCode {b : BitVec 4} {c : Cipher} (h : Cipher.ofCode b = some c) : c.code = b := by
  simpa using List.find?_some h

/-- Every code up to 2 is that of a cipher (R99). -/
theorem Cipher.isSome_ofCode : ∀ b : BitVec 4, b.toNat ≤ 2 → (Cipher.ofCode b).isSome = true := by
  decide

@[simp] theorem Mode.ofCode_code (md : Mode) : Mode.ofCode md.code = some md := by
  cases md <;> rfl

theorem Mode.code_of_ofCode {b : BitVec 4} {md : Mode} (h : Mode.ofCode b = some md) : md.code = b := by
  simpa using List.find?_some h

@[simp] theorem Scheme.ofCode_code (sc : Scheme) : Scheme.ofCode sc.code = some sc := by
  cases sc <;> rfl

theorem Scheme.code_of_ofCode {b : BitVec 4} {sc : Scheme} (h : Scheme.ofCode b = some sc) : sc.code = b := by
  simpa using List.find?_some h

@[simp] theorem PermRule.ofCode_code (rule : PermRule) : PermRule.ofCode rule.code = rule := by
  cases rule <;> rfl

@[simp] theorem PermRule.code_ofCode : ∀ b : BitVec 2, (PermRule.ofCode b).code = b := by
  decide

/-! ### The fields of the word of a format -/

@[simp] theorem field_formatZ (op : Op) : field (formatZ op) 0 24 = 0 := by
  cases op <;> rfl

@[simp] theorem fields_formatG (op : Op) (a b m : Byte) :
    field (formatG op a b m) 16 8 = a ∧ field (formatG op a b m) 8 8 = b ∧ field (formatG op a b m) 0 8 = m := by
  simp (disch := decide) only [field, formatG, BitVec.extractLsb'_append_eq_of_le, Nat.reduceSub,
    BitVec.extractLsb'_append_eq_of_add_le, BitVec.extractLsb'_eq_self, and_self]

@[simp] theorem fields_formatD (op : Op) (x : BitVec 16) (y : Byte) :
    field (formatD op x y) 8 16 = x ∧ field (formatD op x y) 0 8 = y := by
  simp (disch := decide) only [field, formatD, BitVec.extractLsb'_append_eq_of_le, Nat.reduceSub,
    BitVec.extractLsb'_append_eq_of_add_le, BitVec.extractLsb'_eq_self, and_self]

@[simp] theorem fields_formatP (op : Op) (rule : PermRule) (lz : BitVec 3) :
    field (formatP op rule lz) 22 2 = rule.code ∧ field (formatP op rule lz) 19 3 = lz ∧
      field (formatP op rule lz) 0 19 = 0 := by
  simp (disch := decide) only [field, formatP, BitVec.extractLsb'_append_eq_of_le, Nat.reduceSub,
    BitVec.extractLsb'_append_eq_of_add_le, BitVec.extractLsb'_eq_self, BitVec.ofNat_eq_ofNat, and_self]

@[simp] theorem fields_formatK (op : Op) (bsz md : Byte) :
    field (formatK op bsz md) 16 8 = 0 ∧ field (formatK op bsz md) 8 8 = bsz ∧ field (formatK op bsz md) 0 8 = md :=
  fields_formatG op 0 bsz md

@[simp] theorem fields_formatM (op : Op) (c : Cipher) (md : Mode) :
    field (formatM op c md) 8 16 = 0 ∧ field (formatM op c md) 4 4 = c.code ∧
      field (formatM op c md) 0 4 = md.code := by
  simp (disch := decide) only [field, formatM, BitVec.extractLsb'_append_eq_of_le, Nat.reduceSub,
    BitVec.extractLsb'_append_eq_of_add_le, BitVec.extractLsb'_eq_self, BitVec.ofNat_eq_ofNat, and_self]

@[simp] theorem fields_formatA (op : Op) (sc : Scheme) (bs : Byte) :
    field (formatA op sc bs) 12 12 = 0 ∧ field (formatA op sc bs) 8 4 = sc.code ∧
      field (formatA op sc bs) 0 8 = bs := by
  simp (disch := decide) only [field, formatA, BitVec.extractLsb'_append_eq_of_le, Nat.reduceSub,
    BitVec.extractLsb'_append_eq_of_add_le, BitVec.extractLsb'_eq_self, BitVec.ofNat_eq_ofNat, and_self]

/-- GFIRR leaves both operands of its format zero, as one field (R95). -/
theorem formatG_zero_zero (op : Op) (m : Byte) : formatG op 0#8 0#8 m = formatD op 0#16 m := by
  cases op <;> rfl

/-! ### Decoding what was encoded -/

theorem opField_encode (i : Instr) : opField (encode i) = i.op.toByte := by
  cases i with
  | gfadd | gfmul | gfpow | gfinv | gfirr => exact formatG_opField _ _ _ _
  | pdiv | prem => exact formatD_opField _ _ _
  | perm => exact formatP_opField _ _ _
  | rjkey => exact formatK_opField _ _ _
  | minitEcb | minitCbc | minitPcbc | minitCfb | minitOfb | minitCtr | minitRd => exact formatM_opField _ _ _
  | padaddPkcs7 | padaddAnsi | padaddIso | padaddZeros | padremPkcs7 | padremAnsi | padremIso | padremZeros =>
    exact formatA_opField _ _ _
  | _ => exact formatZ_opField _

/-- A word whose opcode is assigned is decoded by the format of the opcode (R93). -/
theorem decode_of_opField {w : Word} {op : Op} (h : opField w = op.toByte) : decode w = decodeFields w op := by
  rw [decode, h, Op.ofByte_toByte]

theorem requireZero_of_zero {w : Word} {lo n : Nat} (h : field w lo n = 0) (i : Instr) :
    requireZero w lo n i = .ok i := if_pos h

theorem decodeMinit_formatM (op : Op) (c : Cipher) (md : Mode) :
    decodeMinit (formatM op c md) = .ok (.ofMinit c md) := by
  simp [decodeMinit, requireZero]

theorem decodePad_formatA (op : Op) (sc : Scheme) {bs : Byte} (h : blockSizeOk bs = true)
    (mk : Byte → Scheme → Instr) : decodePad (formatA op sc bs) mk = .ok (mk bs sc) := by
  simp [decodePad, requireZero, h]

/-- Settles O1: the opcode field selects the format, and the fields of the format are the operands. -/
theorem decodeOfEncode : Obligations.DecodeOfEncode := by
  intro i wf
  rw [decode_of_opField (opField_encode i)]
  cases i with
  | gfadd | gfmul | gfpow | gfinv => simp [Instr.op, decodeFields, encode, requireZero]
  | gfirr => simp [Instr.op, decodeFields, encode, requireZero, formatG_zero_zero]
  | pdiv | prem | perm | rjkey => simp [Instr.op, decodeFields, encode, requireZero]
  | minitEcb | minitCbc | minitPcbc | minitCfb | minitOfb | minitCtr | minitRd => exact decodeMinit_formatM _ _ _
  | padaddPkcs7 | padaddAnsi | padaddIso | padaddZeros | padremPkcs7 | padremAnsi | padremIso | padremZeros =>
    exact decodePad_formatA _ _ wf _
  | _ => exact requireZero_of_zero (field_formatZ _) _

/-! ### A word put together from its fields -/

theorem field_append_field {w : Word} {hi lo n k : Nat} (h : hi = lo + n) :
    field w hi k ++ field w lo n = field w lo (k + n) := BitVec.extractLsb'_append_extractLsb'_eq_extractLsb' h

theorem field_whole (w : Word) : field w 0 32 = w := BitVec.extractLsb'_eq_self

section Fields

variable {w : Word} {op : Op}

theorem formatG_fields (h : opField w = op.toByte) : formatG op (field w 16 8) (field w 8 8) (field w 0 8) = w := by
  simp (disch := decide) only [formatG, ← h, opField, field_append_field]
  exact field_whole w

theorem formatD_fields (h : opField w = op.toByte) : formatD op (field w 8 16) (field w 0 8) = w := by
  simp (disch := decide) only [formatD, ← h, opField, field_append_field]
  exact field_whole w

theorem formatZ_fields (h : opField w = op.toByte) (zero : field w 0 24 = 0) : formatZ op = w := by
  have whole : op.toByte ++ field w 0 24 = w := by
    simp (disch := decide) only [← h, opField, field_append_field]
    exact field_whole w
  rwa [zero] at whole

theorem formatP_fields (h : opField w = op.toByte) (zero : field w 0 19 = 0) :
    formatP op (.ofCode (field w 22 2)) (field w 19 3) = w := by
  have whole : op.toByte ++ field w 22 2 ++ field w 19 3 ++ field w 0 19 = w := by
    simp (disch := decide) only [← h, opField, field_append_field]
    exact field_whole w
  rw [zero] at whole
  rwa [formatP, PermRule.code_ofCode]

theorem formatM_fields (h : opField w = op.toByte) (zero : field w 8 16 = 0) {c : Cipher} {md : Mode}
    (hc : c.code = field w 4 4) (hmd : md.code = field w 0 4) : formatM op c md = w := by
  have whole : op.toByte ++ field w 8 16 ++ field w 4 4 ++ field w 0 4 = w := by
    simp (disch := decide) only [← h, opField, field_append_field]
    exact field_whole w
  rwa [zero, ← hc, ← hmd] at whole

theorem formatA_fields (h : opField w = op.toByte) (zero : field w 12 12 = 0) {sc : Scheme}
    (hsc : sc.code = field w 8 4) : formatA op sc (field w 0 8) = w := by
  have whole : op.toByte ++ field w 12 12 ++ field w 8 4 ++ field w 0 8 = w := by
    simp (disch := decide) only [← h, opField, field_append_field]
    exact field_whole w
  rwa [zero, ← hsc] at whole

/-! ### Encoding what was decoded -/

variable {i : Instr}

theorem requireZero_ok {lo n : Nat} {j : Instr} : requireZero w lo n j = .ok i ↔ field w lo n = 0 ∧ j = i := by
  rw [requireZero]
  split <;> simp_all

theorem decodeMinit_ok :
    decodeMinit w = .ok i ↔ ∃ c md, Cipher.ofCode (field w 4 4) = some c ∧ Mode.ofCode (field w 0 4) = some md ∧
      field w 8 16 = 0 ∧ .ofMinit c md = i := by
  rw [decodeMinit]
  split
  case h_1 c md hc hmd => simp [hc, hmd, requireZero_ok]
  case h_2 h => simp_all

theorem decodePad_ok {mk : Byte → Scheme → Instr} :
    decodePad w mk = .ok i ↔ ∃ sc, Scheme.ofCode (field w 8 4) = some sc ∧ blockSizeOk (field w 0 8) = true ∧
      field w 12 12 = 0 ∧ mk (field w 0 8) sc = i := by
  rw [decodePad]
  split
  case h_1 sc hsc => by_cases hb : blockSizeOk (field w 0 8) = true <;> simp [hsc, hb, requireZero_ok]
  case h_2 h => simp [h]

theorem encode_ofMinit (c : Cipher) (md : Mode) : encode (.ofMinit c md) = formatM .minit c md := by
  cases md <;> rfl

theorem encode_ofPadadd (bs : Byte) (sc : Scheme) : encode (.ofPadadd bs sc) = formatA .padadd sc bs := by
  cases sc <;> rfl

theorem encode_ofPadrem (bs : Byte) (sc : Scheme) : encode (.ofPadrem bs sc) = formatA .padrem sc bs := by
  cases sc <;> rfl

/-- The command read from a word whose opcode is `op` is legal, and the word is its word. -/
theorem encode_of_decodeFields (h : opField w = op.toByte) (hi : decodeFields w op = .ok i) :
    encode i = w ∧ i.wellFormed = true := by
  cases op with
  | gfmul | gfpow =>
    cases hi
    exact ⟨formatG_fields h, rfl⟩
  | pdiv | prem =>
    cases hi
    exact ⟨formatD_fields h, rfl⟩
  | gfadd | gfinv | rjkey =>
    obtain ⟨zero, rfl⟩ := requireZero_ok.mp hi
    have whole := formatG_fields h
    rw [zero] at whole
    exact ⟨whole, rfl⟩
  | gfirr =>
    obtain ⟨zero, rfl⟩ := requireZero_ok.mp hi
    have whole := formatD_fields h
    rw [zero] at whole
    exact ⟨(formatG_zero_zero _ _).trans whole, rfl⟩
  | perm =>
    obtain ⟨zero, rfl⟩ := requireZero_ok.mp hi
    exact ⟨formatP_fields h zero, rfl⟩
  | minit =>
    obtain ⟨c, md, hc, hmd, zero, rfl⟩ := decodeMinit_ok.mp hi
    rw [encode_ofMinit]
    exact ⟨formatM_fields h zero (Cipher.code_of_ofCode hc) (Mode.code_of_ofCode hmd), by cases md <;> rfl⟩
  | padadd =>
    obtain ⟨sc, hsc, size, zero, rfl⟩ := decodePad_ok.mp hi
    rw [encode_ofPadadd]
    exact ⟨formatA_fields h zero (Scheme.code_of_ofCode hsc), by cases sc <;> exact size⟩
  | padrem =>
    obtain ⟨sc, hsc, size, zero, rfl⟩ := decodePad_ok.mp hi
    rw [encode_ofPadrem]
    exact ⟨formatA_fields h zero (Scheme.code_of_ofCode hsc), by cases sc <;> exact size⟩
  | _ =>
    obtain ⟨zero, rfl⟩ := requireZero_ok.mp hi
    exact ⟨formatZ_fields h zero, rfl⟩

theorem encode_of_decode (h : decode w = .ok i) : encode i = w ∧ i.wellFormed = true := by
  rw [decode] at h
  split at h
  case h_1 => cases h
  case h_2 op hop => exact encode_of_decodeFields (Op.toByte_of_ofByte hop).symm h

end Fields

/-! ### The rows of the opcode table -/

theorem row_mem_opcodeRows (i : Instr) : i.row ∈ opcodeRows := by
  cases i <;> exact List.elem_iff.mp rfl

theorem accepts_iff {r : OpcodeRow} {w : Word} :
    r.accepts w = true ↔ w &&& r.mask = r.pattern ∧ r.constraint.met w = true := by
  simp [OpcodeRow.accepts]

/-- The constraint of the MINIT rows, as the decoder checks it (R99). -/
theorem met_cipherField (w : Word) : RowConstraint.cipherField.met w = decide ((field w 4 4).toNat ≤ 2) := by
  have low : (w >>> 4 &&& 0xF#32).toNat = (field w 4 4).toNat := by
    rw [BitVec.toNat_and, field, BitVec.extractLsb'_toNat, BitVec.toNat_ushiftRight]
    exact Nat.and_two_pow_sub_one_eq_mod _ 4
  rw [RowConstraint.met, low]

/-- The constraint of the padding rows, as the decoder checks it (R101). -/
theorem met_blockSizeField (w : Word) : RowConstraint.blockSizeField.met w = blockSizeOk (field w 0 8) := by
  have low : w &&& 0xFF#32 = 0#24 ++ field w 0 8 := by
    have split : w = field w 8 24 ++ field w 0 8 := by rw [field_append_field (by rfl)]; exact (field_whole w).symm
    have mask : 0xFF#32 = 0#24 ++ BitVec.allOnes 8 := rfl
    conv_lhs => rw [split, mask, BitVec.and_append, BitVec.and_zero, BitVec.and_allOnes]
  rw [RowConstraint.met, low, blockSizeOk, Bool.eq_iff_iff, bne_iff_ne, bne_iff_ne, not_iff_not]
  exact ⟨fun h => BitVec.append_right_inj _ |>.mp (h.trans rfl), fun h => by rw [h]; rfl⟩

/-! ### The word of a command is one of its row's -/

theorem formatG_and (op : Op) (a b m ma mb mm : Byte) :
    formatG op a b m &&& (BitVec.allOnes 8 ++ ma ++ mb ++ mm) = formatG op (a &&& ma) (b &&& mb) (m &&& mm) := by
  show (op.toByte ++ a ++ b ++ m : BitVec (8 + 8 + 8 + 8)) &&& _ = _
  simp only [formatG, BitVec.and_append, BitVec.and_allOnes]

theorem formatD_and (op : Op) (x : BitVec 16) (y : Byte) :
    formatD op x y &&& (BitVec.allOnes 8 ++ 0#16 ++ 0#8) = formatD op 0 0 := by
  show (op.toByte ++ x ++ y : BitVec (8 + 16 + 8)) &&& _ = _
  simp only [formatD, BitVec.and_append, BitVec.and_allOnes, BitVec.and_zero, BitVec.ofNat_eq_ofNat]

theorem formatP_and (op : Op) (rule : PermRule) (lz : BitVec 3) :
    formatP op rule lz &&& (BitVec.allOnes 8 ++ 0#2 ++ 0#3 ++ BitVec.allOnes 19) = formatP op .l0 0 := by
  show (op.toByte ++ rule.code ++ lz ++ 0#19 : BitVec (8 + 2 + 3 + 19)) &&& _ = _
  simp only [BitVec.and_append, BitVec.and_allOnes, BitVec.and_zero]
  rfl

theorem formatA_and (op : Op) (sc : Scheme) (bs : Byte) :
    formatA op sc bs &&& (BitVec.allOnes 8 ++ BitVec.allOnes 12 ++ BitVec.allOnes 4 ++ 0#8) = formatA op sc 0 := by
  show (op.toByte ++ 0#12 ++ sc.code ++ bs : BitVec (8 + 12 + 4 + 8)) &&& _ = _
  simp only [formatA, BitVec.and_append, BitVec.and_allOnes, BitVec.and_zero, BitVec.ofNat_eq_ofNat]

theorem accepts_encode {i : Instr} (wf : i.wellFormed = true) : i.row.accepts (encode i) = true := by
  rw [accepts_iff]
  cases i with
  | gfadd a b =>
    exact ⟨(formatG_and .gfadd a b 0 0#8 0#8 (.allOnes 8)).trans (by simp only [BitVec.and_zero]; rfl), rfl⟩
  | gfmul a b m => exact ⟨(formatG_and .gfmul a b m 0#8 0#8 0#8).trans (by simp only [BitVec.and_zero]; rfl), rfl⟩
  | gfpow a b m => exact ⟨(formatG_and .gfpow a b m 0#8 0#8 0#8).trans (by simp only [BitVec.and_zero]; rfl), rfl⟩
  | gfinv a m =>
    exact ⟨(formatG_and .gfinv a 0 m 0#8 (.allOnes 8) 0#8).trans (by simp only [BitVec.and_zero]; rfl), rfl⟩
  | gfirr m =>
    exact ⟨(formatG_and .gfirr 0 0 m (.allOnes 8) (.allOnes 8) 0#8).trans (by simp only [BitVec.and_zero]; rfl), rfl⟩
  | pdiv | prem => exact ⟨formatD_and _ _ _, rfl⟩
  | perm => exact ⟨formatP_and _ _ _, rfl⟩
  | rjkey bsz md =>
    exact ⟨(formatG_and .rjkey 0 bsz md (.allOnes 8) 0#8 0#8).trans (by simp only [BitVec.and_zero]; rfl), rfl⟩
  | minitEcb c | minitCbc c | minitPcbc c | minitCfb c | minitOfb c | minitCtr c | minitRd c =>
    cases c <;> exact ⟨rfl, rfl⟩
  | padaddPkcs7 | padaddAnsi | padaddIso | padaddZeros | padremPkcs7 | padremAnsi | padremIso | padremZeros =>
    exact ⟨formatA_and _ _ _, by rw [Instr.row, encode, met_blockSizeField, (fields_formatA _ _ _).2.2]; exact wf⟩
  | _ => exact ⟨rfl, rfl⟩

/-! ### Every word of a row decodes to a command of the row -/

/-- A field of a word that a mask picks whole. -/
theorem field_of_masked {w mask pattern : Word} {lo n : Nat} (h : w &&& mask = pattern)
    (whole : field mask lo n = BitVec.allOnes n) : field w lo n = field pattern lo n := by
  rw [← h]
  rw [field] at whole
  rw [field, field, BitVec.extractLsb'_and, whole, BitVec.and_allOnes]

theorem opField_of_masked {w : Word} {j : Instr} (h : w &&& j.row.mask = j.row.pattern) :
    opField w = j.op.toByte := by
  cases j <;> (dsimp only [Instr.row] at h; exact field_of_masked (lo := 24) (n := 8) h rfl)

theorem decodeMinit_of_accepts {w : Word} {md : Mode} {c : Cipher}
    (h : w &&& (Instr.ofMinit c md).row.mask = (Instr.ofMinit c md).row.pattern)
    (valid : RowConstraint.cipherField.met w = true) :
    ∃ i, decodeMinit w = .ok i ∧ i.row = (Instr.ofMinit c md).row := by
  rw [met_cipherField, decide_eq_true_iff] at valid
  obtain ⟨c', hc'⟩ := Option.isSome_iff_exists.mp (Cipher.isSome_ofCode _ valid)
  have mode : field w 0 4 = md.code := by
    cases md <;> (dsimp only [Instr.row, Instr.ofMinit] at h; exact field_of_masked h rfl)
  have zero : field w 8 16 = 0 := by
    cases md <;> (dsimp only [Instr.row, Instr.ofMinit] at h; exact field_of_masked h rfl)
  refine ⟨_, decodeMinit_ok.mpr ⟨c', md, hc', ?_, zero, rfl⟩, by cases md <;> rfl⟩
  rw [mode, Mode.ofCode_code]

theorem decodePad_of_accepts {w : Word} {mk : Byte → Scheme → Instr} {sc : Scheme}
    (scheme : field w 8 4 = sc.code) (zero : field w 12 12 = 0)
    (size : RowConstraint.blockSizeField.met w = true) : decodePad w mk = .ok (mk (field w 0 8) sc) := by
  rw [met_blockSizeField] at size
  exact decodePad_ok.mpr ⟨sc, by rw [scheme, Scheme.ofCode_code], size, zero, rfl⟩

theorem exists_decode_of_accepts {w : Word} {j : Instr} (h : j.row.accepts w = true) :
    ∃ i, decode w = .ok i ∧ i.row = j.row := by
  obtain ⟨masked, met⟩ := accepts_iff.mp h
  rw [decode_of_opField (opField_of_masked masked)]
  cases j with
  | gfmul | gfpow | pdiv | prem => exact ⟨_, rfl, rfl⟩
  | minitEcb c => exact decodeMinit_of_accepts (md := .ecb) (c := c) masked met
  | minitCbc c => exact decodeMinit_of_accepts (md := .cbc) (c := c) masked met
  | minitPcbc c => exact decodeMinit_of_accepts (md := .pcbc) (c := c) masked met
  | minitCfb c => exact decodeMinit_of_accepts (md := .cfb) (c := c) masked met
  | minitOfb c => exact decodeMinit_of_accepts (md := .ofb) (c := c) masked met
  | minitCtr c => exact decodeMinit_of_accepts (md := .ctr) (c := c) masked met
  | minitRd c => exact decodeMinit_of_accepts (md := .rd) (c := c) masked met
  | padaddPkcs7 | padremPkcs7 =>
    dsimp only [Instr.row] at masked
    exact ⟨_, decodePad_of_accepts (sc := .pkcs7) (field_of_masked masked rfl) (field_of_masked masked rfl) met, rfl⟩
  | padaddAnsi | padremAnsi =>
    dsimp only [Instr.row] at masked
    exact ⟨_, decodePad_of_accepts (sc := .ansi) (field_of_masked masked rfl) (field_of_masked masked rfl) met, rfl⟩
  | padaddIso | padremIso =>
    dsimp only [Instr.row] at masked
    exact ⟨_, decodePad_of_accepts (sc := .iso) (field_of_masked masked rfl) (field_of_masked masked rfl) met, rfl⟩
  | padaddZeros | padremZeros =>
    dsimp only [Instr.row] at masked
    exact ⟨_, decodePad_of_accepts (sc := .zeros) (field_of_masked masked rfl) (field_of_masked masked rfl) met, rfl⟩
  | _ =>
    dsimp only [Instr.row] at masked
    exact ⟨_, requireZero_of_zero (field_of_masked masked rfl) _, rfl⟩

/-- Settles O2: a decoded word is put together again from its fields, and the mask of a row picks the fields the
decoder checks. -/
theorem decodesExactlyTableWords : Obligations.DecodesExactlyTableWords := by
  refine ⟨fun w i h => ?_, fun w r hr h => ?_⟩
  · obtain ⟨rfl, wf⟩ := encode_of_decode h
    exact ⟨rfl, wf, row_mem_opcodeRows i, accepts_encode wf⟩
  · obtain ⟨j, -, rfl⟩ := List.mem_map.mp hr
    exact exists_decode_of_accepts h

/-- Settles O3, by running the decoder on the printed words. -/
theorem specWordsDecode : Obligations.SpecWordsDecode :=
  ⟨rfl, rfl, rfl, rfl, rfl, rfl, rfl, rfl, rfl⟩

end Sys2Proof
end

section
/-!
The sequencer and the host port (30_encoding.md R91, 20_memory.md R60 to R72, 60_exceptions.md R363 to R369).

Every command answers a next state (`exec_answers`), and while the latch holds an error every command that does not pass
the gate answers the same state (`exec_of_err`). So a legal word written to CMD runs its command whatever the latch
holds (`issue_of_decode`). A register has an offset of its own, and the seven buffers do not overlap
(`Buf.holds_unique`), so a mapped address is one location (`locate_of_holds`).
-/

namespace Sys2Proof.Machine

variable {s t : State} {w : Word} {i : Instr}

/-! ### Every command ends (R92) -/

/-- The outcome is a next state, not a fault or a refusal. -/
def Answers (r : Result) : Prop := ∃ t, r = .next t

theorem answers_next (t : State) : Answers (.next t) := ⟨t, rfl⟩

theorem answers_raiseErr (s : State) (w : Word) (code : ErrCode) (info : Word) : Answers (raiseErr s w code info) :=
  answers_next _

theorem answers_ite {p : Prop} [Decidable p] {a b : Result} (ha : Answers a) (hb : Answers b) :
    Answers (if p then a else b) := by
  split
  · exact ha
  · exact hb

theorem answers_gated {k : Result} (h : Answers k) : Answers (gated s k) := answers_ite (answers_next s) h

theorem answers_gfCommand (s : State) (w : Word) (m : Byte) (r : Nat) : Answers (gfCommand s w m r) :=
  answers_gated (answers_ite (answers_raiseErr _ _ _ _) (answers_next _))

theorem answers_divCommand (s : State) (w : Word) (y : Byte) (r : Nat) : Answers (divCommand s w y r) :=
  answers_gated (answers_ite (answers_raiseErr _ _ _ _) (answers_next _))

theorem answers_rawBlock (s : State) (w : Word) (valid : Bool) (bs : Nat) (f : Bytes → Bytes) :
    Answers (rawBlock s w valid bs f) :=
  answers_gated (answers_ite (answers_raiseErr _ _ _ _) (answers_ite (answers_raiseErr _ _ _ _) (answers_next _)))

theorem answers_minit (md : Mode) (c : Cipher) (w : Word) (s : State) : Answers (minit md c w s) :=
  answers_gated (answers_ite (answers_raiseErr _ _ _ _) (answers_ite (answers_next _)
    (answers_ite (answers_raiseErr _ _ _ _) (answers_ite (answers_raiseErr _ _ _ _) (answers_next _)))))

theorem answers_modeData (w : Word) (f : List Bytes → List Bytes) (s : State) : Answers (modeData w f s) :=
  answers_gated (answers_ite (answers_raiseErr _ _ _ _) (answers_ite (answers_raiseErr _ _ _ _)
    (answers_ite (answers_raiseErr _ _ _ _) (answers_next _))))

theorem answers_padaddCommand (sc : Scheme) (bs : Byte) (w : Word) (s : State) : Answers (padaddCommand sc bs w s) :=
  answers_gated (answers_ite (answers_raiseErr _ _ _ _) (answers_ite (answers_raiseErr _ _ _ _)
    (answers_ite (answers_raiseErr _ _ _ _) (answers_next _))))

theorem answers_padremCommand (remove : Bytes → Except Nat Bytes) (bs : Byte) (w : Word) (s : State) :
    Answers (padremCommand remove bs w s) := by
  refine answers_gated (answers_ite (answers_raiseErr _ _ _ _) (answers_ite (answers_raiseErr _ _ _ _) ?_))
  split
  · exact answers_raiseErr _ _ _ _
  · exact answers_next _

theorem answers_execPerm (rule : PermRule) (lz : BitVec 3) (s : State) : Answers (execPerm rule lz s) := by
  refine answers_gated (answers_ite (answers_raiseErr _ _ _ _) (answers_ite (answers_raiseErr _ _ _ _) ?_))
  split
  · exact answers_raiseErr _ _ _ _
  · exact answers_next _

theorem exec_answers (i : Instr) (s : State) : Answers (exec i s) := by
  cases i with
  | nop | otoi | gfadd => exact answers_gated (answers_next _)
  | clrerr | sreset => exact answers_next _
  | gfmul | gfpow | gfinv | gfirr => exact answers_gfCommand _ _ _ _
  | pdiv | prem => exact answers_divCommand _ _ _ _
  | perm => exact answers_execPerm _ _ _
  | deskey | dealkey => exact answers_gated (answers_ite (answers_raiseErr _ _ _ _) (answers_next _))
  | rjkey =>
    exact answers_gated (answers_ite (answers_raiseErr _ _ _ _) (answers_ite (answers_raiseErr _ _ _ _)
      (answers_ite (answers_raiseErr _ _ _ _) (answers_ite (answers_raiseErr _ _ _ _) (answers_next _)))))
  | desenc | desdec | dealenc | dealdec | rjenc | rjdec => exact answers_rawBlock _ _ _ _ _
  | minitEcb | minitCbc | minitPcbc | minitCfb | minitOfb | minitCtr | minitRd => exact answers_minit _ _ _ _
  | menc | mdec => exact answers_modeData _ _ _
  | padaddPkcs7 | padaddAnsi | padaddIso | padaddZeros => exact answers_padaddCommand _ _ _ _
  | padremPkcs7 | padremAnsi | padremIso => exact answers_padremCommand _ _ _ _
  | padremZeros => exact answers_padremCommand (fun Y => .ok (removeZeros Y)) _ _ _

/-- No command touches the port or BUF_BYTES. -/
theorem exec_keeps_port (h : exec i s = .next t) : t.host = s.host ∧ t.resp = s.resp ∧ t.params = s.params := by
  cases exec_effect h <;> exact ⟨rfl, rfl, rfl⟩

/-! ### The gate (R368) -/

theorem exec_of_err (he : s.err = true) (hc : i ≠ .clrerr) (hs : i ≠ .sreset) : exec i s = .next s := by
  obtain ⟨t, ht⟩ := exec_answers i s
  cases exec_effect ht with
  | ignored => exact ht
  | acknowledge hi => exact absurd hi hc
  | restart hi => exact absurd hi hs
  | nothing h0 | copy h0 | raised h0 | scalar h0 | data h0 | keyDes h0 | keyDeal h0 | keyRj h0 | mode h0 =>
    rw [he] at h0
    cases h0

theorem passesGate_iff : passesGate w = true ↔ w.extractLsb' 24 8 = 0x01#8 ∨ w.extractLsb' 24 8 = 0x02#8 := by
  simp [passesGate, opField, field, Op.toByte]

theorem issue_of_gate (he : s.err = true) (hg : passesGate w = false) : issue w s = .next s := by
  simp [issue, he, hg]

/-- A legal word runs its command; behind the gate that is the same as ignoring it. -/
theorem issue_of_decode (h : decode w = .ok i) : issue w s = exec i s := by
  by_cases gate : s.err = true ∧ passesGate w = false
  · obtain ⟨he, hg⟩ := gate
    obtain ⟨rfl, -⟩ := encode_of_decode h
    have hc : i ≠ .clrerr := by rintro rfl; exact absurd hg (by decide)
    have hs : i ≠ .sreset := by rintro rfl; exact absurd hg (by decide)
    rw [issue_of_gate he hg, exec_of_err he hc hs]
  · have gate_open : (s.err && !passesGate w) = false := by simpa using gate
    simp [issue, gate_open, h]

theorem issue_of_illegal (h : ∀ i, decode w ≠ .ok i) (pass : s.err = false ∨ passesGate w = true) :
    issue w s = raiseErr s w .illegalCmd 0 := by
  have gate_open : (s.err && !passesGate w) = false := by rcases pass with h | h <;> simp [h]
  cases hd : decode w with
  | ok i => exact absurd hd (h i)
  | error e => simp [issue, gate_open, hd]

theorem issue_answers (w : Word) (s : State) : ∃ t, issue w s = .next t ∧ t.host = s.host ∧ t.resp = s.resp := by
  cases hd : decode w with
  | ok i =>
    obtain ⟨t, ht⟩ := exec_answers i s
    obtain ⟨host, resp, -⟩ := exec_keeps_port ht
    exact ⟨t, (issue_of_decode hd).trans ht, host, resp⟩
  | error e =>
    by_cases gate : s.err = true ∧ passesGate w = false
    · exact ⟨s, issue_of_gate gate.1 gate.2, rfl, rfl⟩
    · have pass : s.err = false ∨ passesGate w = true := by
        cases h : s.err <;> cases h' : passesGate w <;> simp_all
      exact ⟨_, issue_of_illegal (by simp [hd]) pass, rfl, rfl⟩

/-! ### The address map (20_memory.md R61) -/

theorem Buf.holds_iff {p : Params} {b : Buf} {a : Nat} : b.holds p a = true ↔ b.base ≤ a ∧ a < b.base + b.size p := by
  simp [Buf.holds]

theorem Buf.mem_all (b : Buf) : b ∈ Buf.all := by
  cases b <;> decide

/-- The buffers do not overlap, when BUF_BYTES is in its range. -/
theorem Buf.holds_unique {p : Params} (hp : p.Valid) {b c : Buf} {a : Nat} (hb : b.holds p a = true)
    (hc : c.holds p a = true) : b = c := by
  obtain ⟨-, -, hp⟩ := hp
  rw [Buf.holds_iff] at hb hc
  cases b <;> cases c <;>
    first
    | rfl
    | (simp only [Buf.base, Buf.size, keyBase, ivBase, tblBase, sboxBase, isboxBase, dinBase, doutBase,
        Config.keyBytes, Config.ivBytes, Config.tblEntries] at hb hc
       omega)

theorem Buf.base_ge (b : Buf) : 0x100 ≤ b.base := by
  cases b <;> decide

theorem locate_of_ge {p : Params} {a : Nat} (h : 0x34 ≤ a) :
    locate p a = (Buf.all.find? fun b => b.holds p a).map .buf := by
  have past : regMap[a / 4]? = none := List.getElem?_eq_none (by simp only [regMap, List.length]; omega)
  rw [locate, past]

theorem locate_of_holds {p : Params} (hp : p.Valid) {b : Buf} {a : Nat} (h : b.holds p a = true) :
    locate p a = some (.buf b) := by
  have above := (Buf.holds_iff.mp h).1
  have base := b.base_ge
  rw [locate_of_ge (by omega)]
  cases hf : Buf.all.find? fun b => b.holds p a with
  | none => exact absurd h (by simpa using List.find?_eq_none.mp hf b b.mem_all)
  | some c =>
    have hc : c.holds p a = true := List.find?_some (p := fun b => Buf.holds p b a) hf
    rw [Option.map_some, Buf.holds_unique hp hc h]

theorem locate_of_regMap {p : Params} {a k : Nat} {r : Reg} (ha : a / 4 = k) (hr : regMap[k]? = some r) :
    locate p a = some (.reg r) := by
  rw [locate, ha, hr]

theorem locate_eq_none {p : Params} {a : Nat} (h : 0x34 ≤ a) (hb : ∀ b : Buf, ¬ b.holds p a = true) :
    locate p a = none := by
  rw [locate_of_ge h, List.find?_eq_none.mpr fun b _ => hb b, Option.map_none]

theorem locate_eq_cmd {p : Params} {a : Nat} (h : locate p a = some (.reg .cmd)) : a / 4 = 1 := by
  have nodup : regMap.Nodup := by decide
  rw [locate] at h
  split at h
  case h_1 r hr =>
    cases h
    have cmd : regMap[a / 4]? = regMap[1]? := hr
    exact (List.getElem?_inj (List.getElem?_eq_some_iff.mp hr).1 nodup).mp cmd
  case h_2 => simp at h

theorem busLoc_eq_cmd {p : Params} {addr : BitVec 16} {n : Nat} (h : busLoc p addr n = some (.reg .cmd)) :
    addr = cmdOffset ∧ n = 4 := by
  rw [busLoc] at h
  split at h
  case isTrue aligned =>
    have quarter := locate_eq_cmd h
    refine ⟨BitVec.eq_of_toNat_eq ?_, aligned.1⟩
    rw [show cmdOffset.toNat = 4 from rfl]
    omega
  case isFalse => cases h

theorem busLoc_aligned {p : Params} {addr : BitVec 16} (h : addr.toNat % 4 = 0) :
    busLoc p addr 4 = locate p addr.toNat := if_pos ⟨rfl, h⟩

/-! ### One transaction (20_memory.md R62, R63, R68) -/

theorem step_cons {x : HostTxn} {rest : List HostTxn} (h : s.host = x :: rest) :
    step s = serve x { s with host := rest } := by
  rw [step, h]

theorem step_cmd {rest : List HostTxn} (h : s.host = .write cmdOffset 4 w :: rest) :
    step s = issue w { s with host := rest, resp := some .written } := step_cons h

theorem step_refused {rest : List HostTxn} {addr : BitVec 16} {n : Nat} {v : Word} {x : HostTxn}
    (hx : x = .read addr n ∨ x = .write addr n v) (h : s.host = x :: rest) (unmapped : busLoc s.params addr n = none) :
    step s = .next { s with host := rest, resp := some .busError } := by
  rw [step_cons h]
  rcases hx with rfl | rfl <;> simp [serve, unmapped, State.answer]

theorem step_read {rest : List HostTxn} {addr : BitVec 16} {l : Loc} (h : s.host = .read addr 4 :: rest)
    (hl : busLoc s.params addr 4 = some l) :
    step s = .next { s with host := rest, resp := some (.data (s.readLoc addr.toNat l)) } := by
  have same : State.readLoc { s with host := rest } addr.toNat l = s.readLoc addr.toNat l := by
    cases l with
    | reg r => cases r <;> rfl
    | buf b => rfl
  rw [step_cons h]
  simp only [serve, hl, same]
  rfl

theorem step_write {rest : List HostTxn} {addr : BitVec 16} {v : Word} {l : Loc} (h : s.host = .write addr 4 v :: rest)
    (hl : busLoc s.params addr 4 = some l) (cmd : l ≠ .reg .cmd) :
    step s = .next { s.writeLoc addr.toNat v l with host := rest, resp := some .written } := by
  rw [step_cons h]
  simp only [serve, hl]
  cases l with
  | reg r => cases r <;> rfl
  | buf b => cases b <;> rfl

/-- Settles O4: the offset of CMD is mapped to CMD, and a legal word runs its command. -/
theorem stepRunsDecodedCommand : Obligations.StepRunsDecodedCommand := by
  intro s w rest i host legal
  rw [step_cmd host, issue_of_decode legal]

/-- Settles O5: an illegal word that passes the gate gets as far as the decoder. -/
theorem illegalWordLatched : Obligations.IllegalWordLatched := by
  intro s w rest host illegal gate
  rw [← passesGate_iff] at gate
  rw [step_cmd host, issue_of_illegal illegal (by exact gate)]
  rfl

/-- Settles O6: the gate stands in the sequencer and in every command but the two. -/
theorem gateIgnoresCommands : Obligations.GateIgnoresCommands := by
  refine ⟨fun s w rest host he h1 h2 => ?_, fun s i he hc hs => exec_of_err he hc hs⟩
  have shut : passesGate w = false := by
    rw [← Bool.not_eq_true, passesGate_iff, not_or]
    exact ⟨h1, h2⟩
  rw [step_cmd host, issue_of_gate (by exact he) shut]

theorem serve_answers (x : HostTxn) (s : State) :
    ∃ t, serve x s = .next t ∧ t.host = s.host ∧ (x ≠ .reset → t.resp ≠ none) := by
  cases x with
  | reset => exact ⟨_, rfl, rfl, fun h => absurd rfl h⟩
  | read addr n =>
    cases hl : busLoc s.params addr n with
    | none => exact ⟨s.answer .busError, by simp [serve, hl], rfl, fun _ => by simp⟩
    | some l => exact ⟨s.answer (.data (s.readLoc addr.toNat l)), by simp [serve, hl], rfl, fun _ => by simp⟩
  | write addr n v =>
    cases hl : busLoc s.params addr n with
    | none => exact ⟨s.answer .busError, by simp [serve, hl], rfl, fun _ => by simp⟩
    | some l =>
      by_cases cmd : l = .reg .cmd
      · obtain ⟨t, ht, host, resp⟩ := issue_answers v (s.answer .written)
        exact ⟨t, by simpa [serve, hl, cmd] using ht, host, fun _ => by simp [resp]⟩
      · refine ⟨(s.writeLoc addr.toNat v l).answer .written, by simp [serve, hl], ?_, fun _ => by simp⟩
        cases l with
        | reg r => cases r <;> rfl
        | buf b => cases b <;> rfl

/-- Settles O7: every command and every transaction answers a next state, and no command touches the port. -/
theorem everyStepEnds : Obligations.EveryStepEnds := by
  refine ⟨fun i s => ?_, fun s idle => by rw [step, idle], fun s x rest host => ?_⟩
  · obtain ⟨t, ht⟩ := exec_answers i s
    exact ⟨t, ht, (exec_keeps_port ht).1⟩
  · rw [step_cons host]
    exact serve_answers x _

/-! ### What clears the latch (R369) -/

/-- A command that clears a set latch is CLRERR or SRESET. -/
theorem exec_clears (h : exec i s = .next t) (hs : s.err = true) (ht : t.err = false) : i = .clrerr ∨ i = .sreset := by
  by_contra other
  obtain ⟨hc, hr⟩ := not_or.mp other
  rw [exec_of_err hs hc hr, next_eq] at h
  rw [h, hs] at ht
  cases ht

theorem issue_clears (h : issue w s = .next t) (hs : s.err = true) (ht : t.err = false) :
    w = 0x01000000#32 ∨ w = 0x02000000#32 := by
  rcases issue_next.mp h with ⟨-, -, rfl⟩ | ⟨-, ⟨i, hd, hi⟩ | ⟨e, -, rfl⟩⟩
  · rw [hs] at ht
    cases ht
  · obtain ⟨rfl, -⟩ := encode_of_decode hd
    exact (exec_clears hi hs ht).imp (fun h => by rw [h]; rfl) (fun h => by rw [h]; rfl)
  · cases ht

theorem writeLoc_err (s : State) (a : Nat) (v : Word) (l : Loc) : (s.writeLoc a v l).err = s.err := by
  cases l with
  | reg r => cases r <;> rfl
  | buf b => cases b <;> rfl

theorem serve_clears {x : HostTxn} (h : serve x s = .next t) (hs : s.err = true) (ht : t.err = false) :
    x = .write cmdOffset 4 0x01000000#32 ∨ x = .write cmdOffset 4 0x02000000#32 ∨ x = .reset := by
  cases x with
  | reset => exact .inr (.inr rfl)
  | read addr n =>
    cases hl : busLoc s.params addr n <;> simp only [serve, hl, next_eq] at h <;> simp [h, hs] at ht
  | write addr n v =>
    cases hl : busLoc s.params addr n with
    | none =>
      simp only [serve, hl, next_eq] at h
      simp [h, hs] at ht
    | some l =>
      by_cases cmd : l = .reg .cmd
      · subst cmd
        obtain ⟨rfl, rfl⟩ := busLoc_eq_cmd hl
        have run : issue v (s.answer .written) = .next t := by simpa [serve, hl] using h
        exact (issue_clears run hs ht).imp (fun h => by rw [h]) (fun h => .inl (by rw [h]))
      · simp only [serve, hl, next_eq] at h
        simp [h, writeLoc_err, hs] at ht

/-- Settles O8: a legal word runs its command, and of the transactions only these three reach a state with a clear
latch. -/
theorem latchClearedOnlyByAcknowledge : Obligations.LatchClearedOnlyByAcknowledge := by
  refine ⟨fun s rest host => ?_, fun s rest host => ?_, fun s rest host => step_cons host, fun s t h hs ht => ?_⟩
  · exact (step_cmd host).trans (issue_of_decode (i := .clrerr) rfl)
  · exact (step_cmd host).trans (issue_of_decode (i := .sreset) rfl)
  · rcases step_next.mp h with ⟨-, rfl⟩ | ⟨x, rest, host, served⟩
    · rw [hs] at ht
      cases ht
    · refine ⟨rest, ?_⟩
      rcases serve_clears served hs ht with rfl | rfl | rfl <;> simp [host]

/-! ### Accesses of the host -/

/-- Settles O9: no register and no buffer lies at the address. -/
theorem badTransactionsRefused : Obligations.BadTransactionsRefused := by
  intro s rest addr n v x hx host bad
  refine step_refused hx host ?_
  rw [busLoc]
  split
  case isFalse => rfl
  case isTrue aligned =>
    have outside := bad.resolve_left (not_not.mpr aligned.1) |>.resolve_left (not_not.mpr aligned.2)
    simp only [not_or, not_and, not_lt] at outside
    obtain ⟨reg, key, iv, tables, din, dout⟩ := outside
    refine locate_eq_none reg fun b => ?_
    rw [Buf.holds_iff]
    cases b <;> simp only [Buf.base, Buf.size, keyBase, ivBase, tblBase, sboxBase, isboxBase, dinBase, doutBase,
      Config.keyBytes, Config.ivBytes, Config.tblEntries] <;> omega

theorem lenWord_eq {n : Nat} (len : BitVec n) : lenWord len = len.setWidth 32 := BitVec.ofNat_toNat 32 len

theorem step_read_reg {rest : List HostTxn} {addr : BitVec 16} (r : Reg) (h : s.host = .read addr 4 :: rest)
    (hr : busLoc s.params addr 4 = some (.reg r)) :
    step s = .next { s with host := rest, resp := some (.data (s.readReg r)) } := step_read h hr

/-- Settles O10: each offset is that of one register, and the five lengths are zero-extended. -/
theorem registerReads : Obligations.RegisterReads := by
  intro s rest addr v hv host
  simp only [List.mem_cons, Prod.mk.injEq, List.not_mem_nil, or_false, ← lenWord_eq] at hv
  rcases hv with ⟨rfl, rfl⟩ | ⟨rfl, rfl⟩ | ⟨rfl, rfl⟩ | ⟨rfl, rfl⟩ | ⟨rfl, rfl⟩ | ⟨rfl, rfl⟩ | ⟨rfl, rfl⟩ | ⟨rfl, rfl⟩ |
    ⟨rfl, rfl⟩ | ⟨rfl, rfl⟩ | ⟨rfl, rfl⟩ | ⟨rfl, rfl⟩ | ⟨rfl, rfl⟩
  · exact step_read_reg .id host rfl
  · exact step_read_reg .cmd host rfl
  · exact step_read_reg .status host rfl
  · exact step_read_reg .errinfo host rfl
  · exact step_read_reg .errcmd host rfl
  · exact step_read_reg .res host rfl
  · exact step_read_reg .klen host rfl
  · exact step_read_reg .ivlen host rfl
  · exact step_read_reg .dlen host rfl
  · exact step_read_reg .olen host rfl
  · exact step_read_reg .tlen host rfl
  · exact step_read_reg .rjcfg host rfl
  · exact step_read_reg .mcfg host rfl

/-- A length register of `n` bits reads back what it stored of a write. -/
theorem lenWord_setWidth {n : Nat} (hn : n ≤ 32) (v : Word) :
    lenWord (v.setWidth n) = v &&& BitVec.ofNat 32 (2 ^ n - 1) := by
  have small : v.toNat % 2 ^ n < 2 ^ 32 := (Nat.mod_le _ _).trans_lt v.isLt
  have mask : 2 ^ n - 1 < 2 ^ 32 :=
    (Nat.sub_lt (Nat.two_pow_pos n) one_pos).trans_le (Nat.pow_le_pow_right two_pos hn)
  apply BitVec.eq_of_toNat_eq
  rw [lenWord, BitVec.toNat_and, BitVec.toNat_ofNat, BitVec.toNat_ofNat, BitVec.toNat_setWidth, Nat.mod_eq_of_lt small,
    Nat.mod_eq_of_lt mask, Nat.and_two_pow_sub_one_eq_mod]

/-- Settles O12: the register stores the low bits, and reads them back zero-extended. -/
theorem lengthRegisterWrites : Obligations.LengthRegisterWrites := by
  intro s rest v addr mask t ht host
  simp only [List.mem_cons, Prod.mk.injEq, List.not_mem_nil, or_false] at ht
  rcases ht with ⟨rfl, rfl, rfl⟩ | ⟨rfl, rfl, rfl⟩ | ⟨rfl, rfl, rfl⟩ | ⟨rfl, rfl, rfl⟩
  · refine ⟨(step_write (l := .reg .klen) host rfl (by decide)).trans ?_, (step_read_reg .klen rfl rfl).trans ?_⟩
    · rw [BitVec.setWidth_eq_extractLsb' (by decide)]; rfl
    · rw [State.readReg, lenWord_setWidth (by decide)]; rfl
  · refine ⟨(step_write (l := .reg .ivlen) host rfl (by decide)).trans ?_, (step_read_reg .ivlen rfl rfl).trans ?_⟩
    · rw [BitVec.setWidth_eq_extractLsb' (by decide)]; rfl
    · rw [State.readReg, lenWord_setWidth (by decide)]; rfl
  · refine ⟨(step_write (l := .reg .dlen) host rfl (by decide)).trans ?_, (step_read_reg .dlen rfl rfl).trans ?_⟩
    · rw [BitVec.setWidth_eq_extractLsb' (by decide)]; rfl
    · rw [State.readReg, lenWord_setWidth (by decide)]; rfl
  · refine ⟨(step_write (l := .reg .tlen) host rfl (by decide)).trans ?_, (step_read_reg .tlen rfl rfl).trans ?_⟩
    · rw [BitVec.setWidth_eq_extractLsb' (by decide)]; rfl
    · rw [State.readReg, lenWord_setWidth (by decide)]; rfl

/-- The bytes of a joined word. -/
theorem extractLsb'_four (a b c d : Byte) :
    (a ++ b ++ c ++ d).extractLsb' 24 8 = a ∧ (a ++ b ++ c ++ d).extractLsb' 16 8 = b ∧
      (a ++ b ++ c ++ d).extractLsb' 8 8 = c ∧ (a ++ b ++ c ++ d).extractLsb' 0 8 = d := by
  simp (disch := decide) only [BitVec.extractLsb'_append_eq_of_le, Nat.reduceSub,
    BitVec.extractLsb'_append_eq_of_add_le, BitVec.extractLsb'_eq_self, and_self]

/-- What `Memory.write` stores, as the statements say it. -/
theorem stores_write (m : Memory) (a : Nat) (B : Bytes) : Stores m (m.write a B) a B where
  stored _ hk := Memory.read_write_inside hk
  kept _ hx := Memory.read_write_outside hx

/-- An address in the range of the buffers lies in a buffer. -/
theorem exists_holds {p : Params} {a : Nat}
    (h : (0x0100 ≤ a ∧ a < 0x0120) ∨ (0x0140 ≤ a ∧ a < 0x0180) ∨ (0x0200 ≤ a ∧ a < 0x0600) ∨
      (0x4000 ≤ a ∧ a < 0x4000 + p.bufBytes) ∨ (0x8000 ≤ a ∧ a < 0x8000 + p.bufBytes)) :
    ∃ b : Buf, b.holds p a = true := by
  simp only [Buf.holds_iff]
  rcases h with h | h | h | h | h
  · exact ⟨.key, h⟩
  · exact ⟨.iv, h⟩
  · rcases Nat.lt_or_ge a 0x0400 with h4 | h4
    · exact ⟨.tbl, h.1, h4⟩
    · rcases Nat.lt_or_ge a 0x0500 with h5 | h5
      · exact ⟨.sbox, h4, h5⟩
      · exact ⟨.isbox, h5, h.2⟩
  · exact ⟨.din, h⟩
  · exact ⟨.dout, h⟩

/-- A read-only register or buffer: the host's write changes nothing. -/
def ReadOnly (l : Loc) : Prop := l ≠ .reg .cmd ∧ ∀ (s : State) (a : Nat) (v : Word), s.writeLoc a v l = s

theorem readOnly_reg {r : Reg} (h : r ∈ [Reg.id, .status, .errinfo, .errcmd, .res, .olen, .rjcfg, .mcfg]) :
    ReadOnly (.reg r) := by
  simp only [List.mem_cons, List.not_mem_nil, or_false] at h
  rcases h with rfl | rfl | rfl | rfl | rfl | rfl | rfl | rfl <;> exact ⟨by decide, fun _ _ _ => rfl⟩

theorem readOnly_buf {b : Buf} (h : b.writable = false) : ReadOnly (.buf b) :=
  ⟨by simp, fun _ _ _ => if_neg (by simp [h])⟩

theorem locate_readOnly {p : Params} (hp : p.Valid) {a : Nat} (aligned : a % 4 = 0)
    (h : a = 0x0000 ∨ (0x0008 ≤ a ∧ a < 0x0018) ∨ a = 0x0024 ∨ (0x002C ≤ a ∧ a < 0x0034) ∨
      (0x0400 ≤ a ∧ a < 0x0600) ∨ (0x8000 ≤ a ∧ a < 0x8000 + p.bufBytes)) :
    ∃ l, locate p a = some l ∧ ReadOnly l := by
  have reg {k : Nat} {r : Reg} (ha : a / 4 = k) (hr : regMap[k]? = some r)
      (ro : r ∈ [Reg.id, .status, .errinfo, .errcmd, .res, .olen, .rjcfg, .mcfg]) :
      ∃ l, locate p a = some l ∧ ReadOnly l := ⟨.reg r, locate_of_regMap ha hr, readOnly_reg ro⟩
  have buf {b : Buf} (hb : b.base ≤ a ∧ a < b.base + b.size p) (ro : b.writable = false) :
      ∃ l, locate p a = some l ∧ ReadOnly l :=
    ⟨.buf b, locate_of_holds hp (Buf.holds_iff.mpr hb), readOnly_buf ro⟩
  rcases h with h | h | h | h | h | h
  · exact reg (k := 0) (by omega) rfl (by decide)
  · obtain h | h | h | h : a / 4 = 2 ∨ a / 4 = 3 ∨ a / 4 = 4 ∨ a / 4 = 5 := by omega
    · exact reg h rfl (by decide)
    · exact reg h rfl (by decide)
    · exact reg h rfl (by decide)
    · exact reg h rfl (by decide)
  · exact reg (k := 9) (by omega) rfl (by decide)
  · obtain h | h : a / 4 = 11 ∨ a / 4 = 12 := by omega
    · exact reg h rfl (by decide)
    · exact reg h rfl (by decide)
  · rcases Nat.lt_or_ge a 0x0500 with h5 | h5
    · exact buf (b := .sbox) ⟨h.1, h5⟩ rfl
    · exact buf (b := .isbox) ⟨h5, h.2⟩ rfl
  · exact buf (b := .dout) h rfl

/-- Settles O13: an address of a buffer is located in that buffer, which the host may write or not. -/
theorem hostBufferAccess : Obligations.HostBufferAccess := by
  intro s rest addr v aligned valid
  refine ⟨fun range host => ?_, fun range host => ?_, fun range host => ?_⟩
  · obtain ⟨b, hb⟩ := exists_holds range
    exact ⟨_, step_read host ((busLoc_aligned aligned).trans (locate_of_holds valid hb)), extractLsb'_four _ _ _ _⟩
  · have writable : ∃ b : Buf, b.holds s.params addr.toNat = true ∧ b.writable = true := by
      simp only [Buf.holds_iff]
      rcases range with h | h | h | h
      · exact ⟨.key, h, rfl⟩
      · exact ⟨.iv, h, rfl⟩
      · exact ⟨.tbl, h, rfl⟩
      · exact ⟨.din, h, rfl⟩
    obtain ⟨b, hb, hw⟩ := writable
    refine ⟨s.mem.write addr.toNat (bytesOfWord v), ?_, stores_write _ _ _⟩
    rw [step_write host ((busLoc_aligned aligned).trans (locate_of_holds valid hb)) (by simp), State.writeLoc,
      if_pos hw]
    rfl
  · obtain ⟨l, hl, cmd, unchanged⟩ := locate_readOnly valid aligned range
    rw [step_write host ((busLoc_aligned aligned).trans hl) cmd, unchanged]

/-! ### The read-back registers (10_state.md R25, R34, R35) -/

theorem getLsbD_bit (b : Bool) : (bit b).getLsbD 0 = b := by
  cases b <;> rfl

theorem status_fields (s : State) :
    s.status.getLsbD 0 = s.err ∧ s.status.getLsbD 1 = s.desv ∧ s.status.getLsbD 2 = s.dealv ∧
    s.status.getLsbD 3 = s.rjv ∧ s.status.getLsbD 4 = s.modev ∧ s.status.extractLsb' 5 3 = 0 ∧
    s.status.extractLsb' 8 8 = s.errCode ∧ s.status.extractLsb' 16 16 = 0 := by
  simp (disch := decide) only [State.status, BitVec.getLsbD_append, Nat.reduceLT, Nat.reduceSub, reduceIte, getLsbD_bit,
    BitVec.extractLsb'_append_eq_of_le, BitVec.extractLsb'_append_eq_of_add_le, BitVec.extractLsb'_eq_self, true_and]
  exact ⟨rfl, rfl⟩

theorem rjcfg_fields (h : s.rjv = true) (legal : RjLegal s.rjctx) :
    s.rjcfg.extractLsb' 0 8 = s.rjctx.md ∧ (s.rjcfg.extractLsb' 8 4).toNat = s.rjctx.nb ∧
    (s.rjcfg.extractLsb' 12 4).toNat = s.rjctx.nk ∧ (s.rjcfg.extractLsb' 16 8).toNat = s.rjctx.nr ∧
    s.rjcfg.extractLsb' 24 8 = 0 := by
  obtain ⟨nb, nk, nr, -, -, -⟩ := legal
  simp (disch := decide) only [State.rjcfg, h, if_true, BitVec.extractLsb'_append_eq_of_le, Nat.reduceSub,
    BitVec.extractLsb'_append_eq_of_add_le, BitVec.extractLsb'_eq_self, BitVec.toNat_ofNat, true_and]
  refine ⟨?_, ?_, ?_, rfl⟩ <;> omega

theorem mcfg_fields (h : s.modev = true) (bs : s.modectx.bs < 256) (civ : s.modectx.civ.length ≤ 64) :
    s.mcfg.extractLsb' 0 4 = s.modectx.mode.code ∧ s.mcfg.extractLsb' 4 4 = s.modectx.cipher.code ∧
    (s.mcfg.extractLsb' 8 8).toNat = s.modectx.bs ∧
    (s.mcfg.extractLsb' 16 7).toNat = s.modectx.civ.length ∧ s.mcfg.extractLsb' 23 9 = 0 := by
  simp (disch := decide) only [State.mcfg, h, if_true, BitVec.extractLsb'_append_eq_of_le, Nat.reduceSub,
    BitVec.extractLsb'_append_eq_of_add_le, BitVec.extractLsb'_eq_self, BitVec.toNat_ofNat, true_and]
  refine ⟨?_, ?_, rfl⟩ <;> omega

/-- Settles O11, field by field of the joined words. -/
theorem readbackLayout : Obligations.ReadbackLayout :=
  ⟨status_fields, fun _ h => if_neg (by simp [h]), fun _ h legal => rjcfg_fields h legal,
    fun _ h => if_neg (by simp [h]), fun _ h bs civ => mcfg_fields h bs civ⟩

/-! ### Reset (10_state.md R48) -/

/-- Settles O14: SRESET and the reset input write the fields of `State.reset`, whose values are the reset values. -/
theorem resetValues : Obligations.ResetValues := by
  have status : State.reset.status = 0 := rfl
  refine ⟨?_, fun s rest => ?_⟩
  · exact ⟨status, rfl, rfl, rfl, rfl, rfl, rfl, rfl, rfl, rfl, rfl, rfl, rfl, rfl, rfl, rfl, fun _ => rfl, rfl, rfl,
      rfl, rfl, rfl⟩
  · obtain ⟨-, sreset, reset, -⟩ := latchClearedOnlyByAcknowledge
    refine ⟨_, reset _ rest rfl, sreset _ rest rfl, ?_, rfl, rfl⟩
    exact ⟨status, rfl, rfl, rfl, rfl, rfl, rfl, rfl, rfl, rfl, rfl, rfl, rfl, rfl, rfl, rfl, fun _ => rfl, rfl, rfl,
      rfl, rfl, rfl⟩

end Sys2Proof.Machine
end

section
/-!
Coherence (10_state.md, 20_memory.md R72, 45_modes.md R282, R283): every update of the state that a command or the host
makes keeps it, so every step does. `exec_effect` says which updates there are.

An update of memory keeps coherence when it stays within a buffer and leaves SBOX and ISBOX alone
(`State.Coherent.store`); the one update of the two tables is RJKEY's, which also installs the context they belong to.
-/

namespace Sys2Proof.Machine

variable {s t : State} {i : Instr}

/-- The state of CORE at reset is coherent, whatever the model's own fields hold beside a BUF_BYTES in its range. -/
theorem coherent_of_reset {p : Params} (hp : p.Valid) (draws : Nat) (host : List HostTxn) (resp : Option BusResp) :
    State.Coherent { State.reset with params := p, draws := draws, host := host, resp := resp } where
  params := hp
  memWf := ⟨List.Pairwise.nil, by simp [State.reset]⟩
  memMapped := by simp [State.reset]
  latchClear _ := ⟨rfl, rfl, rfl⟩
  latchSet h := by cases h
  olenFits := Nat.zero_le _
  desKeys := rfl
  desInvalid _ := rfl
  dealValid h := by cases h
  dealInvalid _ := rfl
  rjValid h := by cases h
  rjInvalid _ := ⟨rfl, fun _ => ⟨rfl, rfl⟩⟩
  modeValid h := by cases h

/-- Settles O15: the default BUF_BYTES is in its range. -/
theorem resetCoherent : Obligations.ResetCoherent := coherent_of_reset (by decide) 0 [] none

/-! ### Updates of memory -/

/-- A write within a buffer lists addresses of buffers only. -/
theorem mapped_write {m : Memory} (hm : ∀ c ∈ m, ∃ b : Buf, b.holds s.params c.1 = true) {a : Nat} {B : Bytes}
    (b : Buf) (lo : b.base ≤ a) (hi : a + B.length ≤ b.base + b.size s.params) :
    ∀ c ∈ m.write a B, ∃ b : Buf, b.holds s.params c.1 = true := by
  intro c hc
  rcases Memory.mem_write hc with old | new
  · exact hm c old
  · exact ⟨b, Buf.holds_iff.mpr (by omega)⟩

/-- New memory that agrees with the old one on SBOX and ISBOX. -/
theorem State.Coherent.store (h : s.Coherent) {m : Memory} (wf : m.wf)
    (mapped : ∀ c ∈ m, ∃ b : Buf, b.holds s.params c.1 = true)
    (tables : ∀ a, sboxBase ≤ a → a < isboxBase + 256 → m.read a = s.mem.read a) :
    State.Coherent { s with mem := m } := by
  have sbox (v : Byte) : State.sbox { s with mem := m } v = s.sbox v :=
    tables _ (Nat.le_add_right _ _) (by have := v.isLt; simp only [sboxBase, isboxBase]; omega)
  have isbox (v : Byte) : State.isbox { s with mem := m } v = s.isbox v :=
    tables _ (by simp only [sboxBase, isboxBase]; omega) (by have := v.isLt; omega)
  exact { h with
    memWf := wf
    memMapped := mapped
    rjValid := fun hv => ⟨(h.rjValid hv).1, fun v => by rw [sbox, isbox]; exact (h.rjValid hv).2 v⟩
    rjInvalid := fun hv => ⟨(h.rjInvalid hv).1, fun v => by rw [sbox, isbox]; exact (h.rjInvalid hv).2 v⟩ }

/-- A write within a buffer other than SBOX and ISBOX. -/
theorem State.Coherent.store_write (h : s.Coherent) {a : Nat} {B : Bytes} (b : Buf) (lo : b.base ≤ a)
    (hi : a + B.length ≤ b.base + b.size s.params) (hs : b ≠ .sbox) (hi' : b ≠ .isbox) :
    State.Coherent { s with mem := s.mem.write a B } := by
  refine h.store (Memory.write_wf h.memWf _ _) (mapped_write h.memMapped b lo hi) fun x hx hx' => ?_
  refine Memory.read_write_outside ?_
  cases b <;>
    simp only [Buf.base, Buf.size, keyBase, ivBase, tblBase, sboxBase, isboxBase, dinBase, doutBase, Config.keyBytes,
      Config.ivBytes, Config.tblEntries, ne_eq, not_true_eq_false] at * <;> omega

theorem State.Coherent.bufBytes_le (h : s.Coherent) : s.params.bufBytes ≤ 16384 := h.params.2.2

theorem State.Coherent.emit (h : s.Coherent) {n : Nat} {O : Bytes} (length : O.length = n)
    (fits : n ≤ s.params.bufBytes) : (s.emit n O).Coherent := by
  have stored := h.store_write (a := doutBase) (B := O) .dout le_rfl (Nat.add_le_add_left (length ▸ fits) _)
    (by decide) (by decide)
  have small : n < 2 ^ 16 := by have := h.bufBytes_le; omega
  have olen : (BitVec.ofNat 16 n).toNat ≤ s.params.bufBytes := by
    rwa [BitVec.toNat_ofNat, Nat.mod_eq_of_lt small]
  exact { stored with olenFits := olen }

theorem State.Coherent.drew (h : s.Coherent) (k : Nat) : (s.drew k).Coherent := { h with }

theorem State.Coherent.copyOutToIn (h : s.Coherent) : s.copyOutToIn.Coherent := by
  have length : (s.mem.readRange doutBase s.olen.toNat).length = s.olen.toNat := Memory.readRange_length _ _ _
  have fits : dinBase + (s.mem.readRange doutBase s.olen.toNat).length ≤ dinBase + s.params.bufBytes := by
    rw [length]
    exact Nat.add_le_add_left h.olenFits _
  have stored := h.store_write .din le_rfl fits (by decide) (by decide)
  exact { stored with }

theorem State.Coherent.writeWord (h : s.Coherent) {b : Buf} (hb : b.writable = true) {a : Nat} (lo : b.base ≤ a)
    (hi : a + 4 ≤ b.base + b.size s.params) (v : Word) : (s.writeWord a v).Coherent :=
  h.store_write b lo hi (by rintro rfl; cases hb) (by rintro rfl; cases hb)

/-! ### The latch and the other registers -/

theorem State.Coherent.latchError (h : s.Coherent) {c : ErrCode} (hc : c ≠ .taskFail) (w info : Word) :
    (s.latchError w c info).Coherent :=
  { h with
    latchClear := fun he => by cases he
    latchSet := fun _ => ⟨c, hc, rfl⟩ }

theorem State.Coherent.clearLatch (h : s.Coherent) : s.clearLatch.Coherent :=
  { h with
    latchClear := fun _ => ⟨rfl, rfl, rfl⟩
    latchSet := fun he => by cases he }

theorem State.Coherent.setRes (h : s.Coherent) (v : Nat) : (s.setRes v).Coherent := { h with }

theorem State.Coherent.answer (h : s.Coherent) (r : BusResp) : (s.answer r).Coherent := { h with }

theorem State.Coherent.setHost (h : s.Coherent) (rest : List HostTxn) : State.Coherent { s with host := rest } :=
  { h with }

theorem State.Coherent.writeReg (h : s.Coherent) (v : Word) (r : Reg) : (s.writeReg v r).Coherent := by
  cases r <;> exact { h with }

/-! ### Contexts -/

/-- After a construction command the mode is valid only if it is bound to another cipher (R44). -/
theorem modevAfterKey_iff {c : Cipher} : s.modevAfterKey c = true ↔ s.modev = true ∧ s.modectx.cipher ≠ c := by
  simp [State.modevAfterKey]

/-- A valid mode stays valid in a state that still has its cipher's context. -/
theorem State.Coherent.mode_of_eq (h : s.Coherent) (hm : s.modev = true) (ctx : t.modectx = s.modectx)
    (valid : t.cipherValid s.modectx.cipher = s.cipherValid s.modectx.cipher)
    (size : t.blockSize s.modectx.cipher = s.blockSize s.modectx.cipher) :
    t.cipherValid t.modectx.cipher = true ∧ t.modectx.bs = t.blockSize t.modectx.cipher ∧
    (t.modectx.mode = .ecb → t.modectx.civ = []) ∧
    (t.modectx.mode ≠ .ecb → t.modectx.civ ≠ [] ∧
      ivLenBad t.modectx.mode t.modectx.civ.length t.modectx.bs = false) := by
  rw [ctx, valid, size]
  exact h.modeValid hm

/-- A construction of cipher `c` keeps a valid mode valid: the mode is bound to a cipher it does not touch. -/
theorem State.Coherent.mode_after_key (h : s.Coherent) {c : Cipher} (hm : s.modevAfterKey c = true)
    (ctx : t.modectx = s.modectx)
    (others : ∀ d ≠ c, t.cipherValid d = s.cipherValid d ∧ t.blockSize d = s.blockSize d) :
    t.cipherValid t.modectx.cipher = true ∧ t.modectx.bs = t.blockSize t.modectx.cipher ∧
    (t.modectx.mode = .ecb → t.modectx.civ = []) ∧
    (t.modectx.mode ≠ .ecb → t.modectx.civ ≠ [] ∧
      ivLenBad t.modectx.mode t.modectx.civ.length t.modectx.bs = false) := by
  obtain ⟨valid, bound⟩ := modevAfterKey_iff.mp hm
  exact h.mode_of_eq valid ctx (others _ bound).1 (others _ bound).2

theorem State.Coherent.installDes (h : s.Coherent) {ctx : DesCtx} (keys : ctx.keys.length = 16) :
    (s.installDes ctx).Coherent :=
  { h with
    desKeys := keys
    desInvalid := fun hv => by cases hv
    modeValid := fun hm => h.mode_after_key (c := .des) hm rfl fun d hd => by
      cases d with
      | des => exact absurd rfl hd
      | deal | rj => exact ⟨rfl, rfl⟩ }

theorem State.Coherent.installDeal (h : s.Coherent) {ctx : DealCtx} (rounds : ctx.n = 6 ∨ ctx.n = 8)
    (keys : ctx.rk.length = ctx.n) : (s.installDeal ctx).Coherent :=
  { h with
    dealValid := fun _ => ⟨rounds, keys⟩
    dealInvalid := fun hv => by cases hv
    modeValid := fun hm => h.mode_after_key (c := .deal) hm rfl fun d hd => by
      cases d with
      | deal => exact absurd rfl hd
      | des | rj => exact ⟨rfl, rfl⟩ }

/-- The memory a successful RJKEY leaves: the two tables, and every other byte as before. -/
theorem read_installRj {ctx : RjCtx} {sb isb : Bytes} (hsb : sb.length = 256) (hisb : isb.length = 256) (a : Nat) :
    (s.installRj ctx sb isb).mem.read a =
      if 0x0500 ≤ a ∧ a < 0x0600 then isb.getD (a - 0x0500) 0
      else if 0x0400 ≤ a ∧ a < 0x0500 then sb.getD (a - 0x0400) 0 else s.mem.read a := by
  simp only [State.installRj_mem, Memory.read_write, hsb, hisb, sboxBase, isboxBase, unlistedByte]
  rfl

theorem getD_sboxTable (md v : Byte) : (sboxTable md).getD v.toNat 0 = sboxEntry md v := by
  simp [sboxTable, v.isLt]

theorem getD_isboxTable (md v : Byte) : (isboxTable md).getD v.toNat 0 = isboxEntry md v := by
  simp [isboxTable, v.isLt]

/-- SBOX and ISBOX after a successful RJKEY. -/
theorem tables_installRj (s : State) (ctx : RjCtx) (md v : Byte) :
    (s.installRj ctx (sboxTable md) (isboxTable md)).sbox v = sboxEntry md v ∧
      (s.installRj ctx (sboxTable md) (isboxTable md)).isbox v = isboxEntry md v := by
  have hv := v.isLt
  simp only [State.sbox, State.isbox, read_installRj (sboxTable_length md) (isboxTable_length md), sboxBase, isboxBase,
    ← getD_sboxTable, ← getD_isboxTable]
  constructor
  · rw [if_neg (by omega), if_pos (by omega), Nat.add_sub_cancel_left]
  · rw [if_pos (by omega), Nat.add_sub_cancel_left]

/-- The configuration RJKEY builds from permitted sizes is legal (44_rijndael.md R230, R231, R237, R243). -/
theorem rjContext_legal {key : Bytes} {bsz : Nat} {md : Byte} (hb : bsz = 16 ∨ bsz = 24 ∨ bsz = 32)
    (hk : key.length = 16 ∨ key.length = 24 ∨ key.length = 32) (hm : md ≠ 0) (hr : gfIrr md = true) :
    RjLegal (rjContext key bsz md) where
  nb := by simp only [rjContext]; omega
  nk := by simp only [rjContext]; omega
  nr := rfl
  modulus := ⟨hm, hr⟩
  offsets := ⟨rfl, rfl, rfl⟩
  columns := by
    refine rjExpand_length _ _ ?_
    rcases hb with rfl | rfl | rfl <;> rcases hk with hk | hk | hk <;> simp [hk]

theorem rjSizeOk_iff {n : Nat} : rjSizeOk n = true ↔ n = 16 ∨ n = 24 ∨ n = 32 := by
  simp [rjSizeOk, or_assoc]

theorem keyLen3_iff {n : Nat} : keyLen3 n = true ↔ n = 16 ∨ n = 24 ∨ n = 32 := rjSizeOk_iff

@[simp] theorem keyBytes_length (s : State) : s.keyBytes.length = s.klen.toNat := Memory.readRange_length _ _ _

@[simp] theorem ivBytes_length (s : State) : s.ivBytes.length = s.ivlen.toNat := Memory.readRange_length _ _ _

@[simp] theorem din_length (s : State) : s.din.length = s.dlen.toNat := Memory.readRange_length _ _ _

theorem State.Coherent.installRj (h : s.Coherent) {ctx : RjCtx} {md : Byte} (legal : RjLegal ctx) (hmd : ctx.md = md) :
    (s.installRj ctx (sboxTable md) (isboxTable md)).Coherent :=
  { h with
    memWf := Memory.write_wf (Memory.write_wf h.memWf _ _) _ _
    memMapped := mapped_write (mapped_write h.memMapped .sbox le_rfl (by rw [sboxTable_length]; exact le_rfl)) .isbox
      le_rfl (by rw [isboxTable_length]; exact le_rfl)
    rjValid := fun _ => ⟨legal, fun v => by rw [State.installRj_rjctx, hmd]; exact tables_installRj s ctx md v⟩
    rjInvalid := fun hv => by cases hv
    modeValid := fun hm => h.mode_after_key (c := .rj) hm rfl fun d hd => by
      cases d with
      | rj => exact absurd rfl hd
      | des | deal => exact ⟨rfl, rfl⟩ }

theorem State.Coherent.installMode (h : s.Coherent) {md : Mode} {c : Cipher} {civ : Bytes}
    (valid : s.cipherValid c = true)
    (iv : md = .ecb ∧ civ = [] ∨ md ≠ .ecb ∧ civ ≠ [] ∧ ivLenBad md civ.length (s.blockSize c) = false) :
    (s.installMode { mode := md, cipher := c, bs := s.blockSize c, civ := civ }).Coherent := by
  have same : (s.installMode { mode := md, cipher := c, bs := s.blockSize c, civ := civ }).cipherValid c = true := by
    cases c <;> exact valid
  have size : (s.installMode { mode := md, cipher := c, bs := s.blockSize c, civ := civ }).blockSize c =
      s.blockSize c := by cases c <;> rfl
  refine { h with modeValid := fun _ => ⟨same, size.symm, ?_, ?_⟩ }
  · exact fun he => (iv.resolve_right fun hn => hn.1 he).2
  · exact fun hn => (iv.resolve_left fun he => hn he.1).2

/-! ### Commands, transactions, steps -/

theorem taskFail_notMem_errorsOf (i : Instr) : ErrCode.taskFail ∉ errorsOf i := by
  unfold errorsOf
  split
  any_goals decide
  · split <;> decide
  · split
    · split <;> decide
    · decide

theorem Effect.coherent (h : Effect i s t) (hs : s.Coherent) : t.Coherent := by
  cases h with
  | ignored | nothing => exact hs
  | acknowledge => exact hs.clearLatch
  | restart => exact coherent_of_reset hs.params _ _ _
  | copy => exact hs.copyOutToIn
  | raised _ c info hc => exact hs.latchError (by rintro rfl; exact taskFail_notMem_errorsOf i hc) _ _
  | scalar _ _ v => exact hs.setRes v
  | data _ _ n O d _ hn =>
    obtain ⟨length, fits⟩ := hn hs
    exact (hs.emit length fits).drew d
  | keyDes => exact hs.installDes (desKs_length _)
  | keyDeal _ _ hk =>
    refine hs.installDeal ?_ ?_
    · simp only [dealRounds]
      split <;> simp
    · rw [dealKs_length, keyBytes_length]
  | keyRj _ bsz md _ hb hk hm hr =>
    have key := keyBytes_length s ▸ rjSizeOk_iff.mp hk
    exact hs.installRj (rjContext_legal (rjSizeOk_iff.mp hb) key hm hr) rfl
  | mode _ md c _ hv civ hc =>
    refine hs.installMode hv (hc.imp_right ?_)
    rintro ⟨hne, rfl, hlen, hbad⟩
    refine ⟨hne, ?_, by rwa [ivBytes_length]⟩
    rw [← List.length_pos_iff, ivBytes_length]
    omega

theorem issue_coherent {w : Word} (h : issue w s = .next t) (hs : s.Coherent) : t.Coherent := by
  rcases issue_next.mp h with ⟨-, -, rfl⟩ | ⟨-, ⟨i, -, hi⟩ | ⟨e, -, rfl⟩⟩
  · exact hs
  · exact (exec_effect hi).coherent hs
  · exact hs.latchError (by decide) _ _

theorem holds_of_locate {p : Params} {a : Nat} {b : Buf} (h : locate p a = some (.buf b)) : b.holds p a = true := by
  rw [locate] at h
  split at h
  case h_1 => cases h
  case h_2 =>
    obtain ⟨c, hc, hb⟩ := Option.map_eq_some_iff.mp h
    cases hb
    exact List.find?_some (p := fun b => Buf.holds p b a) hc

/-- A word at an aligned address of a buffer lies in it whole. -/
theorem word_inside {p : Params} (hp : p.Valid) {a : Nat} {b : Buf} (aligned : a % 4 = 0) (h : b.holds p a = true) :
    b.base ≤ a ∧ a + 4 ≤ b.base + b.size p := by
  obtain ⟨mult, -, -⟩ := hp
  obtain ⟨lo, hi⟩ := Buf.holds_iff.mp h
  refine ⟨lo, ?_⟩
  cases b <;> simp only [Buf.base, Buf.size, keyBase, ivBase, tblBase, sboxBase, isboxBase, dinBase, doutBase,
    Config.keyBytes, Config.ivBytes, Config.tblEntries] at * <;> omega

theorem State.Coherent.writeLoc (h : s.Coherent) {addr : BitVec 16} {n : Nat} {l : Loc}
    (hl : busLoc s.params addr n = some l) (v : Word) : (s.writeLoc addr.toNat v l).Coherent := by
  cases l with
  | reg r => exact h.writeReg v r
  | buf b =>
    rw [busLoc] at hl
    split at hl
    case isFalse => cases hl
    case isTrue aligned =>
      obtain ⟨lo, hi⟩ := word_inside h.params aligned.2 (holds_of_locate hl)
      rw [State.writeLoc]
      split
      case isTrue hb => exact h.writeWord hb lo hi v
      case isFalse => exact h

theorem serve_coherent {x : HostTxn} (h : serve x s = .next t) (hs : s.Coherent) : t.Coherent := by
  cases x with
  | reset =>
    cases h
    exact coherent_of_reset hs.params _ _ _
  | read addr n =>
    cases hl : busLoc s.params addr n <;> simp only [serve, hl, next_eq] at h <;> rw [h] <;> exact hs.answer _
  | write addr n v =>
    cases hl : busLoc s.params addr n with
    | none =>
      simp only [serve, hl, next_eq] at h
      rw [h]
      exact hs.answer _
    | some l =>
      by_cases cmd : l = .reg .cmd
      · have run : issue v (s.answer .written) = .next t := by simpa [serve, hl, cmd] using h
        exact issue_coherent run (hs.answer _)
      · simp only [serve, hl, next_eq] at h
        rw [h]
        exact (hs.writeLoc hl v).answer _

/-- Settles O16: the oldest transaction leaves a coherent state, by the update it makes or by the command it runs. -/
theorem stepKeepsCoherent : Obligations.StepKeepsCoherent := by
  intro s t hs h
  rcases step_next.mp h with ⟨-, rfl⟩ | ⟨x, rest, -, served⟩
  · exact hs
  · exact serve_coherent served (hs.setHost rest)

end Sys2Proof.Machine
end

section
/-!
Rules over all commands (60_exceptions.md R361 to R366, 47_system.md R350 to R354): which errors a command raises and
what each command may write. Every rule is read off the effects of `exec_effect`.
-/

namespace Sys2Proof.Machine

variable {s t : State} {i : Instr}

/-! ### Errors -/

/-- A command that sets the latch has raised one of its errors, and done nothing else. -/
theorem exec_raises (h : exec i s = .next t) (hs : s.err = false) (ht : t.err = true) :
    ∃ c ∈ errorsOf i, ∃ info, t = s.latchError (encode i) c info := by
  cases exec_effect h with
  | raised _ c info hc => exact ⟨c, hc, info, rfl⟩
  | ignored he => exact absurd he (by simp [hs])
  | acknowledge | restart => cases ht
  | nothing | copy | scalar | data | keyDes | keyDeal | keyRj | mode => exact absurd ht (by simp [hs])

/-- Settles O17: raising an error is an update of the latch only. -/
theorem errorsArePrecise : Obligations.ErrorsArePrecise := by
  intro i s t hs h ht
  obtain ⟨c, hc, info, rfl⟩ := exec_raises h hs ht
  exact ⟨rfl, c, by rintro rfl; exact taskFail_notMem_errorsOf i hc, rfl⟩

theorem errorsOf_ofPadadd {bs : Byte} (h : blockSizeOk bs = true) (sc : Scheme) :
    errorsOf (.ofPadadd bs sc) = [.lenLimit] := by
  cases sc <;> exact if_pos h

theorem errorsOf_ofPadrem {bs : Byte} (h : blockSizeOk bs = true) (sc : Scheme) :
    errorsOf (.ofPadrem bs sc) = if sc = .zeros then [.lenLimit] else [.lenLimit, .padBadcount] := by
  cases sc <;> exact if_pos h

theorem byte_mem_codes {L : List ErrCode} {c : ErrCode} (hL : errorsOf i = L) (hc : c ∈ errorsOf i) :
    c.byte ∈ L.map ErrCode.byte := hL ▸ List.mem_map_of_mem hc

/-- Settles O18: the code of a cause of the command, list by list. -/
theorem errorsOfEachCommand : Obligations.ErrorsOfEachCommand := by
  intro i s t wf hs h ht
  obtain ⟨c, hc, info, rfl⟩ := exec_raises h hs ht
  rw [State.latchError_errCode]
  cases i with
  | padaddPkcs7 bs => exact byte_mem_codes (errorsOf_ofPadadd wf .pkcs7) hc
  | padaddAnsi bs => exact byte_mem_codes (errorsOf_ofPadadd wf .ansi) hc
  | padaddIso bs => exact byte_mem_codes (errorsOf_ofPadadd wf .iso) hc
  | padaddZeros bs => exact byte_mem_codes (errorsOf_ofPadadd wf .zeros) hc
  | padremPkcs7 bs => exact byte_mem_codes (errorsOf_ofPadrem wf .pkcs7) hc
  | padremAnsi bs => exact byte_mem_codes (errorsOf_ofPadrem wf .ansi) hc
  | padremIso bs => exact byte_mem_codes (errorsOf_ofPadrem wf .iso) hc
  | padremZeros bs => exact byte_mem_codes (errorsOf_ofPadrem wf .zeros) hc
  | _ => exact byte_mem_codes rfl hc

/-! ### What a command may write (R354) -/

section Footprints

variable (h : Effect i s t) (hs : i ≠ .sreset)
include h hs

theorem Effect.keeps_staged : t.klen = s.klen ∧ t.ivlen = s.ivlen ∧ t.tlen = s.tlen := by
  cases h with
  | restart hi => exact absurd hi hs
  | _ => exact ⟨rfl, rfl, rfl⟩

theorem Effect.keeps_res (hi : i.op ∉ scalarOps) : t.res = s.res := by
  cases h with
  | restart hi => exact absurd hi hs
  | scalar _ hop => exact absurd hop hi
  | _ => rfl

theorem Effect.keeps_dlen (hi : i ≠ .otoi) : t.dlen = s.dlen := by
  cases h with
  | restart hi => exact absurd hi hs
  | copy _ hc => exact absurd hc hi
  | _ => rfl

theorem Effect.keeps_olen (hi : i.op ∉ dataOps) : t.olen = s.olen := by
  cases h with
  | restart hi => exact absurd hi hs
  | data _ hop => exact absurd hop hi
  | _ => rfl

theorem Effect.keeps_des (hi : i ≠ .deskey) : t.desctx = s.desctx ∧ t.desv = s.desv := by
  cases h with
  | restart hi => exact absurd hi hs
  | keyDes _ hk => exact absurd hk hi
  | _ => exact ⟨rfl, rfl⟩

theorem Effect.keeps_deal (hi : i ≠ .dealkey) : t.dealctx = s.dealctx ∧ t.dealv = s.dealv := by
  cases h with
  | restart hi => exact absurd hi hs
  | keyDeal _ hk => exact absurd hk hi
  | _ => exact ⟨rfl, rfl⟩

theorem Effect.keeps_rj (hi : i.op ≠ .rjkey) : t.rjctx = s.rjctx ∧ t.rjv = s.rjv := by
  cases h with
  | restart hi => exact absurd hi hs
  | keyRj _ _ _ hk => exact absurd (hk ▸ rfl) hi
  | _ => exact ⟨rfl, rfl⟩

theorem Effect.keeps_modectx (hi : i.op ≠ .minit) : t.modectx = s.modectx := by
  cases h with
  | restart hi => exact absurd hi hs
  | mode _ md c hk => exact absurd (by rw [hk]; cases md <;> rfl) hi
  | _ => rfl

theorem Effect.keeps_modev (hi : i.op ∉ [Op.minit, .deskey, .dealkey, .rjkey]) : t.modev = s.modev := by
  cases h with
  | restart hi => exact absurd hi hs
  | mode _ md c hk => exact absurd (by rw [hk]; cases md <;> simp [Instr.ofMinit, Instr.op]) hi
  | keyDes _ hk | keyDeal _ hk | keyRj _ _ _ hk => exact absurd (by rw [hk]; simp [Instr.op]) hi
  | _ => rfl

theorem Effect.keeps_draws (hi : ∀ bs, i ≠ .padaddIso bs) : t.draws = s.draws := by
  cases h with
  | restart hi => exact absurd hi hs
  | data _ _ n O d hd =>
    rcases hd with rfl | ⟨bs, hd⟩
    · rfl
    · exact absurd hd (hi bs)
  | _ => rfl

theorem Effect.keeps_latch (ht : t.err = false) (hi : i ≠ .clrerr) :
    t.errCode = s.errCode ∧ t.errInfo = s.errInfo ∧ t.errCmd = s.errCmd := by
  cases h with
  | restart hi => exact absurd hi hs
  | acknowledge hc => exact absurd hc hi
  | raised => cases ht
  | _ => exact ⟨rfl, rfl, rfl⟩

/-- Memory below SBOX holds what the host staged. -/
theorem Effect.keeps_staged_bytes {a : Nat} (ha : a < 0x0400) : t.mem.read a = s.mem.read a := by
  cases h with
  | restart hi => exact absurd hi hs
  | copy => exact Memory.read_write_outside (.inl (by simp only [dinBase]; omega))
  | data => exact Memory.read_write_outside (.inl (by simp only [doutBase]; omega))
  | keyRj => rw [read_installRj (sboxTable_length _) (isboxTable_length _), if_neg (by omega), if_neg (by omega)]
  | _ => rfl

theorem Effect.keeps_tables (hi : i.op ≠ .rjkey) {a : Nat} (ha : a < 0x0600) : t.mem.read a = s.mem.read a := by
  cases h with
  | restart hi => exact absurd hi hs
  | copy => exact Memory.read_write_outside (.inl (by simp only [dinBase]; omega))
  | data => exact Memory.read_write_outside (.inl (by simp only [doutBase]; omega))
  | keyRj _ _ _ hk => exact absurd (hk ▸ rfl) hi
  | _ => rfl

theorem Effect.keeps_din (hi : i ≠ .otoi) {a : Nat} (lo : 0x4000 ≤ a) (ha : a < 0x8000) :
    t.mem.read a = s.mem.read a := by
  cases h with
  | restart hi => exact absurd hi hs
  | copy _ hc => exact absurd hc hi
  | data => exact Memory.read_write_outside (.inl (by simp only [doutBase]; omega))
  | keyRj => rw [read_installRj (sboxTable_length _) (isboxTable_length _), if_neg (by omega), if_neg (by omega)]
  | _ => rfl

theorem Effect.keeps_dout (fits : s.olen.toNat ≤ 16384) (hi : i.op ∉ dataOps) {a : Nat} (lo : 0x8000 ≤ a) :
    t.mem.read a = s.mem.read a := by
  cases h with
  | restart hi => exact absurd hi hs
  | copy =>
    refine Memory.read_write_outside (.inr ?_)
    rw [Memory.readRange_length, dinBase]
    omega
  | data _ hop => exact absurd hop hi
  | keyRj => rw [read_installRj (sboxTable_length _) (isboxTable_length _), if_neg (by omega), if_neg (by omega)]
  | _ => rfl

end Footprints

/-- Settles O19, footprint by footprint. -/
theorem commandFootprints : Obligations.CommandFootprints := by
  intro i s t valid fits hs run
  have h := exec_effect run
  obtain ⟨host, resp, params⟩ := exec_keeps_port run
  obtain ⟨klen, ivlen, tlen⟩ := h.keeps_staged hs
  have olen : s.olen.toNat ≤ 16384 := fits.trans valid.2.2
  refine ⟨klen, ivlen, tlen, params, host, resp, fun a ha => h.keeps_staged_bytes hs ha, h.keeps_res hs, ?_, ?_,
    h.keeps_des hs, h.keeps_deal hs, ?_, h.keeps_modectx hs, h.keeps_modev hs, h.keeps_draws hs, h.keeps_latch hs⟩
  · exact fun hi => ⟨h.keeps_dlen hs hi, fun a lo ha => h.keeps_din hs hi lo ha⟩
  · exact fun hi => ⟨h.keeps_olen hs hi, fun a lo => h.keeps_dout hs olen hi lo⟩
  · intro hi
    obtain ⟨ctx, flag⟩ := h.keeps_rj hs hi
    exact ⟨ctx, flag, fun a _ ha => h.keeps_tables hs hi ha⟩

/-! ### Re-keying (10_state.md R44, 70_reset_and_hazards.md R411) -/

/-- A construction command that raises nothing leaves MODECTX, and MODEV unless the mode is bound to its cipher. -/
theorem exec_rekey {c : Cipher} (hs : s.err = false)
    (hi : i = .deskey ∧ c = .des ∨ i = .dealkey ∧ c = .deal ∨ (∃ bsz md, i = .rjkey bsz md) ∧ c = .rj)
    (h : exec i s = .next t) (ht : t.err = false) : t.modectx = s.modectx ∧ t.modev = s.modevAfterKey c := by
  have clear : ¬ s.err = true := by simp [hs]
  rcases hi with ⟨rfl, rfl⟩ | ⟨rfl, rfl⟩ | ⟨⟨bsz, md, rfl⟩, rfl⟩
  · rcases execDeskey_next.mp h with ⟨he, -⟩ | ⟨-, ⟨-, rfl⟩ | ⟨-, rfl⟩⟩
    · exact absurd he clear
    · cases ht
    · exact ⟨rfl, rfl⟩
  · rcases execDealkey_next.mp h with ⟨he, -⟩ | ⟨-, ⟨-, rfl⟩ | ⟨-, rfl⟩⟩
    · exact absurd he clear
    · cases ht
    · exact ⟨rfl, rfl⟩
  · rcases execRjkey_next.mp h with
      ⟨he, -⟩ | ⟨-, ⟨-, rfl⟩ | ⟨-, -, rfl⟩ | ⟨-, -, -, rfl⟩ | ⟨-, -, -, -, rfl⟩ | ⟨-, -, -, -, rfl⟩⟩
    · exact absurd he clear
    · cases ht
    · cases ht
    · cases ht
    · cases ht
    · exact ⟨rfl, rfl⟩

/-- Without a valid mode MENC and MDEC raise NOT_READY. -/
theorem modeData_not_ready (hs : s.err = false) (hm : s.modev = false) (w : Word) (f : List Bytes → List Bytes) :
    modeData w f s = .next (s.latchError w .notReady 0) :=
  modeData_next.mpr (.inr ⟨hs, .inl ⟨hm, rfl⟩⟩)

/-- Settles O20: the mode survives a re-keying exactly when it is bound to another cipher. -/
theorem rekeyInvalidatesMode : Obligations.RekeyInvalidatesMode := by
  intro s t i c hs hm hi run ht
  obtain ⟨ctx, modev⟩ := exec_rekey hs hi run ht
  refine ⟨ctx, fun bound => ?_, fun other => ?_⟩
  · have ended : t.modev = false := by
      rw [modev, State.modevAfterKey, bound, beq_self_eq_true, Bool.not_true, Bool.and_false]
    exact ⟨modeData_not_ready ht ended _ _, modeData_not_ready ht ended _ _⟩
  · rw [modev]
    exact modevAfterKey_iff.mpr ⟨hm, other⟩

/-- Settles O21, by the updates the four commands name. -/
theorem systemCommandResults : Obligations.SystemCommandResults := by
  refine ⟨fun s => ?_, fun _ => rfl, fun _ => rfl, fun s hs => ⟨_, exec_otoi hs, rfl, stores_write _ _ _⟩⟩
  exact gated_next.mpr ((Bool.eq_false_or_eq_true s.err).imp (fun he => ⟨he, rfl⟩) (fun he => ⟨he, rfl⟩))

end Sys2Proof.Machine
end

section
/-!
The commands of the GF(2^8) unit (40_gf.md section 2) and the laws of its functions (section 3). A result is as wide as
RES shows it: a quotient has no higher degree than the dividend, a remainder a lower one than the divisor.
-/

namespace Sys2Proof.Machine

variable {s : State}

/-- Settles O24: `gf_mul` is the product of the residues, and `gf_pow` their power. -/
theorem gfLaws : Obligations.GfLaws := fun x y z m _ =>
  ⟨gfMul_comm x y m, (gfMul_assoc x y z m).symm, gfMul_xor x y z m, gfMul_one_right x m,
    (gfMul_comm x 0 m).trans (gfMul_zero_left x m), rfl, fun e => gfPow_succ x m e⟩

/-! ### The width of a quotient and of a remainder -/

theorem pdiv_lt_two_pow {p q n : Nat} (hq : q ≠ 0) (hp : p < 2 ^ n) (hqn : q < 2 ^ n) : pdiv p q < 2 ^ n := by
  by_cases h : pdiv p q = 0
  · rw [h]
    exact Nat.two_pow_pos n
  have rem : prem p q < 2 ^ n := (prem_lt hq p).trans_le ((Nat.log2_self_le hq).trans hqn.le)
  have product : pmul (pdiv p q) q < 2 ^ n := by
    have split : pmul (pdiv p q) q = p ^^^ prem p q := by
      have divided := congrArg (· ^^^ prem p q) (eq_pmul_pdiv_xor_prem p q)
      simpa only [Nat.xor_assoc, Nat.xor_self, Nat.xor_zero] using divided.symm
    rw [split]
    exact Nat.xor_lt_two_pow hp rem
  have nonzero : pmul (pdiv p q) q ≠ 0 := fun h0 => h (eq_zero_of_pmul_lt hq (h0 ▸ Nat.two_pow_pos _))
  have degree := (Nat.log2_lt nonzero).mpr product
  rw [log2_pmul h hq] at degree
  exact (Nat.log2_lt h).mp (by omega)

theorem prem_toNat_lt {y : Byte} (hy : y ≠ 0) (p : Nat) : prem p y.toNat < 2 ^ 7 := by
  have hy0 : y.toNat ≠ 0 := fun h => hy (BitVec.eq_of_toNat_eq h)
  have degree : y.toNat.log2 < 8 := (Nat.log2_lt hy0).mpr y.isLt
  exact (prem_lt hy0 p).trans_le (Nat.pow_le_pow_right two_pos (by omega))

/-! ### The commands (R120 to R127) -/

theorem setRes_toNat {n : Nat} (s : State) (v : BitVec n) : s.setRes v.toNat = { s with res := v.setWidth 32 } := by
  rw [State.setRes, BitVec.ofNat_toNat]

theorem gfCommand_result (hs : s.err = false) {m : Byte} (hm : m ≠ 0) (w : Word) (r : Nat) :
    gfCommand s w m r = .next (s.setRes r) := gfCommand_next.mpr (.inr ⟨hs, .inr ⟨hm, rfl⟩⟩)

theorem gfCommand_zero (hs : s.err = false) (w : Word) (r : Nat) :
    gfCommand s w 0 r = .next (s.latchError w .arithZeroMod 0) := gfCommand_next.mpr (.inr ⟨hs, .inl ⟨rfl, rfl⟩⟩)

theorem divCommand_result (hs : s.err = false) {y : Byte} (hy : y ≠ 0) (w : Word) (r : Nat) :
    divCommand s w y r = .next (s.setRes r) := divCommand_next.mpr (.inr ⟨hs, .inr ⟨hy, rfl⟩⟩)

theorem divCommand_zero (hs : s.err = false) (w : Word) (r : Nat) :
    divCommand s w 0 r = .next (s.latchError w .arithDivZero 0) := divCommand_next.mpr (.inr ⟨hs, .inl ⟨rfl, rfl⟩⟩)

/-- Settles O27: the gate is open, and the operand that would raise is not 0. -/
theorem gfCommandResults : Obligations.GfCommandResults := by
  intro s hs
  refine ⟨fun a b => ?_, fun a b m hm => ⟨?_, ?_, ?_, ?_⟩, fun x y hy => ?_⟩
  · rw [← setRes_toNat]
    exact gated_open hs
  · rw [← setRes_toNat]
    exact gfCommand_result hs hm _ _
  · rw [← setRes_toNat]
    exact gfCommand_result hs hm _ _
  · rw [← setRes_toNat]
    exact gfCommand_result hs hm _ _
  · have run := gfCommand_result hs hm (encode (.gfirr m)) (if gfIrr m then 1 else 0)
    have value : BitVec.ofNat 32 (if gfIrr m then 1 else 0) = if gfIrr m then 1 else 0 := by split <;> rfl
    rwa [State.setRes, value] at run
  · have hy0 : y.toNat ≠ 0 := fun h => hy (BitVec.eq_of_toNat_eq h)
    exact ⟨pdiv_lt_two_pow hy0 x.isLt (y.isLt.trans (by decide)), prem_toNat_lt hy _, divCommand_result hs hy _ _,
      divCommand_result hs hy _ _⟩

/-- Settles O28: the operand 0 is the first thing a command behind the open gate looks at. -/
theorem gfCommandErrors : Obligations.GfCommandErrors := by
  intro s hs
  refine ⟨?_, ?_⟩
  · rintro i (⟨a, b, rfl⟩ | ⟨a, b, rfl⟩ | ⟨a, rfl⟩ | rfl) <;> exact gfCommand_zero hs _ _
  · rintro i (⟨x, rfl⟩ | ⟨x, rfl⟩) <;> exact divCommand_zero hs _ _

end Sys2Proof.Machine
end

section
/-!
Byte sequences as integers (00_scope.md R12) and the command PERM (41_perm.md).

The bits of `toBe n v` are those of `v`, the most significant first (`getD_bitsOf_toBe`), so packed bits stand at the end of
their bytes after zeroes (`getD_bitsOf_packBits`), and a table applied to an integer reads the bits that `rearrange` reads
of its bytes. A table entry is in range when its adjusted index, which the statements write as a difference of integers
(`adjustedIndex_eq`), is a usable bit (`usableBits_cast`).
-/

namespace Sys2Proof.Machine

variable {s : State}

/-! ### Bytes and integers -/

theorem beNat_toBe_mod (n v : Nat) : beNat (toBe n v) = v % 256 ^ n := by
  induction n generalizing v with
  | zero => simp [toBe, beNat, Nat.mod_one]
  | succ n ih =>
    have split : v % (256 * 256 ^ n) = v % 256 + 256 * (v / 256 % 256 ^ n) := Nat.mod_mul
    rw [toBe, beNat_concat, ih, BitVec.toNat_ofNat, show 256 ^ (n + 1) = 256 * 256 ^ n from Nat.pow_succ', split]
    omega

theorem beNat_cons (b : Byte) (B : Bytes) : beNat (b :: B) = b.toNat * 256 ^ B.length + beNat B := by
  induction B using List.reverseRecOn with
  | nil => simp [beNat]
  | append_singleton B c ih =>
    rw [← List.cons_append, beNat_concat, ih, beNat_concat, List.length_append, List.length_singleton, Nat.pow_succ]
    ring

/-- Settles O33, by induction on the bytes from the least significant one. -/
theorem byteOrder : Obligations.ByteOrder :=
  ⟨fun n v => ⟨toBe_length n v, beNat_toBe_mod n v⟩, fun B => ⟨beNat_lt B, toBe_beNat B, fun b => beNat_cons b B⟩⟩

/-! ### Bits of bytes and of integers -/

theorem getD_bitsOfByte_ofNat {k : Nat} (hk : k < 8) (v : Nat) (d : Bool) :
    (bitsOfByte (BitVec.ofNat 8 v)).getD k d = v.testBit (7 - k) := by
  have low : 7 - k < 8 := by omega
  rw [List.getD_eq_getElem _ _ (by rwa [bitsOfByte_length])]
  simp [bitsOfByte, BitVec.getMsbD_eq_getLsbD, BitVec.getLsbD_ofNat, hk, low, -BitVec.getLsbD_eq_getElem]

theorem getD_bitsOf_toBe {n j : Nat} (hj : j < 8 * n) (v : Nat) (d : Bool) :
    (bitsOf (toBe n v)).getD j d = v.testBit (8 * n - 1 - j) := by
  induction n generalizing v with
  | zero => omega
  | succ n ih =>
    have length : (bitsOf (toBe n (v / 256))).length = 8 * n := by rw [bitsOf_length, toBe_length]
    rw [toBe, bitsOf_append, bitsOf_singleton]
    rcases Nat.lt_or_ge j (8 * n) with left | right
    · have shifted : 8 * (n + 1) - 1 - j = 8 * n - 1 - j + 8 := by omega
      rw [List.getD_append _ _ _ _ (by rwa [length]), ih left, shifted, show (256 : Nat) = 2 ^ 8 from rfl,
        Nat.testBit_div_two_pow]
    · rw [List.getD_append_right _ _ _ _ (by rwa [length]), length, getD_bitsOfByte_ofNat (by omega)]
      congr 1
      omega

theorem getD_bitsOf {B : Bytes} {j : Nat} (hj : j < 8 * B.length) (d : Bool) :
    (bitsOf B).getD j d = (beNat B).testBit (8 * B.length - 1 - j) := by
  conv_lhs => rw [← toBe_beNat B]
  exact getD_bitsOf_toBe hj _ d

theorem natOfBits_lt (b : List Bool) : natOfBits b < 2 ^ b.length := by
  induction b using List.reverseRecOn with
  | nil => simp [natOfBits]
  | append_singleton b x ih =>
    have := x.toNat_lt
    rw [natOfBits_concat, List.length_append, List.length_singleton, Nat.pow_succ]
    omega

theorem getD_bitsOf_packBits {b : List Bool} {j : Nat} (hj : j < 8 * (packBits b).length) (d : Bool) :
    (bitsOf (packBits b)).getD j d = b.reverse.getD (8 * (packBits b).length - 1 - j) false := by
  rw [packBits_length] at hj ⊢
  rw [packBits, getD_bitsOf_toBe hj, testBit_natOfBits]

theorem length_le_packBits (b : List Bool) : b.length ≤ 8 * (packBits b).length := by
  rw [packBits_length]
  omega

/-- Before the packed bits stand zeroes (R13, R156). -/
theorem getD_bitsOf_packBits_before {b : List Bool} {j : Nat} (hj : j < 8 * (packBits b).length - b.length) (d : Bool) :
    (bitsOf (packBits b)).getD j d = false := by
  rw [getD_bitsOf_packBits (by omega)]
  exact List.getD_eq_default _ _ (by rw [List.length_reverse]; omega)

/-- Packed bits are the last bits of their bytes (R13, R156). -/
theorem getD_bitsOf_packBits_at {b : List Bool} {i : Nat} (hi : i < b.length) (d : Bool) :
    (bitsOf (packBits b)).getD (8 * (packBits b).length - b.length + i) d = b[i] := by
  have fits := length_le_packBits b
  have place : 8 * (packBits b).length - 1 - (8 * (packBits b).length - b.length + i) = b.length - 1 - i := by omega
  have from_end : b.length - 1 - (b.length - 1 - i) = i := by omega
  rw [getD_bitsOf_packBits (by omega), place, List.getD_eq_getElem _ _ (by rw [List.length_reverse]; omega),
    List.getElem_reverse]
  simp only [from_end]

/-! ### Table entries (R152 to R155) -/

theorem adjustedIndex_eq (rule : PermRule) (t : Int) :
    adjustedIndex rule t = t - (if rule == .l1 || rule == .r1 then 1 else 0) := by
  cases rule <;> simp [adjustedIndex, ruleFirstIsOne]

theorem ruleIsLeft_eq (rule : PermRule) : ruleIsLeft rule = (rule == .l0 || rule == .l1) := by
  cases rule <;> rfl

theorem usableBits_cast (rule : PermRule) (lz : BitVec 3) (len : Nat) :
    (usableBits rule lz.toNat len : Int) =
      if rule == .l0 || rule == .l1 then (if len = 0 then 0 else 8 * (len : Int) - (lz.toNat : Int))
      else 8 * (len : Int) := by
  have := lz.isLt
  rw [usableBits, ruleIsLeft_eq]
  split
  · split <;> omega
  · omega

theorem entryInRange_iff {rule : PermRule} {lz len : Nat} {t : Int} :
    entryInRange rule lz len t = true ↔
      0 ≤ adjustedIndex rule t ∧ adjustedIndex rule t < (usableBits rule lz len : Int) := by
  simp [entryInRange]

theorem sourceBit_eq (rule : PermRule) (lz : Nat) (I : Bytes) (a : Nat) :
    sourceBit rule lz I a =
      (bitsOf I).getD (if rule == .l0 || rule == .l1 then lz + a else 8 * I.length - 1 - a) false := by
  rw [sourceBit, ruleIsLeft_eq]
  split <;> rfl

theorem rearrange_error {I : Bytes} {lz : Nat} {T : List Int} {rule : PermRule} {i : Nat} (hi : i < T.length)
    (bad : ¬ entryInRange rule lz I.length T[i] = true)
    (good : ∀ j (hj : j < i), entryInRange rule lz I.length (T[j]'(hj.trans hi)) = true) :
    rearrange I lz T rule = .error i := by
  have first : T.findIdx? (fun t => !entryInRange rule lz I.length t) = some i := by
    rw [List.findIdx?_eq_some_iff_getElem]
    exact ⟨hi, by simpa using bad, fun j hj => by simp [good j hj]⟩
  rw [rearrange, first]

@[simp] theorem tbl_length (s : State) : s.tbl.length = s.tlen.toNat := by simp [State.tbl]

/-! ### PERM (R151 to R156) -/

/-- What a data command leaves, as the statements say it. -/
theorem emits_emit {n : Nat} {O : Bytes} (h : O.length = n) : Emits s (s.emit n O) n O :=
  ⟨h, rfl, stores_write _ _ _⟩

theorem execPerm_ok {rule : PermRule} {lz : BitVec 3} (hs : s.err = false) (hd : s.dlen.toNat ≤ s.params.bufBytes)
    (ht : s.tlen.toNat ≤ 256) {O : Bytes} (hO : rearrange s.din lz.toNat s.tbl rule = .ok O) :
    exec (.perm rule lz) s = .next (s.emit O.length O) :=
  execPerm_next.mpr (.inr ⟨hs, .inr (.inr ⟨hd, ht, .inr ⟨O, hO, rfl⟩⟩)⟩)

theorem execPerm_error {rule : PermRule} {lz : BitVec 3} (hs : s.err = false) (hd : s.dlen.toNat ≤ s.params.bufBytes)
    (ht : s.tlen.toNat ≤ 256) {i : Nat} (hi : rearrange s.din lz.toNat s.tbl rule = .error i) :
    exec (.perm rule lz) s = .next (s.latchError (encode (.perm rule lz)) .permRange (BitVec.ofNat 32 i)) :=
  execPerm_next.mpr (.inr ⟨hs, .inr (.inr ⟨hd, ht, .inl ⟨i, hi, rfl⟩⟩)⟩)

/-- Settles O30: the checks in their order, and `rearrange` stops at the first bad entry. -/
theorem permErrors : Obligations.PermErrors := by
  intro s rule lz hs
  refine ⟨fun hd => ?_, fun hd ht => ?_, fun hd ht => ?_⟩
  · rw [← lenWord_eq]
    exact execPerm_next.mpr (.inr ⟨hs, .inl ⟨hd, rfl⟩⟩)
  · rw [← lenWord_eq]
    exact execPerm_next.mpr (.inr ⟨hs, .inr (.inl ⟨hd, ht, rfl⟩)⟩)
  · intro one usable good i hi bad first
    have inRange (j : Nat) : entryInRange rule lz.toNat s.din.length (s.tblEntry j) = true ↔ good j := by
      rw [entryInRange_iff, adjustedIndex_eq, din_length, usableBits_cast]
    refine execPerm_error hs hd ht (rearrange_error (by rwa [tbl_length]) ?_ fun j hj => ?_)
    · simpa [State.tbl, ← din_length, inRange] using bad
    · simpa [State.tbl, ← din_length, inRange] using first j hj

/-- Settles O29: with every entry in range `rearrange` packs the source bits, which are the last bits of the output. -/
theorem permResult : Obligations.PermResult := by
  intro s rule lz hs hd ht left one I usable a good
  have hI : I.length = s.dlen.toNat := Memory.readRange_length _ _ _
  have adjusted : s.tbl.map (adjustedIndex rule) =
      ((List.range s.tlen.toNat).map fun i => (a i).toNat).map Nat.cast := by
    simp only [State.tbl, List.map_map]
    refine List.map_congr_left fun i hi => ?_
    have nonneg := (good i (List.mem_range.mp hi)).1
    simp only [Function.comp_apply, adjustedIndex_eq]
    exact (Int.toNat_of_nonneg nonneg).symm
  have inRange : ∀ x ∈ (List.range s.tlen.toNat).map fun i => (a i).toNat,
      x < usableBits rule lz.toNat s.din.length := by
    intro x hx
    obtain ⟨i, hi, rfl⟩ := List.mem_map.mp hx
    have range : 0 ≤ a i ∧ a i < usableBits rule lz.toNat s.din.length := by
      rw [usableBits_cast, din_length, ← hI]
      exact good i (List.mem_range.mp hi)
    omega
  have run := execPerm_ok hs hd ht (rearrange_eq_of_adjusted adjusted inRange)
  rw [List.map_map] at run
  have count : ((List.range s.tlen.toNat).map (sourceBit rule lz.toNat s.din ∘ fun i => (a i).toNat)).length =
      s.tlen.toNat := by simp
  have length := packBits_length ((List.range s.tlen.toNat).map (sourceBit rule lz.toNat s.din ∘ fun i => (a i).toNat))
  rw [count] at length
  rw [length] at run
  refine ⟨_, _, run, emits_emit length, fun j hj => getD_bitsOf_packBits_before (by rwa [count]) _, fun i hi => ?_⟩
  have entry := getD_bitsOf_packBits_at
    (b := (List.range s.tlen.toNat).map (sourceBit rule lz.toNat s.din ∘ fun i => (a i).toNat)) (by rwa [count]) false
  rw [List.getElem_map, List.getElem_range, Function.comp_apply, sourceBit_eq, count] at entry
  exact entry

/-! ### `perm` on an integer (42_feistel_des.md R175) -/

/-- The bits a table names, from the bytes of an integer and from the integer. -/
theorem sourceBit_l1 {B : Bytes} {e : Nat} (lo : 1 ≤ e) (hi : e ≤ 8 * B.length) :
    sourceBit .l1 0 B (e - 1) = (BitVec.ofNat (8 * B.length) (beNat B)).getLsbD (8 * B.length - e) := by
  have inside : e - 1 < 8 * B.length := by omega
  have bit : 8 * B.length - 1 - (e - 1) = 8 * B.length - e := by omega
  have below : 8 * B.length - e < 8 * B.length := by omega
  rw [sourceBit, show ruleIsLeft .l1 = true from rfl, if_pos rfl, Nat.zero_add, getD_bitsOf inside, bit,
    BitVec.getLsbD_ofNat]
  simp [below]

/-- Settles O32: both pack the same bits of the input. -/
theorem permIntIsRearrange : Obligations.PermIntIsRearrange := by
  intro B T hT
  have adjusted : (T.map fun e => (e : Int)).map (adjustedIndex .l1) = (T.map (· - 1)).map Nat.cast := by
    rw [coe_list_eq_map, List.map_map, List.map_map, List.map_map]
    refine List.map_congr_left fun e he => ?_
    have := (hT e he).1
    simp only [Function.comp_apply, adjustedIndex_eq]
    exact (Int.natCast_sub this).symm
  have inRange : ∀ a ∈ T.map (· - 1), a < usableBits .l1 0 B.length := by
    intro a ha
    obtain ⟨e, he, rfl⟩ := List.mem_map.mp ha
    have := hT e he
    rw [usableBits_zero]
    omega
  have bits : (T.map (· - 1)).map (sourceBit .l1 0 B) =
      T.map fun e => (BitVec.ofNat (8 * B.length) (beNat B)).getLsbD (8 * B.length - e) := by
    rw [List.map_map]
    exact List.map_congr_left fun e he => sourceBit_l1 (hT e he).1 (hT e he).2
  have fits : natOfBits (T.map fun e => (BitVec.ofNat (8 * B.length) (beNat B)).getLsbD (8 * B.length - e)) <
      2 ^ T.length := by simpa using natOfBits_lt (T.map fun e => _)
  rw [rearrange_eq_of_adjusted adjusted inRange, bits, permInt_eq_natOfBits, BitVec.toNat_ofNat, Nat.mod_eq_of_lt fits,
    packBits, List.length_map]

end Sys2Proof.Machine
end

section
/-!
The formulas of the 64-bit and the 128-bit cipher (42_feistel_des.md, 43_deal.md).

A key schedule is described by index: the halves of the 64-bit cipher after round `r` are the first ones rotated by the
first `r` amounts (`rotated`), and a round key of the 128-bit cipher depends on the one before it only
(`getD_dealKeyRounds`). The eight S-box outputs stand in disjoint groups of four bits (`testBit_orNibbles`).
-/

namespace Sys2Proof.Machine

/-- Settles O35: the blocks are the integers of their bytes, and the engine undoes itself between `IP` and `FP`. -/
theorem desDealRoundTrip : Obligations.DesDealRoundTrip :=
  ⟨fun K _ h => desBytes_decrypt_encrypt K h, fun ctx _ h => dealBytes_decrypt_encrypt ctx h⟩

/-! ### The key schedule of the 64-bit cipher (R185) -/

theorem getLsbD_eq_of_and_eq {w : Nat} {x y m : BitVec w} (h : x &&& m = y &&& m) {k : Nat} (hk : m.getLsbD k = true) :
    x.getLsbD k = y.getLsbD k := by
  have bit := congrArg (·.getLsbD k) h
  simpa [hk] using bit

/-- `permInt` reads only the bits its table names. -/
theorem permInt_congr_of_and {w n : Nat} {T : List Nat} {x y m : BitVec w} (h : x &&& m = y &&& m)
    (hT : ∀ t ∈ T, m.getLsbD (w - t) = true) : permInt w n T x = permInt w n T y := by
  rw [permInt_eq_natOfBits, permInt_eq_natOfBits, List.map_congr_left fun t ht => getLsbD_eq_of_and_eq h (hT t ht)]

/-- Settles O36: neither half of the key's selection names a low bit of a byte. -/
theorem lowKeyBitsIgnored : Obligations.LowKeyBitsIgnored := by
  intro k k' h
  rw [desKs, desKs, permInt_congr_of_and h (T := desPC1C) (by decide),
    permInt_congr_of_and h (T := desPC1D) (by decide)]

/-- A half of the key schedule after the first `r` rotations of `sh`. -/
def rotated (sh : List Nat) (v : BitVec 28) (r : Nat) : BitVec 28 := (sh.take r).foldl BitVec.rotateLeft v

theorem rotated_succ {sh : List Nat} (v : BitVec 28) {r : Nat} (hr : r < sh.length) :
    rotated sh v (r + 1) = (rotated sh v r).rotateLeft (sh.getD r 0) := by
  rw [rotated, List.take_succ_eq_append_getElem hr, List.foldl_concat, List.getD_eq_getElem _ _ hr, rotated]

theorem getD_desKeyRounds {sh : List Nat} (C D : BitVec 28) {r : Nat} (hr : r < sh.length) :
    (desKeyRounds sh C D).getD r 0 = permInt 56 48 desPC2 (rotated sh C (r + 1) ++ rotated sh D (r + 1)) := by
  induction sh generalizing C D r with
  | nil => simp at hr
  | cons n sh ih =>
    cases r with
    | zero => rfl
    | succ r => exact ih _ _ (by simpa using hr)

theorem rotateLeft_eq_shifts (v : BitVec 28) {n : Nat} (hn : n < 28) :
    v.rotateLeft n = v <<< n ||| v >>> (28 - n) := by
  rw [BitVec.rotateLeft_def, Nat.mod_eq_of_lt hn]

/-- The amounts of the sixteen rounds (R184). -/
theorem getD_desSH {r : Nat} (hr : r < 16) :
    desSH.getD r 0 = if r + 1 = 1 ∨ r + 1 = 2 ∨ r + 1 = 9 ∨ r + 1 = 16 then 1 else 2 := by
  have all : ∀ r < 16, desSH.getD r 0 = if r + 1 = 1 ∨ r + 1 = 2 ∨ r + 1 = 9 ∨ r + 1 = 16 then 1 else 2 := by decide
  exact all r hr

theorem rotated_desSH_succ (v : BitVec 28) {r n : Nat} (hr : r < 16)
    (hn : n = if r + 1 = 1 ∨ r + 1 = 2 ∨ r + 1 = 9 ∨ r + 1 = 16 then 1 else 2) :
    rotated desSH v (r + 1) = rotated desSH v r <<< n ||| rotated desSH v r >>> (28 - n) := by
  have small : n < 28 := by
    rw [hn]
    split <;> omega
  rw [rotated_succ v hr, getD_desSH hr, ← hn, rotateLeft_eq_shifts _ small]

/-! ### The S-boxes (R186) -/

/-- The first `n` nibbles of a word, the lowest first. -/
def orNibbles (f : Nat → Nat) (n : Nat) : Nat := (List.range n).foldl (fun acc j => acc ||| (f j <<< (4 * j))) 0

theorem testBit_orNibbles {f : Nat → Nat} (hf : ∀ j, f j < 2 ^ 4) (n k : Nat) :
    (orNibbles f n).testBit k = (decide (k < 4 * n) && (f (k / 4)).testBit (k % 4)) := by
  induction n with
  | zero => simp [orNibbles]
  | succ n ih =>
    have step : orNibbles f (n + 1) = orNibbles f n ||| (f n <<< (4 * n)) := by
      simp [orNibbles, List.range_succ]
    rw [step, Nat.testBit_or, ih, Nat.testBit_shiftLeft]
    rcases lt_trichotomy (k / 4) n with lt | rfl | gt
    · have below : k < 4 * n := by omega
      have below' : k < 4 * (n + 1) := by omega
      have notIn : ¬ k ≥ 4 * n := by omega
      simp [below, below', notIn]
    · have notBelow : ¬ k < 4 * (k / 4) := by omega
      have below' : k < 4 * (k / 4 + 1) := by omega
      have inside : k ≥ 4 * (k / 4) := by omega
      have place : k - 4 * (k / 4) = k % 4 := by omega
      simp [notBelow, below', inside, place]
    · have notBelow : ¬ k < 4 * n := by omega
      have notBelow' : ¬ k < 4 * (n + 1) := by omega
      have above : (f n).testBit (k - 4 * n) = false :=
        Nat.testBit_lt_two_pow ((hf n).trans_le (Nat.pow_le_pow_right two_pos (by omega)))
      simp [notBelow, notBelow', above]

theorem extractLsb'_orNibbles {f : Nat → Nat} (hf : ∀ j, f j < 2 ^ 4) {j : Nat} (hj : j < 8) :
    ((BitVec.ofNat 32 (orNibbles f 8)).extractLsb' (4 * j) 4).toNat = f j := by
  have nibble : (BitVec.ofNat 32 (orNibbles f 8)).extractLsb' (4 * j) 4 = BitVec.ofNat 4 (f j) := by
    refine BitVec.eq_of_getLsbD_eq fun b hb => ?_
    have inside : 4 * j + b < 32 := by omega
    have group : (4 * j + b) / 4 = j := by omega
    have place : (4 * j + b) % 4 = b := by omega
    rw [BitVec.getLsbD_extractLsb', BitVec.getLsbD_ofNat, BitVec.getLsbD_ofNat, testBit_orNibbles hf, group, place]
    simp [hb, inside]
  rw [nibble, BitVec.toNat_ofNat, Nat.mod_eq_of_lt (hf j)]

theorem desSbox_lt (t row col : Nat) : desSbox t row col < 2 ^ 4 := by
  have entries : ∀ T ∈ desS, ∀ R ∈ T, ∀ v ∈ R, v < 2 ^ 4 := by decide
  simp only [desSbox, List.getD_eq_getElem?_getD]
  rcases hT : desS[t]? with _ | T
  · simp
  · rcases hR : T[row]? with _ | R
    · simp [hR]
    · rcases hv : R[col]? with _ | v
      · simp [hR, hv]
      · simpa [hR, hv] using entries T (List.mem_of_getElem? hT) R (List.mem_of_getElem? hR) v (List.mem_of_getElem? hv)

/-- The bits of a group of six: the row from the outer ones, the column from the inner ones. -/
theorem desGroup_eq (x : BitVec 48) (j : Nat) :
    desGroup x j =
      let g := x.extractLsb' (6 * j) 6
      desSbox (7 - j) ((g.getLsbD 0).toNat + 2 * (g.getLsbD 5).toNat) (g.extractLsb' 1 4).toNat := by
  have group : (x.toNat >>> (6 * j)) % 64 = (x.extractLsb' (6 * j) 6).toNat := by
    rw [BitVec.extractLsb'_toNat]
  have small := (x.extractLsb' (6 * j) 6).isLt
  have low : ((x.extractLsb' (6 * j) 6).getLsbD 0).toNat = (x.extractLsb' (6 * j) 6).toNat % 2 := by
    rw [BitVec.getLsbD, Nat.toNat_testBit, Nat.pow_zero, Nat.div_one]
  have high : ((x.extractLsb' (6 * j) 6).getLsbD 5).toNat = (x.extractLsb' (6 * j) 6).toNat / 32 := by
    rw [BitVec.getLsbD, Nat.toNat_testBit]
    omega
  have inner (g : BitVec 6) : (g.extractLsb' 1 4).toNat = g.toNat / 2 % 16 := by
    rw [BitVec.extractLsb'_toNat, Nat.shiftRight_eq_div_pow]
  simp only [desGroup, group, low, high, inner]

theorem desGroup_lt (x : BitVec 48) (j : Nat) : desGroup x j < 2 ^ 4 := desSbox_lt _ _ _

theorem desF_eq (R : BitVec 32) (k : BitVec 48) :
    desF R k = permInt 32 32 desP (BitVec.ofNat 32 (orNibbles (desGroup (permInt 32 48 desE R ^^^ k)) 8)) := rfl

/-! ### The engine and the two ciphers -/

/-- The round keys of the 64-bit cipher by the halves of its schedule. -/
theorem desKs_formula (key : BitVec 64) :
    ∃ C D : Nat → BitVec 28, Permutes desPC1C key (C 0) ∧ Permutes desPC1D key (D 0) ∧
      ∀ r, 1 ≤ r → r ≤ 16 →
        let n := if r = 1 ∨ r = 2 ∨ r = 9 ∨ r = 16 then 1 else 2
        C r = (C (r - 1) <<< n ||| C (r - 1) >>> (28 - n)) ∧ D r = (D (r - 1) <<< n ||| D (r - 1) >>> (28 - n)) ∧
        Permutes desPC2 (C r ++ D r) ((desKs key).getD (r - 1) 0) := by
  refine ⟨rotated desSH (permInt 64 28 desPC1C key), rotated desSH (permInt 64 28 desPC1D key),
    permInt_permutes desPC1C key (by decide) (by decide), permInt_permutes desPC1D key (by decide) (by decide), ?_⟩
  intro r lo hi
  obtain ⟨r, rfl⟩ := Nat.exists_eq_add_of_le' lo
  refine ⟨rotated_desSH_succ _ (by omega) rfl, rotated_desSH_succ _ (by omega) rfl, ?_⟩
  rw [Nat.add_sub_cancel, desKs, getD_desKeyRounds (sh := desSH) _ _ (Nat.lt_of_succ_le hi)]
  exact permInt_permutes desPC2 _ (by decide) (by decide)

/-- The round function of the 64-bit cipher by its S-box groups. -/
theorem desF_formula (R : BitVec 32) (k : BitVec 48) :
    ∃ (x : BitVec 48) (y : BitVec 32), Permutes desE R (x ^^^ k) ∧ Permutes desP y (desF R k) ∧
      ∀ j, j < 8 →
        let g := x.extractLsb' (6 * j) 6
        let row := (g.getLsbD 0).toNat + 2 * (g.getLsbD 5).toNat
        let col := (g.extractLsb' 1 4).toNat
        (y.extractLsb' (4 * j) 4).toNat = ((desS.getD (7 - j) []).getD row []).getD col 0 := by
  refine ⟨permInt 32 48 desE R ^^^ k, BitVec.ofNat 32 (orNibbles (desGroup (permInt 32 48 desE R ^^^ k)) 8), ?_, ?_,
    fun j hj => ?_⟩
  · rw [BitVec.xor_assoc, BitVec.xor_self, BitVec.xor_zero]
    exact permInt_permutes desE R (by decide) (by decide)
  · rw [desF_eq]
    exact permInt_permutes desP _ (by decide) (by decide)
  · intro g row col
    rw [extractLsb'_orNibbles (desGroup_lt _) hj, desGroup_eq, desSbox]

theorem desBlock_formula (K : List (BitVec 48)) (dir : Dir) (B : BitVec 64) :
    ∃ v : BitVec 32 × BitVec 32,
      let pre := feistel desF 16 (fun i => K.getD i 0) dir v
      Permutes desIP B (v.1 ++ v.2) ∧ Permutes desFP (pre.1 ++ pre.2) (desBlock K dir B) := by
  refine ⟨halves64 (permInt 64 64 desIP B), ?_, permInt_permutes desFP _ (by decide) (by decide)⟩
  rw [append_halves64]
  exact permInt_permutes desIP B (by decide) (by decide)

/-- Key, block and encrypted block of the known answers of R193 and of 95_test_vectors.md section 2. -/
def desVectors : List (BitVec 64 × BitVec 64 × BitVec 64) :=
  [(0x133457799BBCDFF1, 0x0123456789ABCDEF, 0x85E813540F0AB405),
    (0x0101010101010101, 0x8000000000000000, 0x95F8A5E5DD31D900),
    (0x8001010101010101, 0x0000000000000000, 0x95A8D72813DAA94D),
    (0x0000000000000000, 0x0000000000000000, 0x8CA64DE9C1B123A7),
    (0xFFFFFFFFFFFFFFFF, 0xFFFFFFFFFFFFFFFF, 0x7359B2163E4EDC58),
    (0x0123456789ABCDEF, 0x4E6F772069732074, 0x3FA40E8A984D4815)]

theorem desBlock_desVectors : (desVectors.all fun v => desBlock (desKs v.1) .encrypt v.2.1 == v.2.2) = true := by
  decide +kernel

/-- Settles O60: the formulas of the engine, of the key schedule, of the round function and of the two block functions,
and the vectors by evaluation. -/
theorem feistelCipherFormulas : Obligations.FeistelCipherFormulas := by
  refine ⟨fun h κ F N K dir B _ => ?_, fun key => ⟨desKs_length key, desKs_formula key⟩, desF_formula, desBlock_formula,
    fun _ _ _ => rfl, fun _ _ _ => rfl, fun v hv => eq_of_beq (List.all_eq_true.mp desBlock_desVectors v hv),
    by decide +kernel, by decide +kernel⟩
  intro k
  refine ⟨fun i => (feistelLoop F k i B).1, fun i => (feistelLoop F k i B).2, rfl, rfl, fun _ _ => ⟨rfl, rfl⟩, ?_⟩
  cases dir <;> rfl

/-! ### The key schedule of the 128-bit cipher (43_deal.md R213, R214) -/

theorem getD_dealCon {c : Nat} (hc : c < 4) :
    dealCon.getD c 0 =
      BitVec.ofNat 64 (1 <<< (if c = 0 then 62 else if c = 1 then 61 else if c = 2 then 59 else 55)) := by
  have all : ∀ c < 4, dealCon.getD c 0 =
      BitVec.ofNat 64 (1 <<< (if c = 0 then 62 else if c = 1 then 61 else if c = 2 then 59 else 55)) := by decide
  exact all c hc

/-- Round key `j` of a run of the loop that starts at round `i` with the previous round key `prev`. -/
theorem getD_dealKeyRounds (kdf : List (BitVec 48)) (key : Bytes) (s : Nat) {n i j : Nat} (prev : BitVec 64)
    (hj : j < n) :
    (dealKeyRounds kdf key s n i prev).getD j 0 = desBlock kdf .encrypt
      (dealSeg key ((i + j) % s) ^^^ (if j = 0 then prev else (dealKeyRounds kdf key s n i prev).getD (j - 1) 0) ^^^
        (if s ≤ i + j ∧ s ≠ 4 then dealCon.getD (i + j - s) 0 else 0)) := by
  induction n generalizing i j prev with
  | zero => omega
  | succ n ih =>
    cases j with
    | zero =>
      simp only [dealKeyRounds, List.getD_cons_zero, Nat.add_zero, if_true]
      split <;> simp
    | succ j =>
      have next : i + (j + 1) = i + 1 + j := by omega
      rw [dealKeyRounds, List.getD_cons_succ, ih _ (by omega), next]
      cases j <;> rfl

/-- Settles O37: the loop of the schedule by index; in the shorter variants at most four rounds follow the segments. -/
theorem dealKeySchedule : Obligations.DealKeySchedule := by
  intro kdf key hkey s RK
  have rounds : RK.length = if s = 4 then 8 else 6 := by
    rw [dealKs_length, dealRounds]
    rcases hkey with h | h | h <;> simp [s, h]
  refine ⟨rounds, fun i hi => ?_⟩
  have inLoop : i < dealRounds key.length := by rwa [dealKs_length] at hi
  have entry := getD_dealKeyRounds kdf key s (i := 0) 0 inLoop
  have constant : (if s ≤ i ∧ s ≠ 4 then dealCon.getD (i - s) 0 else 0) =
      if s ≤ i ∧ s ≠ 4 then
        BitVec.ofNat 64 (1 <<< (if i - s = 0 then 62 else if i - s = 1 then 61 else if i - s = 2 then 59 else 55))
      else 0 := by
    split
    · refine getD_dealCon ?_
      have segments : s = key.length / 8 := rfl
      rw [rounds] at hi
      split at hi <;> omega
    · rfl
  rw [Nat.zero_add, constant] at entry
  exact entry

end Sys2Proof.Machine
end

section
/-!
The construction commands and the raw cipher commands (42_feistel_des.md section 5, 43_deal.md section 2,
44_rijndael.md section 6): what each leaves when its checks pass, the check that raises when one fails, and the round
trip of one block through `OTOI`.
-/

namespace Sys2Proof.Machine

variable {s : State}

/-! ### Construction commands (R190, 43_deal.md R218, 44_rijndael.md R250) -/

theorem modevAfterKey_eq (s : State) (c : Cipher) :
    s.modevAfterKey c = (s.modev && decide (s.modectx.cipher ≠ c)) := by
  rw [Bool.eq_iff_iff, modevAfterKey_iff, Bool.and_eq_true, decide_eq_true_iff]

theorem keyLen3_eq_false {n : Nat} (h : ¬ (n = 16 ∨ n = 24 ∨ n = 32)) : keyLen3 n = false := by
  rwa [← Bool.not_eq_true, keyLen3_iff]

theorem rjSizeOk_eq_false {n : Nat} (h : ¬ (n = 16 ∨ n = 24 ∨ n = 32)) : rjSizeOk n = false := keyLen3_eq_false h

theorem deskey_ok (hs : s.err = false) (hk : s.klen.toNat = 8) :
    exec .deskey s = .next (s.installDes { keys := desKs (be64 s.keyBytes) }) :=
  execDeskey_next.mpr (.inr ⟨hs, .inr ⟨hk, rfl⟩⟩)

theorem dealkey_ok (hs : s.err = false) (hk : keyLen3 s.klen.toNat = true) :
    exec .dealkey s = .next (s.installDeal
      { n := dealRounds s.klen.toNat, rk := dealKs (desKs dealKdfKey) s.keyBytes }) :=
  execDealkey_next.mpr (.inr ⟨hs, .inr ⟨hk, rfl⟩⟩)

theorem rjkey_ok {bsz md : Byte} (hs : s.err = false) (hb : rjSizeOk bsz.toNat = true)
    (hk : rjSizeOk s.klen.toNat = true) (hm : md ≠ 0) (hr : gfIrr md = true) :
    exec (.rjkey bsz md) s = .next (s.installRj (rjContext s.keyBytes bsz.toNat md) (sboxTable md) (isboxTable md)) :=
  execRjkey_next.mpr (.inr ⟨hs, .inr (.inr (.inr (.inr ⟨hb, hk, hm, hr, rfl⟩)))⟩)

/-- Settles O38: the context is installed, and MODEV as `modevAfterKey` says. -/
theorem desDealKeyResults : Obligations.DesDealKeyResults := by
  intro s hs
  refine ⟨fun hk => ?_, fun hk => ?_⟩
  · rw [deskey_ok hs hk, State.installDes, modevAfterKey_eq, State.keyBytes, hk]
  · rw [dealkey_ok hs (keyLen3_iff.mpr hk), State.installDeal, modevAfterKey_eq]
    rfl

/-- Settles O46: RJKEY writes the two tables one after the other and nothing else of memory. -/
theorem rjkeyResult : Obligations.RjkeyResult := by
  intro s bsz md hs hb hk hm hr
  have key : s.keyBytes.length = 16 ∨ s.keyBytes.length = 24 ∨ s.keyBytes.length = 32 := by rwa [keyBytes_length]
  refine ⟨_, rjkey_ok hs (rjSizeOk_iff.mpr hb) (rjSizeOk_iff.mpr hk) hm hr, ?_, rjContext_legal hb key hm hr, rfl, ?_,
    rfl, rfl, tables_installRj s _ md, fun a ha => ?_⟩
  · rw [← modevAfterKey_eq]
    rfl
  · rw [State.installRj_rjctx, rjContext, keyBytes_length]
  · rw [read_installRj (sboxTable_length md) (isboxTable_length md), if_neg (by omega), if_neg (by omega)]

/-- Settles O47: each check raises when the ones before it passed. -/
theorem keyCommandErrors : Obligations.KeyCommandErrors := by
  intro s hs size
  refine ⟨fun hk => ?_, fun hk => ?_, fun bsz md => ⟨fun hb => ?_, fun hb hk => ?_, fun hb hk hm => ?_,
    fun hb hk hm hr => ?_⟩⟩
  · rw [← lenWord_eq]
    exact execDeskey_next.mpr (.inr ⟨hs, .inl ⟨hk, rfl⟩⟩)
  · rw [← lenWord_eq]
    exact execDealkey_next.mpr (.inr ⟨hs, .inl ⟨keyLen3_eq_false hk, rfl⟩⟩)
  · rw [← lenWord_eq]
    exact execRjkey_next.mpr (.inr ⟨hs, .inl ⟨rjSizeOk_eq_false hb, rfl⟩⟩)
  · rw [← lenWord_eq]
    exact execRjkey_next.mpr (.inr ⟨hs, .inr (.inl ⟨rjSizeOk_iff.mpr hb, rjSizeOk_eq_false hk, rfl⟩)⟩)
  · exact execRjkey_next.mpr (.inr ⟨hs, .inr (.inr (.inl ⟨rjSizeOk_iff.mpr hb, rjSizeOk_iff.mpr hk, hm, rfl⟩))⟩)
  · rw [← lenWord_eq]
    exact execRjkey_next.mpr
      (.inr ⟨hs, .inr (.inr (.inr (.inl ⟨rjSizeOk_iff.mpr hb, rjSizeOk_iff.mpr hk, hm, hr, rfl⟩)))⟩)

/-! ### Raw cipher commands (R191, R192, 43_deal.md R219, R220, 44_rijndael.md R251, R252) -/

section RawBlock

variable {w : Word} {valid : Bool} {bs : Nat} {f : Bytes → Bytes}

theorem rawBlock_ok (hs : s.err = false) (hv : valid = true) (hd : s.dlen.toNat = bs) :
    rawBlock s w valid bs f = .next (s.emit bs (f s.din)) :=
  rawBlock_next.mpr (.inr ⟨hs, .inr (.inr ⟨hv, hd, rfl⟩)⟩)

theorem rawBlock_emits (hs : s.err = false) (hv : valid = true) (hd : s.dlen.toNat = bs) (hf : (f s.din).length = bs) :
    ∃ t, rawBlock s w valid bs f = .next t ∧ Emits s t bs (f s.din) :=
  ⟨_, rawBlock_ok hs hv hd, emits_emit hf⟩

theorem rawBlock_errors (hs : s.err = false) :
    (valid = false → rawBlock s w valid bs f = .next (s.latchError w .notReady 0)) ∧
    (valid = true → s.dlen.toNat ≠ bs →
      rawBlock s w valid bs f = .next (s.latchError w .lenBlock (s.dlen.setWidth 32))) := by
  rw [← lenWord_eq]
  exact ⟨fun hv => rawBlock_next.mpr (.inr ⟨hs, .inl ⟨hv, rfl⟩⟩),
    fun hv hd => rawBlock_next.mpr (.inr ⟨hs, .inr (.inl ⟨hv, hd, rfl⟩)⟩)⟩

end RawBlock

/-- Settles O39: the six commands are one block operation, and a cipher's output has its block size. -/
theorem rawCipherResults : Obligations.RawCipherResults := by
  intro s hs B
  refine ⟨fun hv hd => ⟨?_, ?_⟩, fun hv hd => ⟨?_, ?_⟩, fun hv legal hd => ⟨?_, ?_⟩⟩
  · exact rawBlock_emits hs hv hd (desBytes_length _ _ _)
  · exact rawBlock_emits hs hv hd (desBytes_length _ _ _)
  · exact rawBlock_emits hs hv hd (dealBytes_length _ _ _)
  · exact rawBlock_emits hs hv hd (dealBytes_length _ _ _)
  · rw [hd]
    exact rawBlock_emits hs hv hd (rjEncrypt_length legal.columns _ _)
  · rw [hd]
    exact rawBlock_emits hs hv hd (rjDecrypt_length legal.columns _ _)

/-- Settles O40: the six commands are one block operation with two checks. -/
theorem rawCipherErrors : Obligations.RawCipherErrors := by
  intro s i valid bs hs hi
  simp only [List.mem_cons, Prod.mk.injEq, List.not_mem_nil, or_false] at hi
  rcases hi with ⟨rfl, rfl, rfl⟩ | ⟨rfl, rfl, rfl⟩ | ⟨rfl, rfl, rfl⟩ | ⟨rfl, rfl, rfl⟩ | ⟨rfl, rfl, rfl⟩ |
    ⟨rfl, rfl, rfl⟩ <;>
    exact rawBlock_errors hs

/-! ### Encrypt, OTOI, decrypt -/

theorem getD_din {s : State} {k : Nat} (hk : k < s.dlen.toNat) (d : Byte) :
    s.din.getD k d = s.mem.read (dinBase + k) := by
  rw [List.getD_eq_getElem _ _ (by rwa [din_length])]
  simp [State.din, Memory.readRange]

/-- The raw encrypting command of a cipher. -/
def rawEnc : Cipher → Instr
  | .des => .desenc
  | .deal => .dealenc
  | .rj => .rjenc

/-- The raw decrypting command of a cipher. -/
def rawDec : Cipher → Instr
  | .des => .desdec
  | .deal => .dealdec
  | .rj => .rjdec

theorem exec_rawEnc (s : State) (c : Cipher) : exec (rawEnc c) s =
    rawBlock s (encode (rawEnc c)) (s.cipherValid c) (s.blockSize c) (s.blockCipher c).E := by
  cases c <;> rfl

theorem exec_rawDec (s : State) (c : Cipher) : exec (rawDec c) s =
    rawBlock s (encode (rawDec c)) (s.cipherValid c) (s.blockSize c) (s.blockCipher c).D := by
  cases c <;> rfl

/-- A valid cipher undoes itself on blocks of its size: it is a cipher a mode can be bound to. -/
theorem State.Coherent.cipher_roundTrips (h : s.Coherent) {c : Cipher} (hv : s.cipherValid c = true) :
    (s.blockCipher c).Sized (s.blockSize c) ∧ (s.blockCipher c).RoundTrips (s.blockSize c) := by
  have bound : (s.installMode { mode := .ecb, cipher := c, bs := s.blockSize c, civ := [] }).Coherent :=
    h.installMode hv (.inl ⟨rfl, rfl⟩)
  exact ⟨bound.sized rfl, bound.roundTrips rfl⟩

/-- One block through the encrypting command, OTOI and the decrypting command. -/
theorem State.Coherent.raw_roundTrip (h : s.Coherent) (err : s.err = false) {c : Cipher} (hv : s.cipherValid c = true)
    (hd : s.dlen.toNat = s.blockSize c) :
    ∃ t u v : State, exec (rawEnc c) s = .next t ∧ exec .otoi t = .next u ∧ exec (rawDec c) u = .next v ∧
      v.err = false ∧ v.olen = s.dlen ∧
      ∀ k, k < s.dlen.toNat → v.mem.read (doutBase + k) = s.mem.read (dinBase + k) := by
  obtain ⟨sized, undo⟩ := h.cipher_roundTrips hv
  have length : ((s.blockCipher c).E s.din).length = s.dlen.toNat := (sized.enc _).trans hd.symm
  have enc : exec (rawEnc c) s = .next (s.emit s.dlen.toNat ((s.blockCipher c).E s.din)) := by
    rw [exec_rawEnc, rawBlock_ok err hv hd, hd]
  have valid : (s.afterOtoi ((s.blockCipher c).E s.din)).cipherValid c = true := by
    cases c <;> exact hv
  have size : (s.afterOtoi ((s.blockCipher c).E s.din)).blockSize c = s.blockSize c := by
    cases c <;> rfl
  have clear : (s.afterOtoi ((s.blockCipher c).E s.din)).err = false := err
  have dec : exec (rawDec c) (s.afterOtoi ((s.blockCipher c).E s.din)) =
      .next ((s.afterOtoi ((s.blockCipher c).E s.din)).emit s.dlen.toNat s.din) := by
    rw [exec_rawDec, size, rawBlock_ok (bs := s.blockSize c) clear valid (by rw [dlen_afterOtoi, hd]),
      blockCipher_afterOtoi, din_afterOtoi length, undo _ (by rw [din_length, hd]), hd]
  refine ⟨_, _, _, enc, exec_otoi err, dec, err, ?_, fun k hk => ?_⟩
  · rw [State.emit_olen, BitVec.ofNat_toNat, BitVec.setWidth_eq]
  · rw [State.emit_mem, Memory.read_write_inside (by rwa [din_length]), getD_din hk]

/-- Settles O41: every cipher with a valid context undoes itself, and OTOI hands it its own output. -/
theorem rawCipherRoundTrip : Obligations.RawCipherRoundTrip := by
  rintro s enc dec h err (⟨rfl, rfl, hv, hd⟩ | ⟨rfl, rfl, hv, hd⟩ | ⟨rfl, rfl, hv, hd⟩)
  · exact h.raw_roundTrip err (c := .des) hv hd
  · exact h.raw_roundTrip err (c := .deal) hv hd
  · exact h.raw_roundTrip err (c := .rj) hv hd

end Sys2Proof.Machine
end

section
/-!
Rijndael by index (44_rijndael.md sections 3 to 5): the entries of the state matrix after each transform, the columns of
the expanded key, and the block functions round by round. Each transform is described once by the column it gives
(`getD_shiftRows`, `row_mixCol`, `getD_addRoundKey`), and the key expansion by the columns its loop prepends
(`getD_expandSteps`).
-/

namespace Sys2Proof.Machine

/-! ### The matrix of a block (R236) -/

theorem getD_colsOf {nb c : Nat} (B : Bytes) (hc : c < nb) :
    (colsOf nb B).getD c Col.zero =
      ⟨B.getD (4 * c) 0, B.getD (4 * c + 1) 0, B.getD (4 * c + 2) 0, B.getD (4 * c + 3) 0⟩ := by
  induction nb generalizing B c with
  | zero => omega
  | succ nb ih =>
    cases c with
    | zero => rfl
    | succ c =>
      have dropped (k : Nat) : (B.drop 4).getD (4 * c + k) 0 = B.getD (4 * (c + 1) + k) 0 := by
        rw [List.getD_eq_getElem?_getD, List.getElem?_drop, List.getD_eq_getElem?_getD]
        congr 2
        omega
      rw [colsOf, List.getD_cons_succ, ih _ (by omega), dropped, dropped, dropped]
      exact congrArg (fun b => Col.mk b _ _ _) (dropped 0)

theorem cell_colsOf {nb r c : Nat} (B : Bytes) (hr : r < 4) (hc : c < nb) :
    cell (colsOf nb B) r c = B.getD (4 * c + r) 0 := by
  rw [cell, getD_colsOf B hc]
  revert r
  rw [forall_row]
  exact ⟨rfl, rfl, rfl, rfl⟩

/-! ### The round transforms by entry (R238 to R241) -/

theorem getD_shiftRows {o1 o2 o3 c : Nat} {M : List Col} (hc : c < M.length) :
    (shiftRows o1 o2 o3 M).getD c Col.zero =
      { b0 := (shiftedCol M c 0).b0, b1 := (shiftedCol M c o1).b1, b2 := (shiftedCol M c o2).b2,
        b3 := (shiftedCol M c o3).b3 } := by
  rw [List.getD_eq_getElem _ _ (by rwa [shiftRows_length])]
  simp only [shiftRows, List.getElem_map, List.getElem_range]

theorem cell_shiftRows {o1 o2 o3 r c : Nat} {M : List Col} (hr : r < 4) (hc : c < M.length) :
    cell (shiftRows o1 o2 o3 M) r c = cell M r ((c + [0, o1, o2, o3].getD r 0) % M.length) := by
  rw [cell, getD_shiftRows hc]
  revert r
  rw [forall_row]
  exact ⟨rfl, rfl, rfl, rfl⟩

/-- A rotation to the right by `o` is one to the left by `backShift nb o`. -/
theorem add_backShift_mod {nb c : Nat} (hc : c < nb) (o : Nat) :
    (c + backShift nb o) % nb = (((c : Int) - (o : Int)) % (nb : Int)).toNat := by
  obtain ⟨k, hk⟩ := dvd_backShift_add (Nat.zero_lt_of_lt hc) o
  have shifted : (c : Int) - o = ((c + backShift nb o : Nat) : Int) + nb * (-k) := by
    have cast : (backShift nb o : Int) + o = nb * k := by exact_mod_cast hk
    rw [Int.mul_neg, ← cast]
    push_cast
    ring
  rw [shifted, Int.add_mul_emod_self_left, ← Int.natCast_mod, Int.toNat_natCast]

theorem cell_invShiftRows {o1 o2 o3 r c : Nat} {M : List Col} (hr : r < 4) (hc : c < M.length) :
    cell (invShiftRows o1 o2 o3 M) r c =
      cell M r (((c : Int) - ([0, o1, o2, o3].getD r 0 : Nat)) % (M.length : Int)).toNat := by
  rw [invShiftRows, cell_shiftRows hr hc, ← add_backShift_mod hc]
  have whole : (c + 0) % M.length = (c + backShift M.length 0) % M.length := by simp [backShift]
  revert r
  rw [forall_row]
  exact ⟨congrArg (cell M 0) whole, rfl, rfl, rfl⟩

theorem cell_map {f : Col → Col} {M : List Col} {r c : Nat} (hc : c < M.length) :
    cell (M.map f) r c = (f (M.getD c Col.zero)).row r := by
  rw [cell_of_lt r (by rwa [List.length_map]), List.getElem_map, List.getD_eq_getElem _ _ hc]

theorem cell_subBytes {tbl : Byte → Byte} {M : List Col} {r c : Nat} (hr : r < 4) (hc : c < M.length) :
    cell (subBytes tbl M) r c = tbl (cell M r c) := by
  rw [subBytes, cell_map hc]
  revert r
  rw [forall_row]
  exact ⟨rfl, rfl, rfl, rfl⟩

/-- The circulant product of R240 as a sum over the rows of the source column. -/
theorem row_mixCol (md c0 c1 c2 c3 : Byte) (a : Col) {r : Nat} (hr : r < 4) :
    (mixCol md c0 c1 c2 c3 a).row r = (List.range 4).foldl
      (fun acc k => acc ^^^ gfMul ([c0, c1, c2, c3].getD ((r + 4 - k) % 4) 0) (a.row k) md) 0 := by
  revert r
  rw [forall_row]
  simp [mixCol, mixByte, List.range_succ]

theorem getD_addRoundKey {ctx : RjCtx} {rnd c : Nat} {M : List Col} (hM : M.length = ctx.nb)
    (hw : (rnd + 1) * ctx.nb ≤ ctx.w.length) (hc : c < M.length) :
    (addRoundKey ctx rnd M).getD c Col.zero =
      Col.xor (M.getD c Col.zero) (ctx.w.getD (rnd * ctx.nb + c) Col.zero) := by
  have inKey : rnd * ctx.nb + c < ctx.w.length := by
    rw [Nat.succ_mul] at hw
    omega
  have inRound : c < (roundKey ctx rnd).length := by
    rw [roundKey, List.length_take, List.length_drop]
    omega
  rw [addRoundKey, List.getD_eq_getElem _ _ (by rw [List.length_zipWith]; omega), List.getElem_zipWith,
    List.getD_eq_getElem _ _ hc, List.getD_eq_getElem _ _ inKey]
  simp only [roundKey, List.getElem_take, List.getElem_drop]

theorem roundKey_length_of_le {ctx : RjCtx} {rnd : Nat} (hw : (rnd + 1) * ctx.nb ≤ ctx.w.length) :
    (roundKey ctx rnd).length = ctx.nb := by
  rw [Nat.succ_mul] at hw
  rw [roundKey, List.length_take, List.length_drop]
  omega

theorem cell_addRoundKey {ctx : RjCtx} {rnd r c : Nat} {M : List Col} (hM : M.length = ctx.nb)
    (hw : (rnd + 1) * ctx.nb ≤ ctx.w.length) (hr : r < 4) (hc : c < M.length) :
    cell (addRoundKey ctx rnd M) r c = cell M r c ^^^ cell ctx.w r (rnd * ctx.nb + c) := by
  rw [cell, getD_addRoundKey hM hw hc]
  revert r
  rw [forall_row]
  exact ⟨rfl, rfl, rfl, rfl⟩

/-- Settles O43: the transforms by entry, and the inverses of the round trip. -/
theorem inverseTransforms : Obligations.InverseTransforms := by
  refine ⟨fun nb B hB => ⟨colsOf_length nb B, bytesOf_colsOf hB, fun r c hr hc => cell_colsOf B hr hc⟩,
    fun o1 o2 o3 M => ⟨shiftRows_length _ _ _ M, invShiftRows_length _ _ _ M, fun r c hr hc =>
      ⟨cell_shiftRows hr hc, cell_invShiftRows hr hc⟩⟩,
    fun tbl M => ⟨subBytes_length tbl M, fun r c hr hc => cell_subBytes hr hc⟩,
    fun md M => ⟨mixColumns_length md M, invMixColumns_length md M, fun r c hr hc => ?_⟩,
    fun ctx rnd M hM hw => ⟨?_, fun r c hr hc => cell_addRoundKey hM hw hr hc⟩,
    invShiftRows_shiftRows, fun md M _ => invMixColumns_mixColumns md M, fun ctx rnd M hM hw => ?_,
    fun md M hm hirr => subBytes_subBytes (isboxEntry_sboxEntry hm hirr) M⟩
  · rw [mixColumns, invMixColumns, cell_map hc, cell_map hc, row_mixCol _ _ _ _ _ _ hr, row_mixCol _ _ _ _ _ _ hr]
    exact ⟨rfl, rfl⟩
  · rw [addRoundKey, List.length_zipWith, roundKey_length_of_le hw, hM, Nat.min_self]
  · exact addRoundKey_addRoundKey (by rw [roundKey_length_of_le hw, hM])

/-! ### The key schedule (R242, R243) -/

theorem rcon_succ_toNat (i : Nat) : (rcon (i + 1)).toNat =
    if (rcon i).toNat < 0x80 then 2 * (rcon i).toNat else (2 * (rcon i).toNat ^^^ 0x11B) % 256 := by
  rw [rcon]
  split
  · rw [BitVec.toNat_ofNat, Nat.mod_eq_of_lt (by omega)]
  · rw [BitVec.toNat_ofNat]

theorem rcon_values : (List.range 30).map rcon =
    [0x01, 0x02, 0x04, 0x08, 0x10, 0x20, 0x40, 0x80, 0x1B, 0x36, 0x6C, 0xD8, 0xAB, 0x4D, 0x9A, 0x2F, 0x5E, 0xBC,
     0x63, 0xC6, 0x97, 0x35, 0x6A, 0xD4, 0xB3, 0x7D, 0xFA, 0xEF, 0xC5, 0x91] := by decide +kernel

/-- The columns made so far stay the first ones. -/
theorem getD_reverse_expandSteps {sb : Byte → Byte} {nk n i j : Nat} {acc : List Col} (hj : j < acc.length) :
    (expandSteps sb nk n i acc).reverse.getD j Col.zero = acc.reverse.getD j Col.zero := by
  induction n generalizing i acc with
  | zero => rfl
  | succ n ih =>
    rw [expandSteps, ih (hj.trans (Nat.lt_succ_self _)), List.reverse_cons,
      List.getD_append _ _ _ _ (by rwa [List.length_reverse])]

/-- Every column the loop adds, from the columns before it. -/
theorem getD_expandSteps {sb : Byte → Byte} {nk n i j : Nat} {acc : List Col} (hnk : 0 < nk) (hi : nk ≤ i)
    (hacc : acc.length = i) (lo : i ≤ j) (hi' : j < i + n) :
    let W := fun k => (expandSteps sb nk n i acc).reverse.getD k Col.zero
    W j = Col.xor (W (j - nk)) (expandTemp sb nk j (W (j - 1))) := by
  induction n generalizing i acc with
  | zero => omega
  | succ n ih =>
    rcases lo.lt_or_eq with later | rfl
    · exact ih (i := i + 1) (by omega) (by rw [List.length_cons, hacc]) later (by omega)
    · have made (k : Nat) (hk : k < i) : (expandSteps sb nk (n + 1) i acc).reverse.getD k Col.zero =
          acc.getD (i - 1 - k) Col.zero := by
        rw [getD_reverse_expandSteps (by rwa [hacc]), List.getD_reverse _ (by rwa [hacc]), hacc]
      have last : i - 1 - (i - 1) = 0 := by omega
      have source : i - 1 - (i - nk) = nk - 1 := by omega
      intro W
      simp only [W]
      rw [made (i - nk) (by omega), made (i - 1) (by omega), last, source, expandSteps,
        getD_reverse_expandSteps (by rw [List.length_cons, hacc]; omega),
        List.getD_reverse _ (by rw [List.length_cons, hacc]; omega), List.length_cons, hacc, Nat.add_sub_cancel,
        Nat.sub_self, List.getD_cons_zero]

/-- Settles O44: the constants by their recurrence, and the columns by the loop that adds them. -/
theorem rijndaelKeySchedule : Obligations.RijndaelKeySchedule := by
  refine ⟨⟨rfl, rcon_succ_toNat, rcon_values⟩, ?_⟩
  intro sb key nk nb nr hnk le W
  refine ⟨rjExpand_length sb key le, fun i hi => ?_, fun i lo hi => ?_⟩
  · have first : i < (colsOf nk key).reverse.length := by rwa [List.length_reverse, colsOf_length]
    calc W i = (colsOf nk key).getD i Col.zero := by
          simp only [W, rjExpand, getD_reverse_expandSteps first, List.reverse_reverse]
      _ = _ := getD_colsOf key hi
  · exact getD_expandSteps hnk le_rfl (by rw [List.length_reverse, colsOf_length]) lo (by omega)

/-! ### The block functions (R244 to R246) -/

/-- The matrix after `rnd` rounds of encryption, before the last one. -/
def encState (ctx : RjCtx) (sb : Byte → Byte) (M : List Col) (rnd : Nat) : List Col :=
  (List.range' 1 rnd).foldl (rjRound ctx sb) (addRoundKey ctx 0 M)

theorem encState_succ (ctx : RjCtx) (sb : Byte → Byte) (M : List Col) (rnd : Nat) :
    encState ctx sb M (rnd + 1) = rjRound ctx sb (encState ctx sb M rnd) (rnd + 1) := by
  rw [encState, List.range'_concat, List.foldl_concat, encState]
  congr 1
  omega

/-- The matrix of decryption when the rounds from `rnd` on are undone. -/
def decState (ctx : RjCtx) (isb : Byte → Byte) (M : List Col) (rnd : Nat) : List Col :=
  (List.range' rnd (ctx.nr - rnd)).reverse.foldl (rjInvRound ctx isb) (addRoundKey ctx ctx.nr M)

theorem decState_of_lt {ctx : RjCtx} {rnd : Nat} (h : rnd < ctx.nr) (isb : Byte → Byte) (M : List Col) :
    decState ctx isb M rnd = rjInvRound ctx isb (decState ctx isb M (rnd + 1)) rnd := by
  have rounds : ctx.nr - rnd = ctx.nr - (rnd + 1) + 1 := by omega
  rw [decState, rounds, List.range'_succ, List.reverse_cons, List.foldl_concat, decState]

/-- Settles O45: the loops of the block functions are folds over the rounds, the round trip is
`rjDecrypt_rjEncrypt`, and the known answer is evaluated. -/
theorem rijndaelRoundTrip : Obligations.RijndaelRoundTrip := by
  refine ⟨fun ctx sb B _ => ⟨encState ctx sb (colsOf ctx.nb B), rfl, fun rnd lo _ => ?_, rfl⟩,
    fun ctx isb B _ => ⟨decState ctx isb (colsOf ctx.nb B), ?_, fun rnd _ lt => decState_of_lt lt isb _, rfl⟩,
    fun ctx B legal hB => rjDecrypt_rjEncrypt legal hB, by decide +kernel⟩
  · obtain ⟨rnd, rfl⟩ := Nat.exists_eq_add_of_le' lo
    exact encState_succ ctx sb _ rnd
  · rw [decState, Nat.sub_self]
    rfl

end Sys2Proof.Machine
end

section
/-!
The modes (45_modes.md): MINIT, the formulas of the seven modes block by block, and what MENC and MDEC leave.

The modes with feedback are one recursion, whose chaining value is a function of the last block in and out (`chain`).
The two data commands are one command with two functions of the blocks (`dataFn`), which look only at the mode, the
bound cipher and DIN; none of these meets DOUT.
-/

namespace Sys2Proof.Machine

/-! ### MINIT (R281, R282) -/

section Minit

variable {s : State} {md : Mode} {c : Cipher}

theorem exec_ofMinit (s : State) (md : Mode) (c : Cipher) :
    exec (.ofMinit c md) s = minit md c (encode (.ofMinit c md)) s := by cases md <;> rfl

theorem minit_ecb (hs : s.err = false) (hv : s.cipherValid c = true) :
    exec (.ofMinit c .ecb) s =
      .next (s.installMode { mode := .ecb, cipher := c, bs := s.blockSize c, civ := [] }) := by
  rw [exec_ofMinit]
  exact minit_next.mpr (.inr ⟨hs, .inr (.inl ⟨hv, rfl, rfl⟩)⟩)

theorem minit_iv (hs : s.err = false) (hv : s.cipherValid c = true) (hm : md ≠ .ecb) (hn : s.ivlen.toNat ≠ 0)
    (hb : ivLenBad md s.ivlen.toNat (s.blockSize c) = false) :
    exec (.ofMinit c md) s =
      .next (s.installMode { mode := md, cipher := c, bs := s.blockSize c, civ := s.ivBytes }) := by
  rw [exec_ofMinit]
  exact minit_next.mpr (.inr ⟨hs, .inr (.inr (.inr (.inr ⟨hv, hm, hn, hb, rfl⟩)))⟩)

/-- The IV lengths each mode rejects (R282). -/
theorem ivLenBad_iff {n bs : Nat} : ivLenBad md n bs = true ↔ 64 < n ∨
    ((md = .cbc ∨ md = .pcbc ∨ md = .cfb ∨ md = .ofb) ∧ n ≠ bs ∨ md = .ctr ∧ bs ≤ n ∨ md = .rd ∧ n % 2 = 1) := by
  unfold ivLenBad
  rw [Bool.or_eq_true, decide_eq_true_iff]
  refine or_congr Iff.rfl ?_
  cases md <;> simp

end Minit

/-- Settles O48: the IV lengths the statement names are the ones MINIT accepts. -/
theorem minitResults : Obligations.MinitResults := by
  intro s md c hs hv bs n len
  have valid : s.cipherValid c = true := by cases c <;> exact hv
  have size : s.blockSize c = bs := by cases c <;> rfl
  rcases eq_or_ne md .ecb with rfl | hm
  · rw [minit_ecb hs valid, size, if_pos rfl]
    rfl
  · have accepted : n ≠ 0 ∧ ivLenBad md n bs = false := by
      rw [← Bool.not_eq_true, ivLenBad_iff]
      cases md with
      | ecb => exact absurd rfl hm
      | cbc | pcbc | cfb | ofb | ctr | rd => simpa using len
    rw [minit_iv hs valid hm accepted.1 (size.symm ▸ accepted.2), size, if_neg hm]
    rfl

/-- Settles O49: the lengths the statement names are the ones MINIT rejects. -/
theorem minitErrors : Obligations.MinitErrors := by
  intro s md c hs valid bs n w
  have flag : s.cipherValid c = valid := by cases c <;> rfl
  have size : s.blockSize c = bs := by cases c <;> rfl
  simp only [exec_ofMinit, ← lenWord_eq]
  refine ⟨fun hv => ?_, fun hv hm hn => ?_, fun hv hn bad => ?_⟩
  · exact minit_next.mpr (.inr ⟨hs, .inl ⟨flag.trans hv, rfl⟩⟩)
  · exact minit_next.mpr (.inr ⟨hs, .inr (.inr (.inl ⟨flag.trans hv, hm, hn, rfl⟩))⟩)
  · have rejected : md ≠ .ecb ∧ ivLenBad md n bs = true := by
      rw [ivLenBad_iff]
      cases md with
      | ecb => exact bad.elim
      | cbc | pcbc | cfb | ofb | ctr | rd => simpa using bad
    exact minit_next.mpr
      (.inr ⟨hs, .inr (.inr (.inr (.inl ⟨flag.trans hv, rejected.1, hn, size.symm ▸ rejected.2, rfl⟩)))⟩)

/-! ### The formulas of the modes (R291 to R297) -/

/-- A mode with feedback: `f v x` is the block made of `x` under the chaining value `v`, and `h y x` the next chaining
value after the block `y` was made of `x`. -/
def chain (f h : Bytes → Bytes → Bytes) : Bytes → List Bytes → List Bytes
  | _, [] => []
  | v, x :: X => f v x :: chain f h (h (f v x) x) X

theorem getD_chain (f h : Bytes → Bytes → Bytes) (v : Bytes) {X : List Bytes} {i : Nat} (hi : i < X.length) :
    (chain f h v X).getD i [] =
      f (if i = 0 then v else h ((chain f h v X).getD (i - 1) []) (X.getD (i - 1) [])) (X.getD i []) := by
  induction X generalizing v i with
  | nil => simp at hi
  | cons x X ih =>
    cases i with
    | zero => rfl
    | succ i =>
      rw [chain, List.getD_cons_succ, ih _ (Nat.lt_of_succ_lt_succ hi)]
      cases i <;> rfl

section Formulas

variable (c : BlockCipher) (v : Bytes) (X : List Bytes)

theorem cbcEnc_eq_chain : cbcEnc c v X = chain (fun v x => c.E (xorBytes x v)) (fun y _ => y) v X := by
  induction X generalizing v with
  | nil => rfl
  | cons x X ih => rw [cbcEnc, ih, chain]

theorem cbcDec_eq_chain : cbcDec c v X = chain (fun v x => xorBytes (c.D x) v) (fun _ x => x) v X := by
  induction X generalizing v with
  | nil => rfl
  | cons x X ih => rw [cbcDec, ih, chain]

theorem pcbcEnc_eq_chain : pcbcEnc c v X = chain (fun v x => c.E (xorBytes x v)) (fun y x => xorBytes x y) v X := by
  induction X generalizing v with
  | nil => rfl
  | cons x X ih => rw [pcbcEnc, ih, chain]

theorem pcbcDec_eq_chain : pcbcDec c v X = chain (fun v x => xorBytes (c.D x) v) (fun y x => xorBytes y x) v X := by
  induction X generalizing v with
  | nil => rfl
  | cons x X ih => rw [pcbcDec, ih, chain]

theorem cfbEnc_eq_chain : cfbEnc c v X = chain (fun v x => xorBytes (c.E v) x) (fun y _ => y) v X := by
  induction X generalizing v with
  | nil => rfl
  | cons x X ih => rw [cfbEnc, ih, chain]

theorem cfbDec_eq_chain : cfbDec c v X = chain (fun v x => xorBytes (c.E v) x) (fun _ x => x) v X := by
  induction X generalizing v with
  | nil => rfl
  | cons x X ih => rw [cfbDec, ih, chain]

end Formulas

theorem getD_ofbCrypt (c : BlockCipher) (v : Bytes) {X : List Bytes} {i : Nat} (hi : i < X.length) :
    (ofbCrypt c v X).getD i [] = xorBytes (X.getD i []) (c.E^[i + 1] v) := by
  induction X generalizing v i with
  | nil => simp at hi
  | cons x X ih =>
    cases i with
    | zero => rfl
    | succ i => exact ih _ (Nat.lt_of_succ_lt_succ hi)

theorem getD_mapBlocks (f : Nat → Bytes → Bytes) {X : List Bytes} {i : Nat} (hi : i < X.length) :
    (mapBlocks f X).getD i [] = f i (X.getD i []) := by
  rw [List.getD_eq_getElem _ _ (by rwa [mapBlocks, List.length_mapIdx]), List.getD_eq_getElem _ _ hi]
  exact List.getElem_mapIdx

/-- Settles O50: each mode is a map over the blocks, a chain, or OFB's repeated encryption. -/
theorem modeFormulas : Obligations.ModeFormulas := by
  intro md c bs iv X
  refine ⟨modeEncrypt_length md c bs iv X, modeDecrypt_length md c bs iv X, fun i hi => ?_⟩
  cases md with
  | ecb => exact ⟨getD_mapBlocks _ hi, getD_mapBlocks _ hi⟩
  | cbc =>
    simp only [modeEncrypt, modeDecrypt, cbcEnc_eq_chain, cbcDec_eq_chain]
    exact ⟨getD_chain _ _ iv hi, getD_chain _ _ iv hi⟩
  | pcbc =>
    simp only [modeEncrypt, modeDecrypt, pcbcEnc_eq_chain, pcbcDec_eq_chain]
    exact ⟨getD_chain _ _ iv hi, getD_chain _ _ iv hi⟩
  | cfb =>
    simp only [modeEncrypt, modeDecrypt, cfbEnc_eq_chain, cfbDec_eq_chain]
    exact ⟨getD_chain _ _ iv hi, getD_chain _ _ iv hi⟩
  | ofb => exact ⟨getD_ofbCrypt c iv hi, getD_ofbCrypt c iv hi⟩
  | ctr => exact ⟨getD_mapBlocks _ hi, getD_mapBlocks _ hi⟩
  | rd => exact ⟨getD_mapBlocks _ hi, getD_mapBlocks _ hi⟩

/-! ### Blocks in memory (R288, R314) -/

theorem drop_take_readRange (m : Memory) (a : Nat) {n k len : Nat} (h : k + len ≤ n) :
    ((m.readRange a n).drop k).take len = m.readRange (a + k) len := by
  refine List.ext_getElem (by simp; omega) fun i _ _ => ?_
  simp [Memory.readRange, Nat.add_assoc]

theorem succ_mul_le_of_lt_div {i n bs : Nat} (h : i < n / bs) : i * bs + bs ≤ n := by
  rw [← Nat.succ_mul]
  exact (Nat.mul_le_mul_right bs h).trans (Nat.div_mul_le_self n bs)

theorem dinBlocks_eq (s : State) :
    s.dinBlocks = (List.range (s.dlen.toNat / s.modectx.bs)).map fun i =>
      s.mem.readRange (dinBase + i * s.modectx.bs) s.modectx.bs := by
  refine List.map_congr_left fun i hi => ?_
  exact drop_take_readRange _ _ (succ_mul_le_of_lt_div (List.mem_range.mp hi))

/-- Whole blocks written one after the other are read back at their offsets. -/
theorem readRange_write_flatten {m : Memory} {a bs : Nat} {Y : List Bytes} (hY : ∀ b ∈ Y, b.length = bs) {i : Nat}
    (hi : i < Y.length) : (m.write a Y.flatten).readRange (a + i * bs) bs = Y.getD i [] := by
  have fits : i * bs + bs ≤ Y.flatten.length := by
    rw [flatten_length hY, ← Nat.succ_mul]
    exact Nat.mul_le_mul_right bs hi
  have block : (blocksOf bs Y.length Y.flatten).getD i [] = (Y.flatten.drop (i * bs)).take bs := by
    rw [List.getD_eq_getElem _ _ (by rwa [blocksOf_length])]
    simp [blocksOf]
  rw [← drop_take_readRange _ _ fits, Memory.readRange_write, ← block, blocksOf_flatten hY]

/-! ### MENC and MDEC (R288, R289) -/

/-- The data command of a direction. -/
def dataInstr : Dir → Instr
  | .encrypt => .menc
  | .decrypt => .mdec

/-- What the data command of a direction makes of the blocks. -/
def State.dataFn (s : State) : Dir → List Bytes → List Bytes
  | .encrypt => s.encryptBlocks
  | .decrypt => s.decryptBlocks

/-- The output of the data command of a direction. -/
def State.dataOut (s : State) (d : Dir) : Bytes := (s.dataFn d s.dinBlocks).flatten

theorem exec_dataInstr (s : State) (d : Dir) :
    exec (dataInstr d) s = modeData (encode (dataInstr d)) (s.dataFn d) s := by cases d <;> rfl

section Data

variable {s t : State}

theorem State.ModeReady.exec_data (h : s.ModeReady) (d : Dir) :
    exec (dataInstr d) s = .next (s.emit s.dlen.toNat (s.dataOut d)) := by
  cases d
  · exact h.exec_menc
  · exact h.exec_mdec

/-- A data command ends with the latch set, or passes its checks and emits. -/
theorem data_next {d : Dir} (h : exec (dataInstr d) s = .next t) :
    t.err = true ∨ s.ModeReady ∧ t = s.emit s.dlen.toNat (s.dataOut d) := by
  rw [exec_dataInstr] at h
  rcases modeData_next.mp h with
    ⟨err, rfl⟩ | ⟨err, ⟨-, rfl⟩ | ⟨-, -, rfl⟩ | ⟨-, -, -, rfl⟩ | ⟨valid, fits, aligned, rfl⟩⟩
  · exact .inl err
  · exact .inl rfl
  · exact .inl rfl
  · exact .inl rfl
  · exact .inr ⟨⟨err, valid, fits, aligned⟩, rfl⟩

theorem State.Coherent.dataFn_sized (hs : s.Coherent) (h : s.ModeReady) (d : Dir) :
    ∀ b ∈ s.dataFn d s.dinBlocks, b.length = s.modectx.bs := by
  cases d
  · exact hs.encryptBlocks_sized h
  · refine modeDecrypt_blocks (hs.sized h.valid) (fun chained => ?_) h.dinBlocks_sized
    exact hs.civ_length h.valid (chained.imp_right .inl)

theorem dataFn_length (s : State) (d : Dir) (X : List Bytes) : (s.dataFn d X).length = X.length := by
  cases d
  · exact modeEncrypt_length _ _ _ _ X
  · exact modeDecrypt_length _ _ _ _ X

theorem State.Coherent.dataOut_length (hs : s.Coherent) (h : s.ModeReady) (d : Dir) :
    (s.dataOut d).length = s.dlen.toNat := by
  rw [State.dataOut, flatten_length (hs.dataFn_sized h d), dataFn_length, dinBlocks_length,
    Nat.div_mul_cancel (Nat.dvd_of_mod_eq_zero h.aligned)]

/-- What a data command leaves, block by block. -/
theorem State.Coherent.data_emits (hs : s.Coherent) (h : s.ModeReady) (d : Dir) :
    ∃ t, exec (dataInstr d) s = .next t ∧ Emits s t s.dlen.toNat (s.dataFn d s.dinBlocks).flatten ∧
      ∀ i, i < s.dlen.toNat / s.modectx.bs → t.mem.readRange (doutBase + i * s.modectx.bs) s.modectx.bs =
        (s.dataFn d s.dinBlocks).getD i [] := by
  refine ⟨_, h.exec_data d, emits_emit (hs.dataOut_length h d), fun i hi => ?_⟩
  exact readRange_write_flatten (hs.dataFn_sized h d) (by rwa [dataFn_length, dinBlocks_length])

end Data

/-- Settles O51: the blocks of DIN are its ranges, and the output's blocks stand at their offsets. -/
theorem modeDataResults : Obligations.ModeDataResults := by
  intro s hs err modev fits aligned n c X
  have ready : s.ModeReady := ⟨err, modev, fits, aligned⟩
  have blocks : X = s.dinBlocks := (dinBlocks_eq s).symm
  rw [blocks]
  exact ⟨hs.data_emits ready .encrypt, hs.data_emits ready .decrypt⟩

theorem dataInstr_of_mem {i : Instr} (hi : i = .menc ∨ i = .mdec) : ∃ d, i = dataInstr d := by
  rcases hi with rfl | rfl
  · exact ⟨.encrypt, rfl⟩
  · exact ⟨.decrypt, rfl⟩

/-- Settles O52: the checks of the shared operation in their order. -/
theorem modeDataErrors : Obligations.ModeDataErrors := by
  intro s i hs hi
  obtain ⟨d, rfl⟩ := dataInstr_of_mem hi
  simp only [exec_dataInstr, ← lenWord_eq]
  exact ⟨fun hm => modeData_not_ready hs hm _ _, fun hm hd => modeData_next.mpr (.inr ⟨hs, .inr (.inl ⟨hm, hd, rfl⟩)⟩),
    fun hm hd hu => modeData_next.mpr (.inr ⟨hs, .inr (.inr (.inl ⟨hm, hd, hu, rfl⟩))⟩)⟩

/-! ### What MENC and MDEC look at (R314, R290) -/

/-- Under coherence a valid cipher is a function of its context: SBOX and ISBOX are tables of the modulus. -/
theorem State.Coherent.blockCipher_congr {s s' : State} (hs : s.Coherent) (hs' : s'.Coherent) {c : Cipher}
    (hv : s.cipherValid c = true) (hv' : s'.cipherValid c = true) (hdes : c = .des → s.desctx = s'.desctx)
    (hdeal : c = .deal → s.dealctx = s'.dealctx) (hrj : c = .rj → s.rjctx = s'.rjctx) :
    s.blockCipher c = s'.blockCipher c := by
  cases c with
  | des => simp only [State.blockCipher, hdes rfl]
  | deal => simp only [State.blockCipher, hdeal rfl]
  | rj =>
    have ctx := hrj rfl
    have sbox : s.sbox = s'.sbox := funext fun v => by rw [((hs.rjValid hv).2 v).1, ((hs'.rjValid hv').2 v).1, ctx]
    have isbox : s.isbox = s'.isbox := funext fun v => by rw [((hs.rjValid hv).2 v).2, ((hs'.rjValid hv').2 v).2, ctx]
    simp only [State.blockCipher, ctx, sbox, isbox]

theorem dataOut_congr {s s' : State} (mode : s.modectx = s'.modectx)
    (cipher : s.blockCipher s.modectx.cipher = s'.blockCipher s'.modectx.cipher) (dlen : s.dlen = s'.dlen)
    (din : s.din = s'.din) (d : Dir) : s.dataOut d = s'.dataOut d := by
  rw [mode] at cipher
  cases d <;>
    simp only [State.dataOut, State.dataFn, State.encryptBlocks, State.decryptBlocks, State.dinBlocks, mode, cipher,
      dlen, din]

section Repeat

variable {s : State}

theorem blockCipher_emit (s : State) (n : Nat) (O : Bytes) : (s.emit n O).blockCipher = s.blockCipher := by
  have below {a : Nat} (ha : a < doutBase) : (s.emit n O).mem.read a = s.mem.read a :=
    Memory.read_write_outside (.inl ha)
  have sbox : (s.emit n O).sbox = s.sbox := funext fun v =>
    below (by have := v.isLt; simp only [sboxBase, doutBase]; omega)
  have isbox : (s.emit n O).isbox = s.isbox := funext fun v =>
    below (by have := v.isLt; simp only [isboxBase, doutBase]; omega)
  funext c
  cases c with
  | des => rfl
  | deal => rfl
  | rj =>
    rw [State.blockCipher, sbox, isbox]
    rfl

theorem din_emit (hp : s.params.Valid) (hd : s.dlen.toNat ≤ s.params.bufBytes) (n : Nat) (O : Bytes) :
    (s.emit n O).din = s.din := by
  obtain ⟨-, -, room⟩ := hp
  have apart : dinBase + s.dlen.toNat ≤ doutBase := by
    simp only [dinBase, doutBase]
    omega
  exact Memory.readRange_write_outside (.inl apart)

theorem Memory.write_write (m : Memory) (a : Nat) (B : Bytes) : (m.write a B).write a B = m.write a B := by
  have low : (m.write a B).filter (fun c => c.1 < a) = m.filter (fun c => c.1 < a) := by
    have cells : (Memory.cells a B).filter (fun c => decide (c.1 < a)) = [] :=
      List.filter_eq_nil_iff.mpr fun c hc => by
        have := Memory.cells_range hc
        simp only [decide_eq_true_eq]
        omega
    have high : (m.filter (fun c => decide (a + B.length ≤ c.1))).filter (fun c => decide (c.1 < a)) = [] :=
      List.filter_eq_nil_iff.mpr fun c hc => by
        simp only [List.mem_filter, decide_eq_true_eq] at hc ⊢
        omega
    rw [Memory.write, List.filter_append, List.filter_append, cells, high, List.append_nil, List.append_nil,
      List.filter_filter]
    simp only [Bool.and_self]
  have high : (m.write a B).filter (fun c => a + B.length ≤ c.1) = m.filter (fun c => a + B.length ≤ c.1) := by
    have cells : (Memory.cells a B).filter (fun c => decide (a + B.length ≤ c.1)) = [] :=
      List.filter_eq_nil_iff.mpr fun c hc => by
        have := Memory.cells_range hc
        simp only [decide_eq_true_eq]
        omega
    have low : (m.filter (fun c => decide (c.1 < a))).filter (fun c => decide (a + B.length ≤ c.1)) = [] :=
      List.filter_eq_nil_iff.mpr fun c hc => by
        simp only [List.mem_filter, decide_eq_true_eq] at hc ⊢
        omega
    rw [Memory.write, List.filter_append, List.filter_append, cells, low, List.nil_append, List.nil_append,
      List.filter_filter]
    simp only [Bool.and_self]
  calc (m.write a B).write a B
      = (m.write a B).filter (fun c => c.1 < a) ++ Memory.cells a B ++
          (m.write a B).filter (fun c => a + B.length ≤ c.1) := rfl
    _ = m.write a B := by rw [low, high, Memory.write]

theorem emit_emit (s : State) (n : Nat) (O : Bytes) : (s.emit n O).emit n O = s.emit n O := by
  simp only [State.emit, Memory.write_write]

/-- A data command that has emitted emits the same again. -/
theorem State.ModeReady.exec_data_again (h : s.ModeReady) (hp : s.params.Valid) (d : Dir) (n : Nat) (O : Bytes) :
    exec (dataInstr d) (s.emit n O) = .next ((s.emit n O).emit s.dlen.toNat (s.dataOut d)) := by
  have ready : (s.emit n O).ModeReady := ⟨h.clear, h.valid, h.fits, h.aligned⟩
  have same : (s.emit n O).dataOut d = s.dataOut d :=
    dataOut_congr (s := s.emit n O) (s' := s) rfl (congrFun (blockCipher_emit s n O) s.modectx.cipher) rfl
      (din_emit hp h.fits n O) d
  rw [ready.exec_data d, same]
  rfl

end Repeat

/-- Settles O54: the output is a function of the mode, the bound cipher and DIN, and emitting it leaves all three. -/
theorem modeDataDependence : Obligations.ModeDataDependence := by
  refine ⟨fun s s' t t' i hi hs hs' _ _ _ _ mode ctx dlen din ht ht' clear clear' => ?_, fun s t i hi hs ht => ?_⟩
  · obtain ⟨d, rfl⟩ := dataInstr_of_mem hi
    obtain ⟨ready, rfl⟩ := (data_next ht).resolve_left (by simp [clear])
    obtain ⟨ready', rfl⟩ := (data_next ht').resolve_left (by simp [clear'])
    have valid := (hs.modeValid ready.valid).1
    have valid' := (hs'.modeValid ready'.valid).1
    have cipher : s.blockCipher s.modectx.cipher = s'.blockCipher s'.modectx.cipher := by
      rw [← mode] at valid' ⊢
      refine hs.blockCipher_congr hs' valid valid' (fun hc => ?_) (fun hc => ?_) (fun hc => ?_) <;>
        simpa only [hc] using ctx
    have input : s.din = s'.din := by
      rw [State.din, State.din, ← dlen]
      exact List.map_congr_left fun k hk => din k (List.mem_range.mp hk)
    have out := dataOut_congr mode cipher dlen input d
    refine ⟨by rw [State.emit_olen, State.emit_olen, dlen], fun k hk => ?_⟩
    have inside : k < (s.dataOut d).length := by rwa [hs.dataOut_length ready d]
    rw [State.emit_mem, State.emit_mem, ← out, Memory.read_write_inside inside, Memory.read_write_inside inside]
  · obtain ⟨d, rfl⟩ := dataInstr_of_mem hi
    rcases data_next ht with err | ⟨ready, rfl⟩
    · exact exec_of_err err (by cases d <;> decide) (by cases d <;> decide)
    · rw [ready.exec_data_again hs.params, emit_emit]

end Sys2Proof.Machine
end

section
/-!
Padding (46_padding.md): what PADADD and PADREM leave, their errors, and the composite operation of R284.

A padded message is the input and a filler (`padAdd_eq_append`) whose length makes it whole blocks (`padCount_aligns`).
In the composite operation each OTOI puts the bytes of the last command into DIN (`din_copyOutToIn`), so the padded
message enters the round trip of the mode and comes out of it for PADREM.
-/

namespace Sys2Proof.Machine

variable {s : State} {sc : Scheme} {bs : Byte}

/-! ### The filler (R330, R332 to R334, R340) -/

/-- What a scheme appends to `len` bytes. -/
def padFill (sc : Scheme) (len bs start : Nat) : Bytes :=
  match sc with
  | .pkcs7 => List.replicate (padCount len bs) (BitVec.ofNat 8 (padCount len bs))
  | .ansi => List.replicate (padCount len bs - 1) 0 ++ [BitVec.ofNat 8 (padCount len bs)]
  | .iso => rngBytes start (padCount len bs - 1) ++ [BitVec.ofNat 8 (padCount len bs)]
  | .zeros => List.replicate (if len % bs = 0 then 0 else padCount len bs) 0

theorem padAdd_eq_append (sc : Scheme) (X : Bytes) (bs start : Nat) :
    padAdd sc X bs start = X ++ padFill sc X.length bs start := by
  cases sc with
  | pkcs7 => rfl
  | ansi => exact List.append_assoc _ _ _
  | iso => exact List.append_assoc _ _ _
  | zeros =>
    rw [padAdd, padFill]
    split
    · exact (List.append_nil X).symm
    · rfl

theorem padCount_aligns {bs : Nat} (h : 0 < bs) (len : Nat) : (len + padCount len bs) % bs = 0 := by
  have small := Nat.mod_lt len h
  have split := Nat.div_add_mod len bs
  have whole : len + padCount len bs = bs * (len / bs + 1) := by
    rw [padCount, Nat.mul_add]
    omega
  rw [whole, Nat.mul_mod_right]

theorem byte_pos (h : bs ≠ 0) : 0 < bs.toNat := Nat.pos_of_ne_zero fun h0 => h (BitVec.eq_of_toNat_eq h0)

/-! ### PADADD (R331, R335) -/

theorem exec_ofPadadd (s : State) (sc : Scheme) (bs : Byte) :
    exec (.ofPadadd bs sc) s = padaddCommand sc bs (encode (.ofPadadd bs sc)) s := by cases sc <;> rfl

/-- The state PADADD leaves when input and output fit. -/
def State.padded (s : State) (sc : Scheme) (bs : Byte) : State :=
  (s.emit (padAdd sc s.din bs.toNat s.draws).length (padAdd sc s.din bs.toNat s.draws)).drew
    (padDraws sc s.dlen.toNat bs.toNat)

theorem padadd_ok (hs : s.err = false) (hb : bs ≠ 0) (hd : s.dlen.toNat ≤ s.params.bufBytes)
    (hl : (padAdd sc s.din bs.toNat s.draws).length ≤ s.params.bufBytes) :
    exec (.ofPadadd bs sc) s = .next (s.padded sc bs) := by
  rw [exec_ofPadadd]
  exact padaddCommand_next.mpr (.inr ⟨hs, .inr (.inr (.inr ⟨hb, hd, hl, rfl⟩))⟩)

/-- Settles O55: PADADD emits the input and its filler, and ISO uses up the draws of its filler. -/
theorem padaddResults : Obligations.PadaddResults := by
  intro s sc bs hs hb hd len n total fits
  have length : (padAdd sc s.din bs.toNat s.draws).length = total := by
    rw [padAdd_length _ _ _ _ (byte_pos hb), din_length]
    rfl
  have appended : padAdd sc s.din bs.toNat s.draws =
      s.mem.readRange dinBase len ++ padFill sc len bs.toNat s.draws := by
    rw [padAdd_eq_append, din_length, State.din]
  have run := padadd_ok hs hb hd (length ▸ fits)
  rw [State.padded, length] at run
  have emitted := emits_emit (s := s) length
  refine ⟨_, padFill sc len bs.toNat s.draws, run, ⟨appended ▸ length, ?_, appended ▸ emitted.dout⟩, ?_, ?_⟩
  · cases sc <;> rfl
  · simp only [total]
    split
    · rename_i aligned
      exact aligned.2
    · exact padCount_aligns (byte_pos hb) len
  · cases sc with
    | pkcs7 => rfl
    | ansi => rfl
    | iso => rfl
    | zeros =>
      have count : total - len = if len % bs.toNat = 0 then 0 else padCount len bs.toNat := by
        simp only [total, true_and]
        split
        · exact Nat.sub_self len
        · exact Nat.add_sub_cancel_left _ _
      rw [count]
      rfl

/-! ### PADREM (R336, R337, R341) -/

/-- What PADREM of a scheme runs on its input. -/
def padremFn : Scheme → Bytes → Except Nat Bytes
  | .pkcs7 => removeDefault
  | .ansi => removeDefault
  | .iso => removeDefault
  | .zeros => fun Y => .ok (removeZeros Y)

theorem padremFn_of_ne (h : sc ≠ .zeros) : padremFn sc = removeDefault := by
  cases sc with
  | pkcs7 | ansi | iso => rfl
  | zeros => exact absurd rfl h

theorem exec_ofPadrem (s : State) (sc : Scheme) (bs : Byte) :
    exec (.ofPadrem bs sc) s = padremCommand (padremFn sc) bs (encode (.ofPadrem bs sc)) s := by cases sc <;> rfl

theorem padrem_ok {X : Bytes} (hs : s.err = false) (hb : bs ≠ 0) (hd : s.dlen.toNat ≤ s.params.bufBytes)
    (hX : padremFn sc s.din = .ok X) : exec (.ofPadrem bs sc) s = .next (s.emit X.length X) := by
  rw [exec_ofPadrem]
  exact padremCommand_next.mpr (.inr ⟨hs, .inr (.inr ⟨hb, hd, .inr ⟨X, hX, rfl⟩⟩)⟩)

theorem padrem_error {k : Nat} (hs : s.err = false) (hb : bs ≠ 0) (hd : s.dlen.toNat ≤ s.params.bufBytes)
    (hk : padremFn sc s.din = .error k) : exec (.ofPadrem bs sc) s =
      .next (s.latchError (encode (.ofPadrem bs sc)) .padBadcount (BitVec.ofNat 32 k)) := by
  rw [exec_ofPadrem]
  exact padremCommand_next.mpr (.inr ⟨hs, .inr (.inr ⟨hb, hd, .inl ⟨k, hk, rfl⟩⟩)⟩)

/-- The default removal reads the last byte of its input. -/
theorem removeDefault_of_ne_nil {Y : Bytes} (h : Y ≠ []) :
    removeDefault Y =
      if Y.length < (Y.getD (Y.length - 1) 0).toNat then .error (Y.getD (Y.length - 1) 0).toNat
      else .ok (Y.take (Y.length - (Y.getD (Y.length - 1) 0).toNat)) := by
  have last : Y.getLast? = some (Y.getD (Y.length - 1) 0) := by
    rw [List.getLast?_eq_getElem?, List.getD_eq_getElem?_getD, List.getElem?_eq_getElem
      (Nat.sub_lt (List.length_pos_of_ne_nil h) Nat.one_pos), Option.getD_some]
  rw [removeDefault, last]

/-- The removal of zeros keeps the shortest part from the left after which all bytes are zero. -/
theorem removeZeros_eq_take (Y : Bytes) :
    ∃ j, removeZeros Y = Y.take j ∧ j ≤ Y.length ∧ (∀ k, j ≤ k → k < Y.length → Y.getD k 0 = 0) ∧
      (0 < j → Y.getD (j - 1) 0 ≠ 0) := by
  induction Y using List.reverseRecOn with
  | nil => exact ⟨0, rfl, le_rfl, fun k _ hk => by simp at hk, fun h => absurd h (lt_irrefl 0)⟩
  | append_singleton Y b ih =>
    have before {k : Nat} (hk : k < Y.length) : (Y ++ [b]).getD k 0 = Y.getD k 0 := List.getD_append _ _ _ _ hk
    have last : (Y ++ [b]).getD Y.length 0 = b := by simp
    have length : (Y ++ [b]).length = Y.length + 1 := by simp
    by_cases hb : b = 0
    · obtain ⟨j, take, le, zero, nonzero⟩ := ih
      have stripped : removeZeros (Y ++ [b]) = removeZeros Y := by
        rw [hb]
        exact removeZeros_append_replicate Y 1
      refine ⟨j, by rw [stripped, take, List.take_append_of_le_length le], by omega, fun k lo hi => ?_, fun pos => ?_⟩
      · rcases Nat.lt_or_eq_of_le (Nat.le_of_lt_succ (length ▸ hi)) with inside | rfl
        · rw [before inside, zero k lo inside]
        · rw [last, hb]
      · rw [before (by omega)]
        exact nonzero pos
    · have kept : removeZeros (Y ++ [b]) = Y ++ [b] := by
        rw [removeZeros_eq_self_iff, length, Nat.add_sub_cancel, last]
        exact .inr hb
      refine ⟨Y.length + 1, by rw [kept, ← length, List.take_length], by omega, fun k lo hi => by omega, fun _ => ?_⟩
      rwa [Nat.add_sub_cancel, last]

/-- Settles O56: each of the two removals keeps the first bytes of the input. -/
theorem padremResults : Obligations.PadremResults := by
  intro s sc bs hs hb hd Y
  refine ⟨fun hz nonempty fits => ?_, fun hz => ?_⟩
  · have removed : padremFn sc s.din = .ok (Y.take (Y.length - (Y.getD (Y.length - 1) 0).toNat)) := by
      rw [padremFn_of_ne hz]
      exact (removeDefault_of_ne_nil nonempty).trans (if_neg (Nat.not_lt.mpr fits))
    have length : (Y.take (Y.length - (Y.getD (Y.length - 1) 0).toNat)).length =
        Y.length - (Y.getD (Y.length - 1) 0).toNat := List.length_take_of_le (Nat.sub_le _ _)
    have run := padrem_ok hs hb hd removed
    rw [length] at run
    exact ⟨_, run, emits_emit length⟩
  · obtain ⟨j, take, le, zero, nonzero⟩ := removeZeros_eq_take Y
    have removed : padremFn sc s.din = .ok (Y.take j) := by
      rw [hz, ← take]
      rfl
    have length : (Y.take j).length = j := List.length_take_of_le le
    have run := padrem_ok hs hb hd removed
    rw [length] at run
    exact ⟨_, j, run, emits_emit length, le, zero, nonzero⟩

/-- Settles O57: the checks of the two commands in their order. -/
theorem paddingErrors : Obligations.PaddingErrors := by
  intro s sc bs hs len n wa wr Y
  have input : s.din = Y := rfl
  have length : Y.length = len := din_length s
  refine ⟨fun hb => ⟨?_, ?_⟩, fun hb hd => ⟨?_, ?_⟩, fun hb hd whole exceeds => ?_, fun hb hd hz empty => ?_,
    fun hb hd hz nonempty exceeds => ?_⟩
  · rw [exec_ofPadadd]
    exact padaddCommand_next.mpr (.inr ⟨hs, .inl ⟨hb, rfl⟩⟩)
  · rw [exec_ofPadrem]
    exact padremCommand_next.mpr (.inr ⟨hs, .inl ⟨hb, rfl⟩⟩)
  · rw [exec_ofPadadd, ← lenWord_eq]
    exact padaddCommand_next.mpr (.inr ⟨hs, .inr (.inl ⟨hb, hd, rfl⟩)⟩)
  · rw [exec_ofPadrem, ← lenWord_eq]
    exact padremCommand_next.mpr (.inr ⟨hs, .inr (.inl ⟨hb, hd, rfl⟩)⟩)
  · have padded : (padAdd sc s.din bs.toNat s.draws).length = len + n := by
      rw [padAdd_length _ _ _ _ (byte_pos hb), input, length, if_neg whole]
      rfl
    rw [exec_ofPadadd, ← padded]
    exact padaddCommand_next.mpr (.inr ⟨hs, .inr (.inr (.inl ⟨hb, hd, padded ▸ exceeds, rfl⟩))⟩)
  · have nil : s.din = [] := List.length_eq_zero_iff.mp (length.trans empty)
    exact padrem_error (k := 0) hs hb hd (by rw [padremFn_of_ne hz, nil]; rfl)
  · have cons : Y ≠ [] := fun h => nonempty (by rw [← length, h]; rfl)
    rw [← lenWord_eq]
    refine padrem_error hs hb hd ?_
    rw [padremFn_of_ne hz, input, removeDefault_of_ne_nil cons, length, if_pos exceeds]

/-! ### The composite operation (45_modes.md R284) -/

theorem din_copyOutToIn (s : State) : s.copyOutToIn.din = s.dout := by
  have length : s.dout.length = s.olen.toNat := Memory.readRange_length _ _ _
  calc s.copyOutToIn.din
      = (s.mem.write dinBase s.dout).readRange dinBase s.dout.length := by rw [length]; rfl
    _ = s.dout := Memory.readRange_write _ _ _

theorem State.Coherent.next (h : s.Coherent) {i : Instr} {t : State} (ht : exec i s = .next t) : t.Coherent :=
  (exec_effect ht).coherent h

/-- The block size of a valid mode is not 0. -/
theorem State.Coherent.bs_pos (h : s.Coherent) (hm : s.modev = true) : 0 < s.modectx.bs := by
  obtain ⟨valid, size, -⟩ := h.modeValid hm
  rw [size]
  cases hc : s.modectx.cipher with
  | des => exact Nat.succ_pos _
  | deal => exact Nat.succ_pos _
  | rj =>
    rw [hc] at valid
    have := (h.rjValid valid).1.nb
    simp only [State.blockSize]
    omega

/-- MENC, OTOI, MDEC, OTOI bring DIN back into DIN. -/
theorem State.Coherent.mode_roundTrip_din (h : s.Coherent) (err : s.err = false) (hm : s.modev = true)
    (fits : s.dlen.toNat ≤ s.params.bufBytes) (aligned : s.dlen.toNat % s.modectx.bs = 0) :
    ∃ t u v w : State, exec .menc s = .next t ∧ exec .otoi t = .next u ∧ exec .mdec u = .next v ∧
      exec .otoi v = .next w ∧ w.err = false ∧ w.din = s.din ∧ w.dlen.toNat ≤ w.params.bufBytes := by
  obtain ⟨t, u, v, menc, otoi, mdec, clear, olen, bytes⟩ := modeRoundTrip s h err hm fits aligned
  have coherent : v.Coherent := ((h.next menc).next otoi).next mdec
  refine ⟨t, u, v, v.copyOutToIn, menc, otoi, mdec, exec_otoi clear, clear, ?_, coherent.olenFits⟩
  rw [din_copyOutToIn, State.dout, olen]
  exact List.map_congr_left fun k hk => bytes k (List.mem_range.mp hk)

/-- Settles O59: the padded message goes through the mode's round trip, and removing gives the input back. -/
theorem compositeRoundTrip : Obligations.CompositeRoundTrip := by
  intro s sc bs h err hm hz size room
  have pos : 0 < bs.toNat := size ▸ h.bs_pos hm
  have hb : bs ≠ 0 := fun h0 => by simp [h0] at pos
  have length : (padAdd sc s.din bs.toNat s.draws).length = s.dlen.toNat + padCount s.dlen.toNat bs.toNat := by
    rw [padAdd_length _ _ _ _ pos, if_neg fun hc => hz hc.1, din_length]
  have fits : (padAdd sc s.din bs.toNat s.draws).length ≤ s.params.bufBytes := by
    rw [length, size]
    exact room
  have short : (padAdd sc s.din bs.toNat s.draws).length < 2 ^ 16 := by
    have := h.params.2.2
    omega
  have padadd := padadd_ok err hb (by omega) fits
  have olen : (s.padded sc bs).olen.toNat = (padAdd sc s.din bs.toNat s.draws).length := Nat.mod_eq_of_lt short
  have padded : (s.padded sc bs).copyOutToIn.din = padAdd sc s.din bs.toNat s.draws := by
    rw [din_copyOutToIn, State.dout, olen]
    exact Memory.readRange_write _ _ _
  have otoi : exec .otoi (s.padded sc bs) = .next (s.padded sc bs).copyOutToIn := exec_otoi err
  have aligned : (s.padded sc bs).copyOutToIn.dlen.toNat % s.modectx.bs = 0 := by
    rw [State.copyOutToIn_dlen, olen, length, ← size, padCount_aligns pos]
  obtain ⟨t, u, v, w, menc, otoi₁, mdec, otoi₂, clear, same, small⟩ :=
    ((h.next padadd).next otoi).mode_roundTrip_din err hm (olen.le.trans fits) aligned
  have removed : padremFn sc w.din = .ok s.din := by
    rw [padremFn_of_ne hz, same, padded]
    exact removeDefault_padAdd hz pos (Nat.le_of_lt_succ bs.isLt) s.din s.draws
  refine ⟨_, _, t, u, v, w, _, padadd, otoi, menc, otoi₁, mdec, otoi₂, padrem_ok clear hb small removed, clear, ?_,
    fun k hk => ?_⟩
  · rw [State.emit_olen, din_length, BitVec.ofNat_toNat, BitVec.setWidth_eq]
  · rw [State.emit_mem, Memory.read_write_inside (by rwa [din_length]), getD_din hk]

end Sys2Proof.Machine
end
